-- ==== Sys2Proof/Word.lean ====
section
/-!
DEFINITION. The words of the machine: bytes, command words, register words, register indices, and the pair of
binary64 patterns a complex register holds (00_scope.md R10, R11, R15; 10_state.md R41, R42).
-/

namespace Sys2Proof

/-- One byte of buffer memory (20_memory.md R80). -/
abbrev Byte := BitVec 8

/-- A command word or a 32-bit control register (30_encoding.md R110; 10_state.md R45). -/
abbrev Word32 := BitVec 32

/-- A 64-bit register or host access (10_state.md R42, R65). -/
abbrev Word64 := BitVec 64

/-- A binary64 value as its bit pattern; `f64` and `bits64` of 00_scope.md R15 are both the identity on it. -/
abbrev F64 := BitVec 64

/-- A register index: 3 bits, every value a register (30_encoding.md R114; NCR = NXR = 8, 00_scope.md R8). -/
abbrev RegIdx := Fin 8

/-- A complex value `(re, im)` of binary64 components (10_state.md R41). -/
structure Cplx where
  re : F64
  im : F64
deriving DecidableEq, Repr, Inhabited

end Sys2Proof
end

