-- ==== Sys2Proof/Config.lean ====
section
/-!
DEFINITION. What an implementation fixes (00_scope.md R8) and the free values. The constants without a body are
OPEN in the spec: nothing in Lean can evaluate them, so a theorem holds whatever they are.
-/

namespace Sys2Proof.Config

/-- ID_VALUE, the hard-wired identification register (00_scope.md R8; 10_state.md R46). -/
def idValue : Word64 := 0x0000_0007_5741_5645

/-- F_EXP, OPEN: some deterministic total function on binary64 (00_scope.md R8, R9). -/
opaque fExp : F64 → F64

/-- F_SIN, OPEN (00_scope.md R8, R9). -/
opaque fSin : F64 → F64

/-- F_COS, OPEN (00_scope.md R8, R9). -/
opaque fCos : F64 → F64

/-- F_ATAN, OPEN (00_scope.md R8, R9). -/
opaque fAtan : F64 → F64

/-- The free values: the n-th `draw` of the machine takes its bits from `freeBits n` (00_scope.md R14; log 5).
Successive draws use successive n, so nothing relates one draw to another. -/
opaque freeBits : Nat → Word64

/-- DESIGN CHOICE (log 3): BMEM_BYTES of `State.reset` is 16 * (255 + 1) = 0x1000; every other state may hold
another size, and no step changes it. -/
def resetBmemBlocks : Fin (2 ^ 27) := ⟨255, by decide⟩

/-- DESIGN CHOICE (log 1): the value an XR register and a CR component hold in `State.reset`, where the spec
gives none. -/
def resetRegister : Word64 := 0

end Sys2Proof.Config
end

