-- ==== Sys2Proof/Machine/Float.lean ====
section
/-!
DEFINITION. The binary64 primitives (00_scope.md R15 to R25). A finite value is a sign and a whole number of units
of 2^-1074, so every operation is exact on natural numbers up to the one rounding that `roundMag` makes.
-/

namespace Sys2Proof.Machine

/-- What a binary64 pattern stands for: a finite value is `(-1)^neg * mag * 2^-1074` (00_scope.md R15). -/
inductive FView where
  | nan
  | inf (neg : Bool)
  | fin (neg : Bool) (mag : Nat)
deriving DecidableEq, Repr

/-- The sign, bit 63 (00_scope.md R15). -/
def fsign (a : F64) : Bool := a.getLsbD 63

/-- The exponent field, bits 62:52 (00_scope.md R15). -/
def fexponent (a : F64) : Nat := a.toNat / 2 ^ 52 % 2 ^ 11

/-- The fraction field, bits 51:0 (00_scope.md R15). -/
def ffraction (a : F64) : Nat := a.toNat % 2 ^ 52

/-- Read a pattern: exponent field all ones is an infinity or a NaN, 0 is a zero or subnormal (00_scope.md R15). -/
def fview (a : F64) : FView :=
  if fexponent a = 2047 then
    if ffraction a = 0 then .inf (fsign a) else .nan
  else if fexponent a = 0 then .fin (fsign a) (ffraction a)
  else .fin (fsign a) ((2 ^ 52 + ffraction a) * 2 ^ (fexponent a - 1))

/-- The pattern with a given sign and the given bits 62:0. -/
def fpack (neg : Bool) (bits : Nat) : F64 := BitVec.ofNat 64 (neg.toNat * 2 ^ 63 + bits)

/-- Bits 62:0 of an infinity. -/
def infBits : Nat := 2047 * 2 ^ 52

/-- The canonical NaN (00_scope.md R16, R18). -/
def cnan : F64 := 0x7FF8_0000_0000_0000

/-- An infinity of the given sign. -/
def finf (neg : Bool) : F64 := fpack neg infBits

/-- A zero of the given sign. -/
def fzero (neg : Bool) : F64 := fpack neg 0

/-- `canon` of 00_scope.md R18. -/
def canon (v : F64) : F64 := if fview v = .nan then cnan else v

/-- `num / den` rounded to the nearest natural number, ties to even. -/
def divRne (num den : Nat) : Nat :=
  let q := num / den
  let r := num % den
  if den < 2 * r ∨ (2 * r = den ∧ q % 2 = 1) then q + 1 else q

/-- Bits 62:0 of the binary64 nearest to `num / den` units of 2^-1074, ties to even, beyond the largest finite
value an infinity (00_scope.md R16). The significand keeps 53 bits, so the last place is `2^k` units; the bits of
`n * 2^k` units are `k * 2^52 + n`, for subnormals (k = 0), for normals, and when rounding carries. -/
def roundMag (num den : Nat) : Nat :=
  let k := Nat.log2 (num / den) - 52
  min (k * 2 ^ 52 + divRne num (den * 2 ^ k)) infBits

/-- Round the value of sign `neg` and magnitude `num / den` units. -/
def fround64 (neg : Bool) (num den : Nat) : F64 := fpack neg (roundMag num den)

/-- The integer a finite view stands for, in units of 2^-1074. -/
def signedMag (neg : Bool) (mag : Nat) : Int := if neg then -(mag : Int) else mag

/-- `fadd` of 00_scope.md R16. An exact zero sum is -0.0 only when both operands are negative (round to nearest). -/
def fadd (a b : F64) : F64 :=
  match fview a, fview b with
  | .nan, _ => cnan
  | _, .nan => cnan
  | .inf s, .inf t => if s = t then finf s else cnan
  | .inf s, .fin _ _ => finf s
  | .fin _ _, .inf t => finf t
  | .fin s m, .fin t n =>
    let z := signedMag s m + signedMag t n
    if z = 0 then fzero (s && t) else fround64 (decide (z < 0)) z.natAbs 1

/-- `fneg` of 00_scope.md R19: flip bit 63, NaN payloads kept. -/
def fneg (a : F64) : F64 := a ^^^ 0x8000_0000_0000_0000

/-- `fsub` of 00_scope.md R16: the sum with the negated second operand. -/
def fsub (a b : F64) : F64 := fadd a (fneg b)

/-- `fmul` of 00_scope.md R16. -/
def fmul (a b : F64) : F64 :=
  match fview a, fview b with
  | .nan, _ => cnan
  | _, .nan => cnan
  | .inf s, .inf t => finf (s ^^ t)
  | .inf s, .fin t n => if n = 0 then cnan else finf (s ^^ t)
  | .fin s m, .inf t => if m = 0 then cnan else finf (s ^^ t)
  | .fin s m, .fin t n => fround64 (s ^^ t) (m * n) (2 ^ 1074)

/-- `fdiv` of 00_scope.md R16. -/
def fdiv (a b : F64) : F64 :=
  match fview a, fview b with
  | .nan, _ => cnan
  | _, .nan => cnan
  | .inf _, .inf _ => cnan
  | .inf s, .fin t _ => finf (s ^^ t)
  | .fin s _, .inf t => fzero (s ^^ t)
  | .fin s m, .fin t n =>
    if n = 0 then if m = 0 then cnan else finf (s ^^ t)
    else fround64 (s ^^ t) (m * 2 ^ 1074) n

/-- The whole part of a square root, one result bit per unit of fuel from the highest down: the largest
`acc + r` with `r < 2^fuel` whose square is at most `x`. -/
def isqrtFrom (x : Nat) : Nat → Nat → Nat
  | 0, acc => acc
  | fuel + 1, acc =>
    if (acc + 2 ^ fuel) * (acc + 2 ^ fuel) ≤ x then isqrtFrom x fuel (acc + 2 ^ fuel) else isqrtFrom x fuel acc

/-- Bits 62:0 of the binary64 nearest to the square root of `mag > 0` units of 2^-1074. In those units the root is
`sqrt x` with `x = mag * 2^1074`. Its last place is `2^k`: the root of an L-bit number has `(L + 1) / 2` bits. -/
def sqrtMag (mag : Nat) : Nat :=
  let x := mag * 2 ^ 1074
  let k := (Nat.log2 x + 2) / 2 - 53
  let n := isqrtFrom (x / 4 ^ k) 53 0
  let half := (2 * n + 1) * 2 ^ k
  k * 2 ^ 52 + if half * half < 4 * x ∨ (half * half = 4 * x ∧ n % 2 = 1) then n + 1 else n

/-- `fsqrt` of 00_scope.md R17. -/
def fsqrt (a : F64) : F64 :=
  match fview a with
  | .nan => cnan
  | .inf neg => if neg then cnan else finf false
  | .fin neg mag => if mag = 0 then fzero neg else if neg then cnan else fpack false (sqrtMag mag)

/-- `fround` of 00_scope.md R20: to the nearest integral value, halves away from zero, the sign kept. -/
def fround (a : F64) : F64 :=
  match fview a with
  | .nan => cnan
  | .inf neg => finf neg
  | .fin neg mag => fround64 neg ((mag + 2 ^ 1073) / 2 ^ 1074 * 2 ^ 1074) 1

/-- `feq` of 00_scope.md R21: IEEE compareQuietEqual. -/
def feq (a b : F64) : Bool :=
  match fview a, fview b with
  | .inf s, .inf t => s == t
  | .fin s m, .fin t n => m == n && (s == t || m == 0)
  | _, _ => false

/-- The exact binary64 of a natural number below 2^53, or a power of two in range (`f64_of_int`, 42_fft.md R211). -/
def f64OfNat (n : Nat) : F64 := fround64 false (n * 2 ^ 1074) 1

/-- PI64 (00_scope.md R23). -/
def pi64 : F64 := 0x4009_21FB_5444_2D18

/-- 1.0 (00_scope.md R24). -/
def fone : F64 := 0x3FF0_0000_0000_0000

/-- F_EXP as the engine uses it, canonicalised (00_scope.md R22). -/
def fexp (a : F64) : F64 := canon (Config.fExp a)

/-- F_SIN canonicalised (00_scope.md R22). -/
def fsin (a : F64) : F64 := canon (Config.fSin a)

/-- F_COS canonicalised (00_scope.md R22). -/
def fcos (a : F64) : F64 := canon (Config.fCos a)

/-- F_ATAN canonicalised (00_scope.md R22). -/
def fatan (a : F64) : F64 := canon (Config.fAtan a)

/-- The element of U that 64 free bits choose (00_scope.md R25): U's patterns are exactly 0 to that of 1.0, so the
map is onto U. -/
def unitDraw (bits : Word64) : F64 := BitVec.ofNat 64 (bits.toNat % (fone.toNat + 1))

end Sys2Proof.Machine
end

