-- ==== Sys2Proof/Syntax.lean ====
section
/-!
DEFINITION. The command set: one constructor for each row of the opcode map (30_encoding.md R116), operands in
assembler order (R122), and the pseudo-instructions (R123).
-/

namespace Sys2Proof

/-- The 22 commands of 30_encoding.md R116. `cd`, `cs` index the complex file and `xd`, `xs` the integer file. -/
inductive Instr where
  | cmk (cd xs1 xs2 : RegIdx)
  | cmkre (cd xs1 : RegIdx)
  | cmkim (cd xs1 : RegIdx)
  | ceq (xd cs1 cs2 : RegIdx)
  | ceqr (xd cs1 cs2 : RegIdx)
  | cadd (cd cs1 cs2 : RegIdx)
  | csub (cd cs1 cs2 : RegIdx)
  | cmul (cd cs1 cs2 : RegIdx)
  | cdiv (cd cs1 cs2 : RegIdx)
  | cmod (xd cs1 : RegIdx)
  | carg (xd cs1 : RegIdx)
  | cexp (cd cs1 : RegIdx)
  | cconj (cd cs1 : RegIdx)
  | crecip (cd cs1 : RegIdx)
  | crand (cd : RegIdx)
  | log2f (xd xs1 : RegIdx)
  | brev (xd xs1 xs2 : RegIdx)
  /-- BUILDTBL (O = 0) and BUILDTBL.O (O = 1). -/
  | buildtbl (o : Bool)
  /-- FFT, FFT.T, FFT.O and FFT.TO. -/
  | fft (o t : Bool)
  | bfly (cd cs1 cs2 : RegIdx)
  | ldc (cd xs1 : RegIdx)
  /-- Written `STC cs2, xs1`: the value register, then the address register (R122, R241). -/
  | stc (cs2 xs1 : RegIdx)
deriving DecidableEq, Repr

/-- The pseudo-instructions of 30_encoding.md R123. -/
inductive Pseudo where
  | mag (xd cs1 : RegIdx)
  | ccopy (cd cs1 : RegIdx)
  | fftr
deriving DecidableEq, Repr

/-- The exact expansion of each pseudo-instruction (30_encoding.md R123). -/
def Pseudo.expand : Pseudo → List Instr
  | .mag xd cs1 => [.cmod xd cs1]
  | .ccopy cd cs1 => [.cconj cd cs1, .cconj cd cd]
  | .fftr => [.fft false true]

/-- The name of an operand register, `c0` to `c7` or `x0` to `x7` (30_encoding.md R122). -/
def regName (file : String) (r : RegIdx) : String := file ++ toString r.val

/-- A command line: the mnemonic, then its operands separated by commas (30_encoding.md R122). -/
def asmLine (mnemonic : String) (operands : List String) : String :=
  mnemonic ++ " " ++ ", ".intercalate operands

/-- The assembler text of a command (30_encoding.md R116, R122). -/
def Instr.asm : Instr → String
  | .cmk cd xs1 xs2 => asmLine "CMK" [regName "c" cd, regName "x" xs1, regName "x" xs2]
  | .cmkre cd xs1 => asmLine "CMKRE" [regName "c" cd, regName "x" xs1]
  | .cmkim cd xs1 => asmLine "CMKIM" [regName "c" cd, regName "x" xs1]
  | .ceq xd cs1 cs2 => asmLine "CEQ" [regName "x" xd, regName "c" cs1, regName "c" cs2]
  | .ceqr xd cs1 cs2 => asmLine "CEQR" [regName "x" xd, regName "c" cs1, regName "c" cs2]
  | .cadd cd cs1 cs2 => asmLine "CADD" [regName "c" cd, regName "c" cs1, regName "c" cs2]
  | .csub cd cs1 cs2 => asmLine "CSUB" [regName "c" cd, regName "c" cs1, regName "c" cs2]
  | .cmul cd cs1 cs2 => asmLine "CMUL" [regName "c" cd, regName "c" cs1, regName "c" cs2]
  | .cdiv cd cs1 cs2 => asmLine "CDIV" [regName "c" cd, regName "c" cs1, regName "c" cs2]
  | .cmod xd cs1 => asmLine "CMOD" [regName "x" xd, regName "c" cs1]
  | .carg xd cs1 => asmLine "CARG" [regName "x" xd, regName "c" cs1]
  | .cexp cd cs1 => asmLine "CEXP" [regName "c" cd, regName "c" cs1]
  | .cconj cd cs1 => asmLine "CCONJ" [regName "c" cd, regName "c" cs1]
  | .crecip cd cs1 => asmLine "CRECIP" [regName "c" cd, regName "c" cs1]
  | .crand cd => asmLine "CRAND" [regName "c" cd]
  | .log2f xd xs1 => asmLine "LOG2F" [regName "x" xd, regName "x" xs1]
  | .brev xd xs1 xs2 => asmLine "BREV" [regName "x" xd, regName "x" xs1, regName "x" xs2]
  | .buildtbl false => "BUILDTBL"
  | .buildtbl true => "BUILDTBL.O"
  | .fft false false => "FFT"
  | .fft false true => "FFT.T"
  | .fft true false => "FFT.O"
  | .fft true true => "FFT.TO"
  | .bfly cd cs1 cs2 => asmLine "BFLY" [regName "c" cd, regName "c" cs1, regName "c" cs2]
  | .ldc cd xs1 => asmLine "LDC" [regName "c" cd, regName "x" xs1]
  | .stc cs2 xs1 => asmLine "STC" [regName "c" cs2, regName "x" xs1]

end Sys2Proof
end

