-- ==== Sys2Proof/WellFormed.lean ====
section
/-!
DEFINITION. Which commands have an encoding that the decoder accepts. The types of the operands already carry
every bound (30_encoding.md R114: every 3-bit value is a register); one check is left.
-/

namespace Sys2Proof

/-- A command is well formed when some word decodes to it: every command is, but a BFLY whose RD equals its RS1
(30_encoding.md R117; 42_fft.md R210). -/
def Instr.wellFormed : Instr → Bool
  | .bfly cd cs1 _ => cd != cs1
  | .cmk _ _ _ => true
  | .cmkre _ _ => true
  | .cmkim _ _ => true
  | .ceq _ _ _ => true
  | .ceqr _ _ _ => true
  | .cadd _ _ _ => true
  | .csub _ _ _ => true
  | .cmul _ _ _ => true
  | .cdiv _ _ _ => true
  | .cmod _ _ => true
  | .carg _ _ => true
  | .cexp _ _ => true
  | .cconj _ _ => true
  | .crecip _ _ => true
  | .crand _ => true
  | .log2f _ _ => true
  | .brev _ _ _ => true
  | .buildtbl _ => true
  | .fft _ _ => true
  | .ldc _ _ => true
  | .stc _ _ => true

end Sys2Proof
end

