-- ==== Sys2Proof/Decode.lean ====
section
/-!
DEFINITION. The opcode map, the decoder and the encoder (30_encoding.md R110 to R121). Decoding is total on every
32-bit word and rejects by name.
-/

namespace Sys2Proof

/-- Why a word is no command: the three checks of 30_encoding.md R120, in their order. Each makes the engine
raise ILLEGAL_COMMAND (60_exceptions.md R253). -/
inductive DecodeError where
  /-- The opcode is not in the opcode map (R118). -/
  | unassignedOpcode
  /-- A must-be-zero bit is 1 (R117). -/
  | mustBeZero
  /-- BFLY with RD = RS1 (R117, R210). -/
  | bflySameRegister
deriving DecidableEq, Repr

/-- A row of the opcode map: the bits the decoder checks and the value they must hold (30_encoding.md R116). -/
structure OpRow where
  mask : Word32
  pattern : Word32
deriving DecidableEq, Repr

/-- The opcode map by opcode byte (30_encoding.md R116); an opcode it does not list is unassigned (R118). -/
def opMap (opc : Nat) : Option OpRow :=
  match opc with
  | 0x10 => some ⟨0xFF007FFF, 0x10000000⟩
  | 0x11 => some ⟨0xFF03FFFF, 0x11000000⟩
  | 0x12 => some ⟨0xFF03FFFF, 0x12000000⟩
  | 0x13 => some ⟨0xFF007FFF, 0x13000000⟩
  | 0x14 => some ⟨0xFF007FFF, 0x14000000⟩
  | 0x15 => some ⟨0xFF007FFF, 0x15000000⟩
  | 0x16 => some ⟨0xFF007FFF, 0x16000000⟩
  | 0x17 => some ⟨0xFF007FFF, 0x17000000⟩
  | 0x18 => some ⟨0xFF007FFF, 0x18000000⟩
  | 0x19 => some ⟨0xFF03FFFF, 0x19000000⟩
  | 0x1A => some ⟨0xFF03FFFF, 0x1A000000⟩
  | 0x1B => some ⟨0xFF03FFFF, 0x1B000000⟩
  | 0x1C => some ⟨0xFF03FFFF, 0x1C000000⟩
  | 0x1D => some ⟨0xFF03FFFF, 0x1D000000⟩
  | 0x1E => some ⟨0xFF1FFFFF, 0x1E000000⟩
  | 0x20 => some ⟨0xFF03FFFF, 0x20000000⟩
  | 0x21 => some ⟨0xFF007FFF, 0x21000000⟩
  | 0x22 => some ⟨0xFFFFFFFD, 0x22000000⟩
  | 0x30 => some ⟨0xFFFFFFFC, 0x30000000⟩
  | 0x31 => some ⟨0xFF007FFF, 0x31000000⟩
  | 0x40 => some ⟨0xFF03FFFF, 0x40000000⟩
  | 0x41 => some ⟨0xFFE07FFF, 0x41000000⟩
  | _ => none

/-- OPC, bits 31:24 (30_encoding.md R111). -/
def fieldOpc (w : Word32) : Nat := (w.extractLsb' 24 8).toNat

/-- RD, bits 23:21 (30_encoding.md R111). -/
def fieldRd (w : Word32) : RegIdx := (w.extractLsb' 21 3).toFin

/-- RS1, bits 20:18 (30_encoding.md R111). -/
def fieldRs1 (w : Word32) : RegIdx := (w.extractLsb' 18 3).toFin

/-- RS2, bits 17:15 (30_encoding.md R111). -/
def fieldRs2 (w : Word32) : RegIdx := (w.extractLsb' 15 3).toFin

/-- O, bit 1, format B (30_encoding.md R111). -/
def fieldO (w : Word32) : Bool := w.getLsbD 1

/-- T, bit 0, format B (30_encoding.md R111). -/
def fieldT (w : Word32) : Bool := w.getLsbD 0

/-- The command a word with an assigned opcode names, its fields read (30_encoding.md R116, last lines of R120). -/
def buildInstr (opc : Nat) (w : Word32) : Except DecodeError Instr :=
  match opc with
  | 0x10 => .ok (.cmk (fieldRd w) (fieldRs1 w) (fieldRs2 w))
  | 0x11 => .ok (.cmkre (fieldRd w) (fieldRs1 w))
  | 0x12 => .ok (.cmkim (fieldRd w) (fieldRs1 w))
  | 0x13 => .ok (.ceq (fieldRd w) (fieldRs1 w) (fieldRs2 w))
  | 0x14 => .ok (.ceqr (fieldRd w) (fieldRs1 w) (fieldRs2 w))
  | 0x15 => .ok (.cadd (fieldRd w) (fieldRs1 w) (fieldRs2 w))
  | 0x16 => .ok (.csub (fieldRd w) (fieldRs1 w) (fieldRs2 w))
  | 0x17 => .ok (.cmul (fieldRd w) (fieldRs1 w) (fieldRs2 w))
  | 0x18 => .ok (.cdiv (fieldRd w) (fieldRs1 w) (fieldRs2 w))
  | 0x19 => .ok (.cmod (fieldRd w) (fieldRs1 w))
  | 0x1A => .ok (.carg (fieldRd w) (fieldRs1 w))
  | 0x1B => .ok (.cexp (fieldRd w) (fieldRs1 w))
  | 0x1C => .ok (.cconj (fieldRd w) (fieldRs1 w))
  | 0x1D => .ok (.crecip (fieldRd w) (fieldRs1 w))
  | 0x1E => .ok (.crand (fieldRd w))
  | 0x20 => .ok (.log2f (fieldRd w) (fieldRs1 w))
  | 0x21 => .ok (.brev (fieldRd w) (fieldRs1 w) (fieldRs2 w))
  | 0x22 => .ok (.buildtbl (fieldO w))
  | 0x30 => .ok (.fft (fieldO w) (fieldT w))
  | 0x31 => if fieldRd w = fieldRs1 w then .error .bflySameRegister
            else .ok (.bfly (fieldRd w) (fieldRs1 w) (fieldRs2 w))
  | 0x40 => .ok (.ldc (fieldRd w) (fieldRs1 w))
  | 0x41 => .ok (.stc (fieldRs2 w) (fieldRs1 w))
  | _ => .error .unassignedOpcode

/-- The decode procedure of 30_encoding.md R120: opcode, must-be-zero bits, BFLY's registers, in that order. -/
def decode (w : Word32) : Except DecodeError Instr :=
  match opMap (fieldOpc w) with
  | none => .error .unassignedOpcode
  | some row => if w &&& row.mask ≠ row.pattern then .error .mustBeZero else buildInstr (fieldOpc w) w

/-- `enc(opc, rd, rs1, rs2)` of 30_encoding.md R121. -/
def encR (opc : Nat) (rd rs1 rs2 : RegIdx) : Word32 :=
  BitVec.ofNat 32 opc <<< 24 ||| BitVec.ofNat 32 rd.val <<< 21 ||| BitVec.ofNat 32 rs1.val <<< 18
    ||| BitVec.ofNat 32 rs2.val <<< 15

/-- `encB(opc, O, T)` of 30_encoding.md R121. -/
def encB (opc : Nat) (o t : Bool) : Word32 :=
  BitVec.ofNat 32 opc <<< 24 ||| BitVec.ofNat 32 o.toNat <<< 1 ||| BitVec.ofNat 32 t.toNat

/-- The word of a command, unused fields 0 (30_encoding.md R116, R121). -/
def encode : Instr → Word32
  | .cmk cd xs1 xs2 => encR 0x10 cd xs1 xs2
  | .cmkre cd xs1 => encR 0x11 cd xs1 0
  | .cmkim cd xs1 => encR 0x12 cd xs1 0
  | .ceq xd cs1 cs2 => encR 0x13 xd cs1 cs2
  | .ceqr xd cs1 cs2 => encR 0x14 xd cs1 cs2
  | .cadd cd cs1 cs2 => encR 0x15 cd cs1 cs2
  | .csub cd cs1 cs2 => encR 0x16 cd cs1 cs2
  | .cmul cd cs1 cs2 => encR 0x17 cd cs1 cs2
  | .cdiv cd cs1 cs2 => encR 0x18 cd cs1 cs2
  | .cmod xd cs1 => encR 0x19 xd cs1 0
  | .carg xd cs1 => encR 0x1A xd cs1 0
  | .cexp cd cs1 => encR 0x1B cd cs1 0
  | .cconj cd cs1 => encR 0x1C cd cs1 0
  | .crecip cd cs1 => encR 0x1D cd cs1 0
  | .crand cd => encR 0x1E cd 0 0
  | .log2f xd xs1 => encR 0x20 xd xs1 0
  | .brev xd xs1 xs2 => encR 0x21 xd xs1 xs2
  | .buildtbl o => encB 0x22 o false
  | .fft o t => encB 0x30 o t
  | .bfly cd cs1 cs2 => encR 0x31 cd cs1 cs2
  | .ldc cd xs1 => encR 0x40 cd xs1 0
  | .stc cs2 xs1 => encR 0x41 0 xs1 cs2

/-- The command word made of the low `nbits` bits of `w`, bits above `nbits` zero. Every command is one 32-bit
word (30_encoding.md R110), so bit 0 of the table's numbering is bit 0 of the word. -/
def tableWord (nbits w : Nat) : Word32 := BitVec.ofNat 32 (w % 2 ^ nbits)

/-- What the decoder reads from an instruction whose bits, numbered as the opcode table numbers them, are `w`. -/
def decodeTableWord (nbits w : Nat) : Option Instr := (decode (tableWord nbits w)).toOption

end Sys2Proof
end

