-- ==== Sys2Proof/Machine/State.lean ====
section
/-!
DEFINITION. The state of the block as plain data (10_state.md, 20_memory.md), the reasons a step can stop, and the
state right after power-on and reset (70_reset_and_hazards.md R281, R282).
-/

namespace Sys2Proof.Machine

/-- The result codes of 60_exceptions.md R250. Codes 7 to 15 are never produced, so they have no constructor. -/
inductive ErrCode where
  | none
  | invalidSize
  | allocationFailure
  | illegalCommand
  | addressError
  | overlap
  | tableInvalid
deriving DecidableEq, Repr

/-- The fields of STATUS (10_state.md R47); its reserved bits read 0 and are no state. -/
structure Status where
  /-- BUSY, bit 0 (R48). -/
  busy : Bool
  /-- DONE, bit 1 (R49). -/
  done : Bool
  /-- ERR, bits 7:4 (R50). -/
  err : ErrCode
  /-- ALLOC, bit 9 (R51). -/
  alloc : Bool
  /-- HZ, bit 10 (R52). -/
  hz : Bool
deriving DecidableEq, Repr

/-- What the host does to the block in one access (10_state.md R65; 20_memory.md R89; 70_reset_and_hazards.md
R280). A width is the number of bytes accessed. -/
inductive HostAct where
  | regWrite (offset : BitVec 12) (width : Nat) (value : Word64)
  | regRead (offset : BitVec 12) (width : Nat)
  | memWrite (addr width : Nat) (value : Word64)
  | memRead (addr width : Nat)
  | assertReset
  | deassertReset
deriving DecidableEq, Repr

/-- One move of the interleaving of 20_memory.md R95: a host access, one turn of the host's WAIT loop
(30_encoding.md R124), or the engine's step (10_state.md R67). -/
inductive Turn where
  | host (act : HostAct)
  | wait
  | engine
deriving DecidableEq, Repr

/-- Buffer memory: the bytes written since power-on, addresses strictly rising. An address it does not list holds
no value (20_memory.md R91; log 2). -/
abbrev Memory := List Host.Cell

/-- Which components of a complex register have been written since power-on (70_reset_and_hazards.md R282). -/
structure CplxMark where
  re : Bool
  im : Bool
deriving DecidableEq, Repr

/-- The whole state of the block (INVENTORY.md, State). -/
structure State where
  /-- STATUS (R47 to R52). -/
  status : Status
  /-- CTRL.IE (R53). -/
  ie : Bool
  /-- LASTCMD, the last command word accepted (R54). -/
  lastCmd : Word32
  /-- SIZE (R55). -/
  size : Word32
  /-- IN_BASE (R56). -/
  inBase : Word32
  /-- OUT_BASE (R57). -/
  outBase : Word32
  /-- TBL_BASE (R58). -/
  tblBase : Word32
  /-- TBL_LEN (R59). -/
  tblLen : Word32
  /-- RES_BASE (R60). -/
  resBase : Word32
  /-- POOL_BASE bits 31:4; bits 3:0 are hard-wired to 0 (R61). -/
  poolBase : BitVec 28
  /-- POOL_LIMIT bits 31:4 (R61). -/
  poolLimit : BitVec 28
  /-- ALLOC_PTR bits 31:4 (R62). -/
  allocPtr : BitVec 28
  /-- XR0 to XR7 (R42). -/
  xr : Vector Word64 8
  /-- CR0 to CR7 (R41). -/
  cr : Vector Cplx 8
  /-- Which XR registers have been written since power-on (R282; log 1). -/
  xrWritten : Vector Bool 8
  /-- Which CR components have been written since power-on (R282; log 1). -/
  crWritten : Vector CplxMark 8
  /-- BMEM (20_memory.md R80). -/
  mem : Memory
  /-- BMEM_BYTES / 16 - 1: every value is a legal BMEM_BYTES of 00_scope.md R8, and no step changes it (log 3). -/
  bmemBlocks : Fin (2 ^ 27)
  /-- The reset input (70_reset_and_hazards.md R280). -/
  resetAsserted : Bool
  /-- The hazard taint: the bytes that racing host writes hit while the pending command runs (10_state.md R68;
  70_reset_and_hazards.md R289). -/
  raced : List Nat
  /-- The model's own: how many free values have been drawn (log 5). -/
  draws : Nat
  /-- The model's own: the moves to come, first one next; when none is left the engine moves (log 6). -/
  script : List Turn
  /-- The model's own: the value the host's latest read returned (log 17). -/
  readData : Word64
deriving DecidableEq, Repr

/-- Why a step stops with a fault. -/
inductive Fault where
  /-- A BMEM byte never written since power-on is read, by LDC, by FFT (input or table) or by a host read
  (20_memory.md R91; 70_reset_and_hazards.md R282). Safe: the spec itself makes it a fault. -/
  | unwrittenByte (addr : Nat)
deriving DecidableEq, Repr

/-- Why a step is refused. -/
inductive Refusal where
  /-- The command has no meaning in this model. Raised by `exec` only, by name; no arm raises it now. Safe. -/
  | notModelled (mnemonic : String)
deriving DecidableEq, Repr

/-- STATUS after reset (70_reset_and_hazards.md R281). -/
def Status.reset : Status := ⟨false, false, .none, false, false⟩

/-- The machine right after power-on and reset (70_reset_and_hazards.md R281, R282): every control register 0,
nothing written. XR and CR hold the value of log 1, BMEM_BYTES is that of log 3, and the script is empty (log 6). -/
def State.reset : State where
  status := Status.reset
  ie := false
  lastCmd := 0
  size := 0
  inBase := 0
  outBase := 0
  tblBase := 0
  tblLen := 0
  resBase := 0
  poolBase := 0
  poolLimit := 0
  allocPtr := 0
  xr := Vector.replicate 8 Config.resetRegister
  cr := Vector.replicate 8 ⟨Config.resetRegister, Config.resetRegister⟩
  xrWritten := Vector.replicate 8 false
  crWritten := Vector.replicate 8 ⟨false, false⟩
  mem := []
  bmemBlocks := Config.resetBmemBlocks
  resetAsserted := false
  raced := []
  draws := 0
  script := []
  readData := 0

end Sys2Proof.Machine
end

