-- ==== Sys2Proof/Machine/Ops.lean ====
section
/-!
DEFINITION. The operations every command and every host access share: buffer memory, registers, completing a
command and raising an error code, free values, and the pool allocator.
-/

namespace Sys2Proof.Machine

/-! ### Buffer memory (20_memory.md R80 to R91) -/

/-- The canonical form: addresses strictly rising. An unlisted byte holds no value, so no entry can equal it. -/
abbrev Memory.wf (m : Memory) : Prop := m.Pairwise (fun p q => p.1 < q.1)

/-- The byte at an address, or none where nothing has been written since power-on (20_memory.md R91). -/
def Memory.byte (m : Memory) (a : Nat) : Option Byte := m.lookup a

/-- Write one byte, keeping the canonical form. -/
def Memory.setByte : Memory → Nat → Byte → Memory
  | [], a, b => [(a, b)]
  | (x, v) :: m, a, b =>
    if a < x then (a, b) :: (x, v) :: m
    else if a = x then (a, b) :: m
    else (x, v) :: Memory.setByte m a b

/-- The bytes at `a`, `a + 1`, ... (`n` of them); a byte never written is a fault (20_memory.md R91). -/
def readBytes (m : Memory) (a : Nat) : Nat → Except Fault (List Byte)
  | 0 => .ok []
  | n + 1 =>
    match m.byte a with
    | none => .error (.unwrittenByte a)
    | some b => (readBytes m (a + 1) n).map (b :: ·)

/-- Bytes composed little-endian: the first is the least significant (00_scope.md R12; 20_memory.md R82). -/
def leValue : List Byte → Nat
  | [] => 0
  | b :: bs => b.toNat + 256 * leValue bs

/-- `MemRead(addr, n)` of 00_scope.md R12. -/
def memRead (m : Memory) (a n : Nat) : Except Fault Nat := (readBytes m a n).map leValue

/-- `MemWrite(addr, n, v)` of 00_scope.md R12: the `n` bytes of `v`, least significant first. -/
def memWrite (m : Memory) (a : Nat) : Nat → Nat → Memory
  | 0, _ => m
  | n + 1, v => memWrite (m.setByte a (BitVec.ofNat 8 v)) (a + 1) n (v / 256)

/-- `ReadC(a)` of 00_scope.md R12: real part at `a`, imaginary part at `a + 8` (20_memory.md R84). -/
def readC (m : Memory) (a : Nat) : Except Fault Cplx :=
  match memRead m a 8 with
  | .error f => .error f
  | .ok re =>
    match memRead m (a + 8) 8 with
    | .error f => .error f
    | .ok im => .ok ⟨BitVec.ofNat 64 re, BitVec.ofNat 64 im⟩

/-- `WriteC(a, z)` of 00_scope.md R12. -/
def writeC (m : Memory) (a : Nat) (z : Cplx) : Memory :=
  memWrite (memWrite m a 8 z.re.toNat) (a + 8) 8 z.im.toNat

/-- Replace the memory. -/
def State.setMem (s : State) (m : Memory) : State := { s with mem := m }

/-! ### Registers (10_state.md R41, R42) -/

/-- `x[i]` (00_scope.md R11). -/
def State.x (s : State) (i : RegIdx) : Word64 := s.xr[i.val]

/-- `c[i]` (00_scope.md R11). -/
def State.c (s : State) (i : RegIdx) : Cplx := s.cr[i.val]

/-- `x[i] <- v`; the register is written from now on (00_scope.md R11; 70_reset_and_hazards.md R282). -/
def State.setX (s : State) (i : RegIdx) (v : Word64) : State :=
  { s with xr := s.xr.set i.val v, xrWritten := s.xrWritten.set i.val true }

/-- `c[i] <- z`, both components (00_scope.md R11). -/
def State.setC (s : State) (i : RegIdx) (z : Cplx) : State :=
  { s with cr := s.cr.set i.val z, crWritten := s.crWritten.set i.val ⟨true, true⟩ }

/-- Write the real component only (the host's CRn.RE window, 10_state.md R63). -/
def State.setCRe (s : State) (i : RegIdx) (v : F64) : State :=
  { s with
    cr := s.cr.set i.val { s.c i with re := v }
    crWritten := s.crWritten.set i.val { s.crWritten[i.val] with re := true } }

/-- Write the imaginary component only (the host's CRn.IM window, 10_state.md R63). -/
def State.setCIm (s : State) (i : RegIdx) (v : F64) : State :=
  { s with
    cr := s.cr.set i.val { s.c i with im := v }
    crWritten := s.crWritten.set i.val { s.crWritten[i.val] with im := true } }

/-! ### Completing a command, raising an error (60_exceptions.md R259, R260) -/

/-- Completion: `ERR <- code; BUSY <- 0; DONE <- 1`, nothing else (60_exceptions.md R259). -/
def complete (s : State) (code : ErrCode) : State :=
  { s with status := { s.status with err := code, busy := false, done := true } }

/-- `raise E` (00_scope.md R13): the command ends with E's code and no other effect. Every error of the block is
taken here; there is no handler to enter and nothing to return from (60_exceptions.md R260, R261). -/
def raise (s : State) (code : ErrCode) : State := complete s code

/-- How a command can leave its normal course: by raising a result code, or by the fault of an unwritten byte. -/
inductive Stop where
  | raise (code : ErrCode)
  | fault (f : Fault)
deriving DecidableEq, Repr

/-- The engine step's outcome for a command issued in `s`: completed with code 0 in the state it produced, or with
the code it raised and `s` otherwise unchanged (R13, R259), or a fault. -/
def finish (s : State) : Except Stop State → Host.Outcome State Fault Refusal
  | .ok t => .next (complete t .none)
  | .error (.raise code) => .next (raise s code)
  | .error (.fault f) => .fault f

/-- Raise `code` unless the check holds. -/
def require (check : Bool) (code : ErrCode) : Except Stop Unit :=
  if check then .ok () else .error (.raise code)

/-- A memory fault as a command's stop. -/
def orFault {α : Type} : Except Fault α → Except Stop α
  | .ok a => .ok a
  | .error f => .error (.fault f)

/-! ### Free values (00_scope.md R14; log 5) -/

/-- The bits the next draw gives. -/
def State.freeBits (s : State) (k : Nat) : Word64 := Config.freeBits (s.draws + k)

/-- Count `k` draws as taken. -/
def State.drawn (s : State) (k : Nat) : State := { s with draws := s.draws + k }

/-- Draw one byte into each listed address. -/
def havocBytes (s : State) : List Nat → State
  | [] => s
  | a :: as => havocBytes ((s.setMem (s.mem.setByte a ((s.freeBits 0).truncate 8))).drawn 1) as

/-- Draw a complex register. -/
def havocC (s : State) (i : RegIdx) : State := (s.setC i ⟨s.freeBits 0, s.freeBits 1⟩).drawn 2

/-- Draw an integer register. -/
def havocX (s : State) (i : RegIdx) : State := (s.setX i (s.freeBits 0)).drawn 1

/-! ### Addresses and the pool (20_memory.md R87, R88, R92) -/

/-- BMEM_BYTES (00_scope.md R8). -/
def State.bmemBytes (s : State) : Nat := 16 * (s.bmemBlocks.val + 1)

/-- The byte address a POOL_BASE, POOL_LIMIT or ALLOC_PTR register holds: its bits 3:0 are 0 (10_state.md R61). -/
def poolAddr (r : BitVec 28) : Nat := 16 * r.toNat

/-- Alignment and bounds of a range the engine would access, on unbounded integers (20_memory.md R87, R88). -/
def rangeOk (s : State) (align base len : Nat) : Bool := base % align == 0 && decide (base + len ≤ s.bmemBytes)

/-- `pow2(n)` of 00_scope.md R26. -/
def isPow2 (n : Nat) : Bool := n != 0 && 2 ^ Nat.log2 n == n

/-- `roundup16(n)` of 00_scope.md R27. -/
def roundup16 (n : Nat) : Nat := (n + 15) / 16 * 16

/-- `overlap(a, la, b, lb)` of 00_scope.md R27. -/
def overlap (a la b lb : Nat) : Bool := decide (a < b + lb) && decide (b < a + la)

/-- `alloc(size)` of 20_memory.md R92: the block's base and end, or none for FAIL. It changes nothing. -/
def alloc (s : State) (size : Nat) : Option (Nat × Nat) :=
  let base := poolAddr s.allocPtr
  let stop := base + roundup16 size
  if base < poolAddr s.poolBase ∨ poolAddr s.poolLimit < stop ∨ s.bmemBytes < stop then none
  else some (base, stop)

end Sys2Proof.Machine
end

