-- ==== Sys2Proof/Machine/Operands.lean ====
section
/-!
DEFINITION. The operand forms of the command set (30_encoding.md R114, R115; 10_state.md R43; 43_transfer.md R242):
register operands read as patterns, register-indirect element addresses, and the place a buffer command writes to.
-/

namespace Sys2Proof.Machine

/-- An XR operand as a binary64 pattern, `f64(x[i])` (10_state.md R43). -/
def opF64 (s : State) (i : RegIdx) : F64 := s.x i

/-- An XR operand as an unsigned 64-bit integer (10_state.md R43). -/
def opNat (s : State) (i : RegIdx) : Nat := (s.x i).toNat

/-- The effective address of LDC and STC: register-indirect, no offset, checked (43_transfer.md R240, R241). -/
def elementAddr (s : State) (i : RegIdx) : Except Stop Nat :=
  if rangeOk s 8 (opNat s i) 16 then .ok (opNat s i) else .error (.raise .addressError)

/-- Where a buffer command's result goes: its base and, for an engine-allocated block, the end that ALLOC_PTR takes
when the command succeeds (20_memory.md R92). -/
structure Place where
  base : Nat
  newPtr : Option Nat
deriving DecidableEq, Repr

/-- The output place of FFT and BUILDTBL (R194, R214): with O = 1 the caller's buffer, checked; with O = 0 a block
of the pool. -/
def outputPlace (s : State) (o : Bool) (align callerBase len : Nat) : Except Stop Place :=
  if o then
    if rangeOk s align callerBase len then .ok ⟨callerBase, none⟩ else .error (.raise .addressError)
  else
    match alloc s len with
    | none => .error (.raise .allocationFailure)
    | some (base, stop) => .ok ⟨base, some stop⟩

/-- The registers that tell the host where the result is: RES_BASE, STATUS.ALLOC, and ALLOC_PTR for an allocated
block (10_state.md R51, R60, R62; last lines of R194 and R214). -/
def commitPlace (s : State) (p : Place) : State :=
  { s with
    resBase := BitVec.ofNat 32 p.base
    allocPtr := match p.newPtr with
      | none => s.allocPtr
      | some stop => BitVec.ofNat 28 (stop / 16)
    status := { s.status with alloc := p.newPtr.isSome } }

end Sys2Proof.Machine
end

