-- ==== Sys2Proof/Machine/Bitrev.lean ====
section
/-!
DEFINITION. The bit-reversal permutation unit: `log2_floor` and `bit_reverse` (41_bitrev.md R190, R191) and the
commands LOG2F, BREV and BUILDTBL (R192 to R194).
-/

namespace Sys2Proof.Machine

/-- The loop of R190: how many right shifts bring `n` to zero. -/
def shiftCount : Nat → Nat → Nat
  | 0, _ => 0
  | fuel + 1, n => if n = 0 then 0 else shiftCount fuel (n >>> 1) + 1

/-- `log2_floor(n)` for a u64 (R190): -1 for 0. The loop ends within 64 iterations. -/
def log2Floor (n : Nat) : Int := (shiftCount 64 n : Int) - 1

/-- `log2_floor` of a power of two, as the number of bits to reverse or of stages to run. -/
def log2Bits (n : Nat) : Nat := (log2Floor n).toNat

/-- `bit_reverse(size, n)` (R191): bit `i` of `n` goes to bit `L - 1 - i`. -/
def bitReverse (size n : Nat) : Nat :=
  (List.range (log2Bits size)).foldl (fun r i => r ||| (n.testBit i).toNat <<< (log2Bits size - 1 - i)) 0

/-- LOG2F (R192): the result modulo 2^64, so -1 is all ones. -/
def execLog2f (xd xs1 : RegIdx) (s : State) : Host.Outcome State Fault Refusal :=
  finish s (.ok (s.setX xd (BitVec.ofInt 64 (log2Floor (opNat s xs1)))))

/-- BREV (R193): INVALID_SIZE unless the size is a power of two. -/
def execBrev (xd xs1 xs2 : RegIdx) (s : State) : Host.Outcome State Fault Refusal :=
  finish s
    (if isPow2 (opNat s xs1) then .ok (s.setX xd (BitVec.ofNat 64 (bitReverse (opNat s xs1) (opNat s xs2))))
     else .error (.raise .invalidSize))

/-- Write u32 entries at `b`, `b + 4`, ... (20_memory.md R85). -/
def writeEntries (m : Memory) (b : Nat) : List Nat → Memory
  | [] => m
  | e :: es => writeEntries (memWrite m b 4 e) (b + 4) es

/-- The table of R194: slot `k` holds `bit_reverse(n, k)`. -/
def tableOf (n : Nat) : List Nat := (List.range n).map (bitReverse n)

/-- What BUILDTBL does once its destination is settled (last lines of R194): the entries, TBL_LEN, RES_BASE, ALLOC,
and for an allocated table TBL_BASE and ALLOC_PTR. -/
def commitTable (s : State) (n : Nat) (p : Place) : State :=
  let t := commitPlace (s.setMem (writeEntries s.mem p.base (tableOf n))) p
  { t with
    tblLen := BitVec.ofNat 32 n
    tblBase := if p.newPtr.isSome then BitVec.ofNat 32 p.base else s.tblBase }

/-- The body of BUILDTBL (R194): size, then the destination, then the writes. -/
def buildTable (o : Bool) (s : State) : Except Stop State :=
  let n := s.size.toNat
  match require (isPow2 n) .invalidSize with
  | .error e => .error e
  | .ok () =>
    match outputPlace s o 4 s.tblBase.toNat (4 * n) with
    | .error e => .error e
    | .ok p => .ok (commitTable s n p)

/-- BUILDTBL and BUILDTBL.O (R194). -/
def execBuildtbl (o : Bool) (s : State) : Host.Outcome State Fault Refusal := finish s (buildTable o s)

end Sys2Proof.Machine
end

