-- ==== Sys2Proof/Machine/Complex.lean ====
section
/-!
DEFINITION. The complex arithmetic unit: the functions of 40_complex.md R141 to R151, and the fifteen commands
R152 to R166. Every operand is read before the destination is written (R140); no command here raises anything.
-/

namespace Sys2Proof.Machine

/-- R141. -/
def cadd (z w : Cplx) : Cplx := ⟨fadd z.re w.re, fadd z.im w.im⟩

/-- R142. -/
def csub (z w : Cplx) : Cplx := ⟨fsub z.re w.re, fsub z.im w.im⟩

/-- R143: four rounded products and two rounded sums, none fused. -/
def cmul (z w : Cplx) : Cplx :=
  ⟨fsub (fmul z.re w.re) (fmul z.im w.im), fadd (fmul z.re w.im) (fmul z.im w.re)⟩

/-- `|z|^2` as R144 and R145 form it, two rounded squares and a rounded sum. -/
def cnorm2 (z : Cplx) : F64 := fadd (fmul z.re z.re) (fmul z.im z.im)

/-- R144: `w / z`. A zero divisor is not guarded (60_exceptions.md R257). -/
def cdiv (w z : Cplx) : Cplx :=
  let den := cnorm2 z
  ⟨fdiv (fadd (fmul w.re z.re) (fmul w.im z.im)) den, fdiv (fsub (fmul w.im z.re) (fmul w.re z.im)) den⟩

/-- R145: no scaling. -/
def cmod (z : Cplx) : F64 := fsqrt (cnorm2 z)

/-- R146: the two-quadrant arctangent. -/
def carg (z : Cplx) : F64 := fatan (fdiv z.im z.re)

/-- R147: the real scalar multiplies each component. -/
def cexp (z : Cplx) : Cplx := ⟨fmul (fexp z.re) (fcos z.im), fmul (fexp z.re) (fsin z.im)⟩

/-- R148: flip the sign bit of the imaginary part. -/
def cconj (z : Cplx) : Cplx := ⟨z.re, fneg z.im⟩

/-- ONE, `(1.0, +0.0)` (00_scope.md R24). -/
def cone : Cplx := ⟨fone, 0⟩

/-- R149. -/
def crecip (z : Cplx) : Cplx := cdiv cone z

/-- R150: IEEE value equality of both components. -/
def ceq (z w : Cplx) : Bool := feq z.re w.re && feq z.im w.im

/-- R151: equality after rounding each component to an integer. -/
def ceqr (z w : Cplx) : Bool := feq (fround z.re) (fround w.re) && feq (fround z.im) (fround w.im)

/-- A boolean result in an XR register, 1 or 0 (10_state.md R43). -/
def boolWord (b : Bool) : Word64 := if b then 1 else 0

/-- A command whose only effect is a complex result in `c[rd]` (R140). -/
def writesC (s : State) (rd : RegIdx) (z : Cplx) : Host.Outcome State Fault Refusal := finish s (.ok (s.setC rd z))

/-- A command whose only effect is an integer-register result in `x[rd]` (R140). -/
def writesX (s : State) (rd : RegIdx) (v : Word64) : Host.Outcome State Fault Refusal := finish s (.ok (s.setX rd v))

/-- CMK (R152): the two raw patterns. -/
def execCmk (cd xs1 xs2 : RegIdx) (s : State) : Host.Outcome State Fault Refusal :=
  writesC s cd ⟨opF64 s xs1, opF64 s xs2⟩

/-- CMKRE (R153): the imaginary part is +0.0. -/
def execCmkre (cd xs1 : RegIdx) (s : State) : Host.Outcome State Fault Refusal := writesC s cd ⟨opF64 s xs1, 0⟩

/-- CMKIM (R154): the real part is +0.0. -/
def execCmkim (cd xs1 : RegIdx) (s : State) : Host.Outcome State Fault Refusal := writesC s cd ⟨0, opF64 s xs1⟩

/-- CEQ (R155). -/
def execCeq (xd cs1 cs2 : RegIdx) (s : State) : Host.Outcome State Fault Refusal :=
  writesX s xd (boolWord (ceq (s.c cs1) (s.c cs2)))

/-- CEQR (R156). -/
def execCeqr (xd cs1 cs2 : RegIdx) (s : State) : Host.Outcome State Fault Refusal :=
  writesX s xd (boolWord (ceqr (s.c cs1) (s.c cs2)))

/-- CADD (R157). -/
def execCadd (cd cs1 cs2 : RegIdx) (s : State) : Host.Outcome State Fault Refusal :=
  writesC s cd (cadd (s.c cs1) (s.c cs2))

/-- CSUB (R158): cs1 minus cs2. -/
def execCsub (cd cs1 cs2 : RegIdx) (s : State) : Host.Outcome State Fault Refusal :=
  writesC s cd (csub (s.c cs1) (s.c cs2))

/-- CMUL (R159). -/
def execCmul (cd cs1 cs2 : RegIdx) (s : State) : Host.Outcome State Fault Refusal :=
  writesC s cd (cmul (s.c cs1) (s.c cs2))

/-- CDIV (R160): cs1 / cs2; a zero divisor raises nothing. -/
def execCdiv (cd cs1 cs2 : RegIdx) (s : State) : Host.Outcome State Fault Refusal :=
  writesC s cd (cdiv (s.c cs1) (s.c cs2))

/-- CMOD (R161). -/
def execCmod (xd cs1 : RegIdx) (s : State) : Host.Outcome State Fault Refusal := writesX s xd (cmod (s.c cs1))

/-- CARG (R162). -/
def execCarg (xd cs1 : RegIdx) (s : State) : Host.Outcome State Fault Refusal := writesX s xd (carg (s.c cs1))

/-- CEXP (R163). -/
def execCexp (cd cs1 : RegIdx) (s : State) : Host.Outcome State Fault Refusal := writesC s cd (cexp (s.c cs1))

/-- CCONJ (R164). -/
def execCconj (cd cs1 : RegIdx) (s : State) : Host.Outcome State Fault Refusal := writesC s cd (cconj (s.c cs1))

/-- CRECIP (R165). -/
def execCrecip (cd cs1 : RegIdx) (s : State) : Host.Outcome State Fault Refusal := writesC s cd (crecip (s.c cs1))

/-- CRAND (R166): two independent draws from U, real part first (00_scope.md R14, R25; log 5). -/
def execCrand (cd : RegIdx) (s : State) : Host.Outcome State Fault Refusal :=
  writesC (s.drawn 2) cd ⟨unitDraw (s.freeBits 0), unitDraw (s.freeBits 1)⟩

end Sys2Proof.Machine
end

