-- ==== Sys2Proof/Machine/Fft.lean ====
section
/-!
DEFINITION. The FFT butterfly engine: BFLY (42_fft.md R210), the stage twiddle factor (R211), the two phases of the
transform (R212, R213) and FFT (R214).
-/

namespace Sys2Proof.Machine

/-- BFLY (R210): all three operands are read first. RD = RS1 is no command (30_encoding.md R117, R120): the decoder
never gives it, and it raises ILLEGAL_COMMAND (log 16). -/
def execBfly (cd cs1 cs2 : RegIdx) (s : State) : Host.Outcome State Fault Refusal :=
  let u := s.c cd
  let t := cmul (s.c cs2) (s.c cs1)
  finish s (if cd = cs1 then .error (.raise .illegalCommand) else .ok ((s.setC cd (cadd u t)).setC cs1 (csub u t)))

/-- `theta(s)` of R211. -/
def theta (stage : Nat) : F64 := fdiv (fneg (fmul (f64OfNat 2) pi64)) (f64OfNat (2 ^ stage))

/-- `wm(s)` of R211, the stage twiddle factor. -/
def stageTwiddle (stage : Nat) : Cplx := cexp ⟨0, theta stage⟩

/-- Phase 1 (R212): `out[e[k]] <- in[k]` for k = 0, 1, ... Every slot is written when `perm` is a permutation, so
the value the slots start with is never seen (log 21). -/
def permute (perm : List Nat) (input : List Cplx) : List Cplx :=
  (perm.zip input).foldl (fun out p => out.set p.1 p.2) (List.replicate input.length ⟨0, 0⟩)

/-- One turn of the j loop of R213: the butterfly on slots `k + j` and `k + j + h`, then the running twiddle. -/
def butterflyAt (wm : Cplx) (h k : Nat) (acc : Cplx × List Cplx) (j : Nat) : Cplx × List Cplx :=
  let w := acc.1
  let out := acc.2
  let t := cmul w (out.getD (k + j + h) default)
  let u := out.getD (k + j) default
  (cmul w wm, (out.set (k + j) (cadd u t)).set (k + j + h) (csub u t))

/-- The j loop of one block of R213; the running twiddle starts at ONE (90_conflicts.md C9). -/
def butterflyBlock (wm : Cplx) (h : Nat) (out : List Cplx) (k : Nat) : List Cplx :=
  ((List.range h).foldl (butterflyAt wm h k) (cone, out)).2

/-- One stage of R213: blocks at k = 0, m, 2m, ..., N - m, where m = 2h. -/
def butterflyStage (out : List Cplx) (stage : Nat) : List Cplx :=
  let m := 2 ^ stage
  ((List.range (out.length / m)).map (· * m)).foldl (butterflyBlock (stageTwiddle stage) (m / 2)) out

/-- Phase 2 (R213): stages 1 to log2 N. -/
def butterflyStages (out : List Cplx) : List Cplx :=
  ((List.range (log2Bits out.length)).map (· + 1)).foldl butterflyStage out

/-- The transform of R212 and R213 with the permutation `perm`. -/
def transform (perm : List Nat) (input : List Cplx) : List Cplx := butterflyStages (permute perm input)

/-- `n` table entries from `b` on (20_memory.md R85). -/
def readEntries (m : Memory) (b : Nat) : Nat → Except Fault (List Nat)
  | 0 => .ok []
  | n + 1 =>
    match memRead m b 4 with
    | .error f => .error f
    | .ok e => (readEntries m (b + 4) n).map (e :: ·)

/-- `n` complex elements from `b` on (20_memory.md R86). -/
def readElements (m : Memory) (b : Nat) : Nat → Except Fault (List Cplx)
  | 0 => .ok []
  | n + 1 =>
    match readC m b with
    | .error f => .error f
    | .ok z => (readElements m (b + 16) n).map (z :: ·)

/-- Write complex elements from `b` on (20_memory.md R86). -/
def writeElements (m : Memory) (b : Nat) : List Cplx → Memory
  | [] => m
  | z :: zs => writeElements (writeC m b z) (b + 16) zs

/-- The check of 60_exceptions.md R256: `e` is a permutation of [0, n). -/
def isPermutation (e : List Nat) (n : Nat) : Bool := e.all (fun v => decide (v < n)) && decide e.Nodup

/-- The checks of R214 before anything is read, in the order of 60_exceptions.md R258; the answer is the output
place. -/
def fftPlace (o t : Bool) (s : State) : Except Stop Place :=
  let n := s.size.toNat
  let ib := s.inBase.toNat
  let tb := s.tblBase.toNat
  if !isPow2 n then .error (.raise .invalidSize)
  else if t && s.tblLen != s.size then .error (.raise .invalidSize)
  else if !rangeOk s 8 ib (16 * n) then .error (.raise .addressError)
  else if t && !rangeOk s 4 tb (4 * n) then .error (.raise .addressError)
  else
    match outputPlace s o 8 s.outBase.toNat (16 * n) with
    | .error e => .error e
    | .ok p =>
      if overlap p.base (16 * n) ib (16 * n) then .error (.raise .overlap)
      else if t && overlap p.base (16 * n) tb (4 * n) then .error (.raise .overlap)
      else .ok p

/-- The permutation FFT uses: the table when T = 1, read and checked, else the reversal on the fly (R212, R214). -/
def fftPermutation (t : Bool) (s : State) : Except Stop (List Nat) :=
  let n := s.size.toNat
  if t then
    match orFault (readEntries s.mem s.tblBase.toNat n) with
    | .error e => .error e
    | .ok e => if isPermutation e n then .ok e else .error (.raise .tableInvalid)
  else .ok (tableOf n)

/-- The body of FFT (R214): the checks, the table, the input, the transform, the output, and the result registers. -/
def fftCommand (o t : Bool) (s : State) : Except Stop State :=
  match fftPlace o t s with
  | .error e => .error e
  | .ok p =>
    match fftPermutation t s with
    | .error e => .error e
    | .ok perm =>
      match orFault (readElements s.mem s.inBase.toNat s.size.toNat) with
      | .error e => .error e
      | .ok input => .ok (commitPlace (s.setMem (writeElements s.mem p.base (transform perm input))) p)

/-- FFT, FFT.T, FFT.O and FFT.TO (R214). -/
def execFft (o t : Bool) (s : State) : Host.Outcome State Fault Refusal := finish s (fftCommand o t s)

end Sys2Proof.Machine
end

