-- ==== Sys2Proof/Machine/Transfer.lean ====
section
/-!
DEFINITION. The transfer commands LDC and STC (43_transfer.md R240, R241).
-/

namespace Sys2Proof.Machine

/-- LDC (R240): the element moves bit for bit. -/
def execLdc (cd xs1 : RegIdx) (s : State) : Host.Outcome State Fault Refusal :=
  finish s
    (match elementAddr s xs1 with
     | .error e => .error e
     | .ok ea =>
       match readC s.mem ea with
       | .error f => .error (.fault f)
       | .ok z => .ok (s.setC cd z))

/-- STC (R241): 16 bytes, real part first. -/
def execStc (cs2 xs1 : RegIdx) (s : State) : Host.Outcome State Fault Refusal :=
  finish s
    (match elementAddr s xs1 with
     | .error e => .error e
     | .ok ea => .ok (s.setMem (writeC s.mem ea (s.c cs2))))

end Sys2Proof.Machine
end

