-- ==== Sys2Proof/Machine/Dispatch.lean ====
section
/-!
DEFINITION. One arm per command (30_encoding.md R116): the engine step of that command, its effects and its
completion together (10_state.md R67; 60_exceptions.md R259).
-/

namespace Sys2Proof.Machine

def exec (i : Instr) (s : State) : Host.Outcome State Fault Refusal :=
  match i with
  | .cmk cd xs1 xs2 => Sys2Proof.Machine.execCmk cd xs1 xs2 s
  | .cmkre cd xs1 => Sys2Proof.Machine.execCmkre cd xs1 s
  | .cmkim cd xs1 => Sys2Proof.Machine.execCmkim cd xs1 s
  | .ceq xd cs1 cs2 => Sys2Proof.Machine.execCeq xd cs1 cs2 s
  | .ceqr xd cs1 cs2 => Sys2Proof.Machine.execCeqr xd cs1 cs2 s
  | .cadd cd cs1 cs2 => Sys2Proof.Machine.execCadd cd cs1 cs2 s
  | .csub cd cs1 cs2 => Sys2Proof.Machine.execCsub cd cs1 cs2 s
  | .cmul cd cs1 cs2 => Sys2Proof.Machine.execCmul cd cs1 cs2 s
  | .cdiv cd cs1 cs2 => Sys2Proof.Machine.execCdiv cd cs1 cs2 s
  | .cmod xd cs1 => Sys2Proof.Machine.execCmod xd cs1 s
  | .carg xd cs1 => Sys2Proof.Machine.execCarg xd cs1 s
  | .cexp cd cs1 => Sys2Proof.Machine.execCexp cd cs1 s
  | .cconj cd cs1 => Sys2Proof.Machine.execCconj cd cs1 s
  | .crecip cd cs1 => Sys2Proof.Machine.execCrecip cd cs1 s
  | .crand cd => Sys2Proof.Machine.execCrand cd s
  | .log2f xd xs1 => Sys2Proof.Machine.execLog2f xd xs1 s
  | .brev xd xs1 xs2 => Sys2Proof.Machine.execBrev xd xs1 xs2 s
  | .buildtbl o => Sys2Proof.Machine.execBuildtbl o s
  | .fft o t => Sys2Proof.Machine.execFft o t s
  | .bfly cd cs1 cs2 => Sys2Proof.Machine.execBfly cd cs1 cs2 s
  | .ldc cd xs1 => Sys2Proof.Machine.execLdc cd xs1 s
  | .stc cs2 xs1 => Sys2Proof.Machine.execStc cs2 xs1 s

end Sys2Proof.Machine
end

