-- ==== Sys2Proof/Machine/Flags.lean ====
section
/-!
DEFINITION. The flags of the block are the STATUS fields (10_state.md R70): the STATUS word, its write-one-to-clear
bits, and the interrupt output. How commands change STATUS is `complete` (Ops) and `commitPlace` (Operands).
-/

namespace Sys2Proof.Machine

/-- The number of a result code (60_exceptions.md R250). -/
def ErrCode.code : ErrCode → Nat
  | .none => 0
  | .invalidSize => 1
  | .allocationFailure => 2
  | .illegalCommand => 3
  | .addressError => 4
  | .overlap => 5
  | .tableInvalid => 6

/-- The result code of a number; used to draw a code, since codes above 6 are never produced (R250, R289). -/
def drawnCode (n : Nat) : ErrCode :=
  match n % 7 with
  | 1 => .invalidSize
  | 2 => .allocationFailure
  | 3 => .illegalCommand
  | 4 => .addressError
  | 5 => .overlap
  | 6 => .tableInvalid
  | _ => .none

/-- The 64-bit read value of STATUS (10_state.md R47): BUSY at 0, DONE at 1, ERR at 7:4, ALLOC at 9, HZ at 10. -/
def Status.word (st : Status) : Word64 :=
  BitVec.ofNat 64 (st.busy.toNat + 2 * st.done.toNat + 16 * st.err.code + 512 * st.alloc.toNat + 1024 * st.hz.toNat)

/-- A host write to STATUS: a 1 in bit 1 clears DONE, a 1 in bit 10 clears HZ, all else is ignored (R47, R49, R52). -/
def Status.hostWrite (st : Status) (v : Word64) : Status :=
  { st with done := st.done && !v.getLsbD 1, hz := st.hz && !v.getLsbD 10 }

/-- STATUS.HZ <- 1: the host broke a busy hazard rule (10_state.md R52). -/
def State.setHz (s : State) : State := { s with status := { s.status with hz := true } }

/-- The interrupt output, `irq = STATUS.DONE and CTRL.IE` (10_state.md R69; 60_exceptions.md R262). -/
def State.irq (s : State) : Bool := s.status.done && s.ie

end Sys2Proof.Machine
end

