-- ==== Sys2Proof/Machine/Race.lean ====
section
/-!
DEFINITION. The footprint of a command (70_reset_and_hazards.md R283, R289), what a raced command leaves behind
(R289), and the reset input (R280 to R283).
-/

namespace Sys2Proof.Machine

/-- A command's footprint: the BMEM ranges (base, length) it reads and writes (F_R and F_W of R289), and its
destination registers (R283). -/
structure Footprint where
  reads : List (Nat × Nat)
  writes : List (Nat × Nat)
  cDests : List RegIdx
  xDests : List RegIdx
deriving DecidableEq, Repr

/-- The footprint of a command that only writes one complex register. -/
def onlyC (i : RegIdx) : Footprint := ⟨[], [], [i], []⟩

/-- The footprint of a command that only writes one integer register. -/
def onlyX (i : RegIdx) : Footprint := ⟨[], [], [], [i]⟩

/-- The output range of a buffer command (R283): the caller's buffer, or the block the pool would give. -/
def outputRange (s : State) (o : Bool) (callerBase len : Nat) : Nat × Nat :=
  if o then (callerBase, len) else (poolAddr s.allocPtr, roundup16 len)

/-- The table of R289, with the destination registers of R283. The register values are those at issue: while BUSY
the host cannot change them (R287; log 24). -/
def footprint (i : Instr) (s : State) : Footprint :=
  match i with
  | .cmk cd _ _ => onlyC cd
  | .cmkre cd _ => onlyC cd
  | .cmkim cd _ => onlyC cd
  | .ceq xd _ _ => onlyX xd
  | .ceqr xd _ _ => onlyX xd
  | .cadd cd _ _ => onlyC cd
  | .csub cd _ _ => onlyC cd
  | .cmul cd _ _ => onlyC cd
  | .cdiv cd _ _ => onlyC cd
  | .cmod xd _ => onlyX xd
  | .carg xd _ => onlyX xd
  | .cexp cd _ => onlyC cd
  | .cconj cd _ => onlyC cd
  | .crecip cd _ => onlyC cd
  | .crand cd => onlyC cd
  | .log2f xd _ => onlyX xd
  | .brev xd _ _ => onlyX xd
  | .buildtbl o => ⟨[], [outputRange s o s.tblBase.toNat (4 * s.size.toNat)], [], []⟩
  | .fft o t =>
    ⟨(s.inBase.toNat, 16 * s.size.toNat) :: (if t then [(s.tblBase.toNat, 4 * s.size.toNat)] else []),
      [outputRange s o s.outBase.toNat (16 * s.size.toNat)], [], []⟩
  | .bfly cd cs1 _ => ⟨[], [], [cd, cs1], []⟩
  | .ldc cd xs1 => ⟨[((s.x xs1).toNat, 16)], [], [cd], []⟩
  | .stc _ xs1 => ⟨[], [((s.x xs1).toNat, 16)], [], []⟩

/-- The footprint of the pending command; nothing is pending while BUSY = 0, and an illegal word has none. -/
def pendingFootprint (s : State) : Footprint :=
  if s.status.busy then
    match decode s.lastCmd with
    | .ok i => footprint i s
    | .error _ => ⟨[], [], [], []⟩
  else ⟨[], [], [], []⟩

/-- Whether an address lies in one of the ranges, clipped to BMEM (R289). -/
def inRanges (s : State) (ranges : List (Nat × Nat)) (a : Nat) : Bool :=
  decide (a < s.bmemBytes) && ranges.any (fun r => decide (r.1 ≤ a) && decide (a < r.1 + r.2))

/-- The addresses of a range that lie inside BMEM (R283, R289). -/
def rangeBytes (s : State) (r : Nat × Nat) : List Nat := (List.range (min r.2 (s.bmemBytes - r.1))).map (r.1 + ·)

/-- The registers that only buffer commands write, drawn (R289): RES_BASE for both, ALLOC_PTR with O = 0, and for
BUILDTBL TBL_LEN and, with O = 0, TBL_BASE. -/
def havocResultRegs (i : Instr) (s : State) : State :=
  match i with
  | .fft o _ =>
    { s.drawn 2 with
      resBase := (s.freeBits 0).truncate 32
      allocPtr := if o then s.allocPtr else (s.freeBits 1).truncate 28 }
  | .buildtbl o =>
    { s.drawn 4 with
      resBase := (s.freeBits 0).truncate 32
      allocPtr := if o then s.allocPtr else (s.freeBits 1).truncate 28
      tblLen := (s.freeBits 2).truncate 32
      tblBase := if o then s.tblBase else (s.freeBits 3).truncate 32 }
  | .cmk _ _ _ => s
  | .cmkre _ _ => s
  | .cmkim _ _ => s
  | .ceq _ _ _ => s
  | .ceqr _ _ _ => s
  | .cadd _ _ _ => s
  | .csub _ _ _ => s
  | .cmul _ _ _ => s
  | .cdiv _ _ _ => s
  | .cmod _ _ => s
  | .carg _ _ => s
  | .cexp _ _ => s
  | .cconj _ _ => s
  | .crecip _ _ => s
  | .crand _ => s
  | .log2f _ _ => s
  | .brev _ _ _ => s
  | .bfly _ _ _ => s
  | .ldc _ _ => s
  | .stc _ _ => s

/-- Every register and byte of a footprint's write set, and the bytes racing host writes hit, drawn. -/
def havocWrites (fp : Footprint) (s : State) : State :=
  let s := havocBytes s ((fp.writes.map (rangeBytes s)).flatten ++ s.raced)
  fp.xDests.foldl havocX (fp.cDests.foldl havocC s)

/-- The completion of a command that raced a host write (R289): its write set, the host's bytes, every register the
command writes, ERR and ALLOC are free values. It completes as any other: BUSY <- 0, DONE <- 1 (log 11). -/
def raceOutcome (i : Instr) (s : State) : State :=
  let t := havocResultRegs i (havocWrites (footprint i s) s)
  let t' := complete (t.drawn 2) (drawnCode (t.freeBits 0).toNat)
  { t' with raced := [], status := { t'.status with alloc := (t.freeBits 1).getLsbD 0 } }

/-- The control registers at the values of R281; XR, CR, BMEM, the parameters and the model's own fields stay. -/
def resetControl (s : State) : State :=
  { s with
    status := Status.reset
    ie := false
    lastCmd := 0
    size := 0
    inBase := 0
    outBase := 0
    tblBase := 0
    tblLen := 0
    resBase := 0
    poolBase := 0
    poolLimit := 0
    allocPtr := 0
    raced := [] }

/-- The reset input goes to asserted (R280 to R283). A pending command is discarded and its write set drawn; the
control registers take their reset values at once, which nothing can observe before deassertion (log 9, log 10). -/
def assertReset (s : State) : State :=
  { resetControl (havocWrites (pendingFootprint s) s) with resetAsserted := true }

/-- The reset input goes to deasserted: the state of R281, the engine idle (R280). -/
def deassertReset (s : State) : State := { s with resetAsserted := false }

end Sys2Proof.Machine
end

