-- ==== Sys2Proof/Machine/HostPort.lean ====
section
/-!
DEFINITION. What the host does to the block: register-block accesses (10_state.md R45 to R66), the BMEM port
(20_memory.md R89), both under the busy hazard rules (70_reset_and_hazards.md R286 to R289), and the reset input.
-/

namespace Sys2Proof.Machine

/-- The registers of the block (10_state.md R45). -/
inductive HostReg where
  | id | status | ctrl | cmd | size | inBase | outBase | tblBase | tblLen | resBase | poolBase | poolLimit | allocPtr
  | x (i : RegIdx)
  | cRe (i : RegIdx)
  | cIm (i : RegIdx)
  | reserved
deriving DecidableEq, Repr

/-- The register map of 10_state.md R45, by the index of the 64-bit word. -/
def hostReg (offset : BitVec 12) : HostReg :=
  let k := offset.toNat / 8
  match k with
  | 0 => .id
  | 1 => .status
  | 2 => .ctrl
  | 3 => .cmd
  | 4 => .size
  | 5 => .inBase
  | 6 => .outBase
  | 7 => .tblBase
  | 8 => .tblLen
  | 9 => .resBase
  | 10 => .poolBase
  | 11 => .poolLimit
  | 12 => .allocPtr
  | _ =>
    if 16 ≤ k ∧ k < 24 then .x (Fin.ofNat 8 (k - 16))
    else if 32 ≤ k ∧ k < 48 then
      if k % 2 = 0 then .cRe (Fin.ofNat 8 ((k - 32) / 2)) else .cIm (Fin.ofNat 8 ((k - 32) / 2))
    else .reserved

/-- A supported register-block access: 8 bytes at a multiple of 8 (10_state.md R65). -/
def regAccessOk (offset : BitVec 12) (width : Nat) : Bool := width == 8 && offset.toNat % 8 == 0

/-- The value a read of a register returns (10_state.md R45 to R64): unused bits and reserved offsets read 0. -/
def regValue (s : State) : HostReg → Word64
  | .id => Config.idValue
  | .status => s.status.word
  | .ctrl => BitVec.ofNat 64 s.ie.toNat
  | .cmd => s.lastCmd.zeroExtend 64
  | .size => s.size.zeroExtend 64
  | .inBase => s.inBase.zeroExtend 64
  | .outBase => s.outBase.zeroExtend 64
  | .tblBase => s.tblBase.zeroExtend 64
  | .tblLen => s.tblLen.zeroExtend 64
  | .resBase => s.resBase.zeroExtend 64
  | .poolBase => BitVec.ofNat 64 (poolAddr s.poolBase)
  | .poolLimit => BitVec.ofNat 64 (poolAddr s.poolLimit)
  | .allocPtr => BitVec.ofNat 64 (poolAddr s.allocPtr)
  | .x i => s.x i
  | .cRe i => (s.c i).re
  | .cIm i => (s.c i).im
  | .reserved => 0

/-- Whether a read returns the register's value while a command is pending: ID, STATUS, CTRL and CMD do, every other
register gives any value (R288); a reserved offset is no register and reads 0 (10_state.md R64; log 15). -/
def readableBusy : HostReg → Bool
  | .id | .status | .ctrl | .cmd | .reserved => true
  | .size | .inBase | .outBase | .tblBase | .tblLen | .resBase | .poolBase | .poolLimit | .allocPtr => false
  | .x _ | .cRe _ | .cIm _ => false

/-- A command is issued (10_state.md R54, BUSY = 0). -/
def issue (s : State) (w : Word32) : State :=
  { s with lastCmd := w, status := { s.status with done := false, busy := true } }

/-- A write to an operand register: dropped with HZ set while BUSY = 1 (R287). -/
def unlessBusy (s t : State) : State := if s.status.busy then s.setHz else t

/-- A supported host write to a register (10_state.md R46 to R64; 70_reset_and_hazards.md R286, R287). -/
def regStore (s : State) (r : HostReg) (v : Word64) : State :=
  match r with
  | .id => s
  | .status => { s with status := s.status.hostWrite v }
  | .ctrl => { s with ie := v.getLsbD 0 }
  | .cmd => unlessBusy s (issue s (v.truncate 32))
  | .size => unlessBusy s { s with size := v.truncate 32 }
  | .inBase => unlessBusy s { s with inBase := v.truncate 32 }
  | .outBase => unlessBusy s { s with outBase := v.truncate 32 }
  | .tblBase => unlessBusy s { s with tblBase := v.truncate 32 }
  | .tblLen => unlessBusy s { s with tblLen := v.truncate 32 }
  | .resBase => s
  | .poolBase => unlessBusy s { s with poolBase := v.extractLsb' 4 28 }
  | .poolLimit => unlessBusy s { s with poolLimit := v.extractLsb' 4 28 }
  | .allocPtr => unlessBusy s { s with allocPtr := v.extractLsb' 4 28 }
  | .x i => unlessBusy s (s.setX i v)
  | .cRe i => unlessBusy s (s.setCRe i v)
  | .cIm i => unlessBusy s (s.setCIm i v)
  | .reserved => s

/-- The host reads: what the read returned goes to `readData`, nothing else changes but the count of draws. -/
def State.returned (s : State) (v : Word64) (k : Nat) : State := { s.drawn k with readData := v }

/-- A host register write: ignored while reset is asserted (R280) and when unsupported (R65). -/
def hostRegWrite (s : State) (offset : BitVec 12) (width : Nat) (v : Word64) : State :=
  if s.resetAsserted || !regAccessOk offset width then s else regStore s (hostReg offset) v

/-- A host register read: any value while reset is asserted (R280), when unsupported (R65; log 13), and for a
register the engine may be writing (R288). -/
def hostRegRead (s : State) (offset : BitVec 12) (width : Nat) : State :=
  if s.resetAsserted || !regAccessOk offset width || (s.status.busy && !readableBusy (hostReg offset)) then
    s.returned (s.freeBits 0) 1
  else s.returned (regValue s (hostReg offset)) 0

/-- A supported BMEM access: 1, 2, 4 or 8 bytes, naturally aligned, inside BMEM (20_memory.md R89). -/
def portAccessOk (s : State) (addr width : Nat) : Bool :=
  [1, 2, 4, 8].contains width && addr % width == 0 && decide (addr + width ≤ s.bmemBytes)

/-- The addresses of an access. -/
def accessBytes (addr width : Nat) : List Nat := (List.range width).map (addr + ·)

/-- Whether a host write touches the footprint of the pending command (R289). -/
def racesPending (s : State) (addr width : Nat) : Bool :=
  let fp := pendingFootprint s
  (accessBytes addr width).any (inRanges s (fp.reads ++ fp.writes))

/-- A host BMEM write (20_memory.md R89): ignored while reset is asserted (log 9) or when unsupported; otherwise its
bytes are stored, and if one lies in the pending footprint all of them are tainted (R289; log 11, log 12). -/
def hostMemWrite (s : State) (addr width : Nat) (v : Word64) : State :=
  if s.resetAsserted || !portAccessOk s addr width then s
  else
    { s with
      mem := memWrite s.mem addr width v.toNat
      raced := if racesPending s addr width then s.raced ++ accessBytes addr width else s.raced }

/-- The bytes a host read sees: any value for a byte of the pending write set (R289), a fault for a byte never
written (20_memory.md R91). -/
def portBytes (s : State) (ranges : List (Nat × Nat)) (k a : Nat) : Nat → Except Fault (List Byte)
  | 0 => .ok []
  | n + 1 =>
    if inRanges s ranges a then (portBytes s ranges (k + 1) (a + 1) n).map ((s.freeBits k).truncate 8 :: ·)
    else
      match s.mem.byte a with
      | none => .error (.unwrittenByte a)
      | some b => (portBytes s ranges (k + 1) (a + 1) n).map (b :: ·)

/-- A host BMEM read (20_memory.md R89, R91; 70_reset_and_hazards.md R289). -/
def hostMemRead (s : State) (addr width : Nat) : Host.Outcome State Fault Refusal :=
  if s.resetAsserted || !portAccessOk s addr width then .next (s.returned (s.freeBits 0) 1)
  else
    match portBytes s (pendingFootprint s).writes 0 addr width with
    | .error f => .fault f
    | .ok bs => .next (s.returned (BitVec.ofNat 64 (leValue bs)) width)

/-- One host access. -/
def hostAct (a : HostAct) (s : State) : Host.Outcome State Fault Refusal :=
  match a with
  | .regWrite offset width v => .next (hostRegWrite s offset width v)
  | .regRead offset width => .next (hostRegRead s offset width)
  | .memWrite addr width v => .next (hostMemWrite s addr width v)
  | .memRead addr width => hostMemRead s addr width
  | .assertReset => .next (assertReset s)
  | .deassertReset => .next (deassertReset s)

/-- The moves of `ISSUE asm` followed by `WAIT` (30_encoding.md R124). -/
def issueWait (i : Instr) : List Turn := [.host (.regWrite 0x018 8 ((encode i).zeroExtend 64)), .wait]

end Sys2Proof.Machine
end

