-- ==== Sys2Proof/Machine/Engine.lean ====
section
/-!
DEFINITION. The engine's step (10_state.md R67), the host's WAIT loop (30_encoding.md R124), and the next move of
the interleaving (20_memory.md R95).
-/

namespace Sys2Proof.Machine

/-- The engine's step (10_state.md R67): with BUSY = 1 decode LASTCMD and execute it; with BUSY = 0, or while reset
is asserted (R280), it has no step and nothing changes (log 7). A word that fails to decode raises ILLEGAL_COMMAND
(60_exceptions.md R253); a command that raced a host write has the outcome of 70_reset_and_hazards.md R289. -/
def engineTurn (s : State) : Host.Outcome State Fault Refusal :=
  if s.resetAsserted || !s.status.busy then .next s
  else
    match decode s.lastCmd with
    | .error _ => .next (raise s .illegalCommand)
    | .ok i => if s.raced.isEmpty then exec i s else .next (raceOutcome i s)

/-- One turn of WAIT (30_encoding.md R124): read STATUS; while bit 0 of the value read is 1 the loop goes on, and the
engine moves before the host reads again (the fairness of 60_exceptions.md R271; log 22). -/
def waitTurn (rest : List Turn) (s : State) : State :=
  let t := hostRegRead s 0x008 8
  { t with script := if t.readData.getLsbD 0 then .engine :: .wait :: rest else rest }

/-- The next move: the script's first entry, or the engine when the script is empty (log 6). -/
def takeTurn (s : State) : Host.Outcome State Fault Refusal :=
  match s.script with
  | [] => engineTurn s
  | .engine :: rest => engineTurn { s with script := rest }
  | .host a :: rest => hostAct a { s with script := rest }
  | .wait :: rest => .next (waitTurn rest s)

/-- The command word `w` issued: what `State.withFetchWord` does (log 8). The script is emptied, the reset input
deasserted and the taint cleared so that the engine's step is next; LASTCMD, DONE and BUSY are those of a host write
to CMD (10_state.md R54). -/
def placeCommand (s : State) (w : Word32) : State :=
  issue { s with script := [], resetAsserted := false, raced := [] } w

end Sys2Proof.Machine
end

