-- ==== Sys2Proof/Machine/Step.lean ====
section
/-!
DEFINITION. One step of the machine, and the placing of a command where the next step takes it.
-/

namespace Sys2Proof.Machine

/-- One step: one move of the interleaving of host accesses and engine steps (20_memory.md R95; 10_state.md R67). -/
def step (s : State) : Host.Outcome State Fault Refusal := takeTurn s

/-- `s` with the command whose bits, numbered as the opcode table numbers them, are `w`, issued (log 8). -/
def State.withFetchWord (s : State) (nbits w : Nat) : State := placeCommand s (tableWord nbits w)

end Sys2Proof.Machine
end

