-- ==== Sys2Proof/Safety.lean ====
section
/-!
DEFINITION. What the spec says of runs that rely on registers never written (70_reset_and_hazards.md R282; log 1),
what a safe run is, and the invariant of the machine.

The spec makes a read of an unwritten register a fault. This model gives every register a value at reset, keeps the
unwritten marks, and says here which moves read an unwritten register: a run is safe when no move of it does and no
move stops.
-/

namespace Sys2Proof.Machine

/-- The complex registers a command reads (40_complex.md R152 to R166, 42_fft.md R210, 43_transfer.md R241). -/
def readsC : Instr → List RegIdx
  | .cmk _ _ _ => []
  | .cmkre _ _ => []
  | .cmkim _ _ => []
  | .ceq _ cs1 cs2 => [cs1, cs2]
  | .ceqr _ cs1 cs2 => [cs1, cs2]
  | .cadd _ cs1 cs2 => [cs1, cs2]
  | .csub _ cs1 cs2 => [cs1, cs2]
  | .cmul _ cs1 cs2 => [cs1, cs2]
  | .cdiv _ cs1 cs2 => [cs1, cs2]
  | .cmod _ cs1 => [cs1]
  | .carg _ cs1 => [cs1]
  | .cexp _ cs1 => [cs1]
  | .cconj _ cs1 => [cs1]
  | .crecip _ cs1 => [cs1]
  | .crand _ => []
  | .log2f _ _ => []
  | .brev _ _ _ => []
  | .buildtbl _ => []
  | .fft _ _ => []
  | .bfly cd cs1 cs2 => [cd, cs1, cs2]
  | .ldc _ _ => []
  | .stc cs2 _ => [cs2]

/-- The integer registers a command reads (10_state.md R43). -/
def readsX : Instr → List RegIdx
  | .cmk _ xs1 xs2 => [xs1, xs2]
  | .cmkre _ xs1 => [xs1]
  | .cmkim _ xs1 => [xs1]
  | .ceq _ _ _ => []
  | .ceqr _ _ _ => []
  | .cadd _ _ _ => []
  | .csub _ _ _ => []
  | .cmul _ _ _ => []
  | .cdiv _ _ _ => []
  | .cmod _ _ => []
  | .carg _ _ => []
  | .cexp _ _ => []
  | .cconj _ _ => []
  | .crecip _ _ => []
  | .crand _ => []
  | .log2f _ xs1 => [xs1]
  | .brev _ xs1 xs2 => [xs1, xs2]
  | .buildtbl _ => []
  | .fft _ _ => []
  | .bfly _ _ _ => []
  | .ldc _ xs1 => [xs1]
  | .stc _ xs1 => [xs1]

/-- Both components of a complex register have been written since power-on. -/
def State.cWritten (s : State) (i : RegIdx) : Bool := s.crWritten[i.val].re && s.crWritten[i.val].im

/-- An integer register has been written since power-on. -/
def State.xIsWritten (s : State) (i : RegIdx) : Bool := s.xrWritten[i.val]

/-- Every register operand of a command has been written since power-on (R282). -/
def operandsWritten (i : Instr) (s : State) : Bool := (readsC i).all s.cWritten && (readsX i).all s.xIsWritten

/-- A host read of a register window has something to read (R282). -/
def windowWritten (s : State) : HostReg → Bool
  | .x i => s.xIsWritten i
  | .cRe i => s.crWritten[i.val].re
  | .cIm i => s.crWritten[i.val].im
  | .id | .status | .ctrl | .cmd | .size | .inBase | .outBase | .tblBase | .tblLen | .resBase => true
  | .poolBase | .poolLimit | .allocPtr | .reserved => true

/-- Every register operand of the pending command, its address register among them, has been written. -/
def pendingReadsWritten (s : State) : Bool :=
  !s.status.busy || match decode s.lastCmd with
    | .ok i => operandsWritten i s
    | .error _ => true

/-- The engine's step reads no unwritten register. -/
def engineReadsWritten (s : State) : Bool := s.resetAsserted || pendingReadsWritten s

/-- The next move reads no register that the spec calls unwritten (R282). A register read that returns any value
anyway (R280, R288) reads none; a BMEM access and the reset input look at the pending command's footprint, which its
address register gives (R283, R289). -/
def readsOnlyWritten (s : State) : Bool :=
  match s.script with
  | [] => engineReadsWritten s
  | .engine :: _ => engineReadsWritten s
  | .wait :: _ => true
  | .host (.regRead offset width) :: _ =>
    s.resetAsserted || !regAccessOk offset width || s.status.busy || windowWritten s (hostReg offset)
  | .host (.regWrite _ _ _) :: _ => true
  | .host (.memWrite _ _ _) :: _ => pendingReadsWritten s
  | .host (.memRead _ _) :: _ => pendingReadsWritten s
  | .host .assertReset :: _ => pendingReadsWritten s
  | .host .deassertReset :: _ => true

/-- `n` moves none of which reads an unwritten register or stops. -/
def safeFor : Nat → State → Bool
  | 0, _ => true
  | n + 1, s =>
    readsOnlyWritten s && match step s with
      | .next t => safeFor n t
      | .fault _ => false
      | .refused _ => false

/-- Two states that differ at most in the values of registers not yet written. -/
structure SameWritten (s t : State) : Prop where
  x : ∀ i : RegIdx, s.xIsWritten i = true → t.x i = s.x i
  cRe : ∀ i : RegIdx, s.crWritten[i.val].re = true → (t.c i).re = (s.c i).re
  cIm : ∀ i : RegIdx, s.crWritten[i.val].im = true → (t.c i).im = (s.c i).im
  rest : { t with xr := s.xr, cr := s.cr } = s

/-- Two outcomes of the same kind, their next states related. -/
def SameOutcome (r : State → State → Prop) :
    Host.Outcome State Fault Refusal → Host.Outcome State Fault Refusal → Prop
  | .next s, .next t => r s t
  | .fault f, .fault g => f = g
  | .refused f, .refused g => f = g
  | .next _, .fault _ => False
  | .next _, .refused _ => False
  | .fault _, .next _ => False
  | .fault _, .refused _ => False
  | .refused _, .next _ => False
  | .refused _, .fault _ => False

/-- The invariant of the machine: memory in canonical form and inside BMEM (20_memory.md R80), a command never both
pending and complete (10_state.md R48, R49), and a taint only while a command is pending, inside BMEM
(70_reset_and_hazards.md R289). -/
structure Invariant (s : State) : Prop where
  memCanonical : s.mem.wf
  memInside : ∀ p ∈ s.mem, p.1 < s.bmemBytes
  notBusyAndDone : ¬ (s.status.busy = true ∧ s.status.done = true)
  tainted : s.raced ≠ [] → s.status.busy = true ∧ ∃ i, decode s.lastCmd = .ok i
  racedInside : ∀ a ∈ s.raced, a < s.bmemBytes

end Sys2Proof.Machine
end

