-- ==== Sys2Proof/Certificates/Slice0/Obligations.lean ====
section
/-!
DEFINITION. What is claimed of the machine, for the provers. The helper predicates in Sys2Proof.Claims spell out
frames and values, so that each statement says all that its rule says. Statements about `step` use the model's script
of moves, its rendering of the interleaving of 20_memory.md R95 (log 6).
-/

namespace Sys2Proof.Claims

open Sys2Proof Sys2Proof.Machine

/-! ### Frames -/

/-- The registers no command writes, and the model's own fields a command leaves alone. -/
def SameSetup (s t : State) : Prop :=
  t.ie = s.ie ∧ t.lastCmd = s.lastCmd ∧ t.size = s.size ∧ t.inBase = s.inBase ∧ t.outBase = s.outBase ∧
  t.poolBase = s.poolBase ∧ t.poolLimit = s.poolLimit ∧ t.bmemBlocks = s.bmemBlocks ∧
  t.resetAsserted = s.resetAsserted ∧ t.raced = s.raced ∧ t.script = s.script ∧ t.readData = s.readData

/-- The registers only FFT and BUILDTBL write. -/
def SameResults (s t : State) : Prop :=
  t.tblBase = s.tblBase ∧ t.tblLen = s.tblLen ∧ t.resBase = s.resBase ∧ t.allocPtr = s.allocPtr

/-- XR0 to XR7 and their marks. -/
def SameX (s t : State) : Prop := (∀ r, t.x r = s.x r) ∧ t.xrWritten = s.xrWritten

/-- CR0 to CR7 and their marks. -/
def SameC (s t : State) : Prop := (∀ r, t.c r = s.c r) ∧ t.crWritten = s.crWritten

/-- Every byte of BMEM. -/
def SameBytes (s t : State) : Prop := ∀ a, t.mem.byte a = s.mem.byte a

/-- Every byte of BMEM outside `[base, base + len)`. -/
def SameBytesOutside (s t : State) (base len : Nat) : Prop :=
  ∀ a, a < base ∨ base + len ≤ a → t.mem.byte a = s.mem.byte a

/-- STATUS after a completion: BUSY 0, DONE 1, the code, the given ALLOC, HZ kept (R259). -/
def Completed (s t : State) (code : ErrCode) (alloc : Bool) : Prop :=
  t.status = ⟨false, true, code, alloc, s.status.hz⟩

/-- The command completed with code 0 and wrote `z` to `c[rd]` and nothing else; `k` draws were taken. -/
def OnlyC (s t : State) (rd : RegIdx) (z : Cplx) (k : Nat) : Prop :=
  t.c rd = z ∧ (∀ r, r ≠ rd → t.c r = s.c r) ∧ t.crWritten = s.crWritten.set rd.val ⟨true, true⟩ ∧
  SameX s t ∧ SameBytes s t ∧ SameSetup s t ∧ SameResults s t ∧ t.draws = s.draws + k ∧
  Completed s t .none s.status.alloc

/-- The command completed with code 0 and wrote `v` to `x[rd]` and nothing else. -/
def OnlyX (s t : State) (rd : RegIdx) (v : Word64) : Prop :=
  t.x rd = v ∧ (∀ r, r ≠ rd → t.x r = s.x r) ∧ t.xrWritten = s.xrWritten.set rd.val true ∧
  SameC s t ∧ SameBytes s t ∧ SameSetup s t ∧ SameResults s t ∧ t.draws = s.draws ∧
  Completed s t .none s.status.alloc

/-- `i` completes in every state, writing `f s` to `c[rd]` and nothing else. -/
def WritesC (i : Instr) (rd : RegIdx) (f : State → Cplx) : Prop :=
  ∀ s, ∃ t, exec i s = .next t ∧ OnlyC s t rd (f s) 0

/-- `i` completes in every state, writing `f s` to `x[rd]` and nothing else. -/
def WritesX (i : Instr) (rd : RegIdx) (f : State → Word64) : Prop :=
  ∀ s, ∃ t, exec i s = .next t ∧ OnlyX s t rd (f s)

/-- The state after a command raised `code` in `s`: only STATUS's ERR, BUSY and DONE differ (R13, R259). -/
def raised (s : State) (code : ErrCode) : State :=
  { s with status := ⟨false, true, code, s.status.alloc, s.status.hz⟩ }

/-- Every word of the opcode with a 1 among `bits` is rejected (R117). -/
def IllegalWhen (opc : Nat) (bits : Word32) : Prop :=
  ∀ w : Word32, fieldOpc w = opc → w &&& bits ≠ 0 → decode w = .error .mustBeZero

/-- The 8 bytes of `v` stand at `a`, least significant first. -/
def HoldsWord (m : Memory) (a : Nat) (v : Word64) : Prop :=
  ∀ k, k < 8 → m.byte (a + k) = some (v.extractLsb' (8 * k) 8)

/-- The engine moves next and a command is pending. -/
def EngineReady (s : State) : Prop :=
  s.resetAsserted = false ∧ s.status.busy = true ∧ (s.script = [] ∨ ∃ rest, s.script = .engine :: rest)

/-- The state in which the engine moves: the script's entry for it is taken. -/
def turned (s : State) : State := { s with script := s.script.tail }

/-- The host makes the access `a` next, then `rest` follows. -/
def HostNext (s : State) (a : HostAct) (rest : List Turn) : Prop := s.script = .host a :: rest

/-- No command is pending and the block is out of reset. -/
def Idle (s : State) : Prop := s.resetAsserted = false ∧ s.status.busy = false

/-! ### Sizes and places -/

/-- `N`, the transform size. -/
def sizeN (s : State) : Nat := s.size.toNat

/-- The size is a power of two (R26). -/
def Pow2 (n : Nat) : Prop := ∃ k, n = 2 ^ k

/-- The range is aligned and inside BMEM (R87, R88). -/
def Placed (s : State) (align base len : Nat) : Prop := base % align = 0 ∧ base + len ≤ s.bmemBytes

/-- The pool has room for `len` bytes (R92). -/
def PoolRoom (s : State) (len : Nat) : Prop :=
  16 * s.poolBase.toNat ≤ 16 * s.allocPtr.toNat ∧
  16 * s.allocPtr.toNat + (len + 15) / 16 * 16 ≤ 16 * s.poolLimit.toNat ∧
  16 * s.allocPtr.toNat + (len + 15) / 16 * 16 ≤ s.bmemBytes

/-- Where FFT's output goes (R214). -/
def outBaseOf (s : State) (o : Bool) : Nat := if o then s.outBase.toNat else 16 * s.allocPtr.toNat

/-- The byte ranges share no byte. -/
def Apart (a la b lb : Nat) : Prop := a + la ≤ b ∨ b + lb ≤ a

/-- FFT's address, size and overlap checks all pass (R214). -/
def FftPlaced (s : State) (o t : Bool) : Prop :=
  Pow2 (sizeN s) ∧ (t = true → s.tblLen = s.size) ∧
  Placed s 8 s.inBase.toNat (16 * sizeN s) ∧ (t = true → Placed s 4 s.tblBase.toNat (4 * sizeN s)) ∧
  (o = true → Placed s 8 s.outBase.toNat (16 * sizeN s)) ∧ (o = false → PoolRoom s (16 * sizeN s)) ∧
  Apart (outBaseOf s o) (16 * sizeN s) s.inBase.toNat (16 * sizeN s) ∧
  (t = true → Apart (outBaseOf s o) (16 * sizeN s) s.tblBase.toNat (4 * sizeN s))

/-- The permutation FFT uses: the table in BMEM when T = 1, else the bit reversal (R212, R214, R256). -/
def FftPermutes (s : State) (t : Bool) (perm : List Nat) : Prop :=
  (t = true → readEntries s.mem s.tblBase.toNat (sizeN s) = .ok perm ∧ (∀ v ∈ perm, v < sizeN s) ∧ perm.Nodup) ∧
  (t = false → perm = (List.range (sizeN s)).map (bitReverse (sizeN s)))

open Classical in
/-- The first result code of 60_exceptions.md R258 that FFT's operands call for, the table's content being `es`. -/
noncomputable def fftFirstError (s : State) (o t : Bool) (es : List Nat) : Option ErrCode :=
  if ¬ Pow2 (sizeN s) ∨ (t = true ∧ s.tblLen ≠ s.size) then some .invalidSize
  else if ¬ Placed s 8 s.inBase.toNat (16 * sizeN s) ∨ (t = true ∧ ¬ Placed s 4 s.tblBase.toNat (4 * sizeN s)) ∨
      (o = true ∧ ¬ Placed s 8 s.outBase.toNat (16 * sizeN s)) then some .addressError
  else if o = false ∧ ¬ PoolRoom s (16 * sizeN s) then some .allocationFailure
  else if ¬ Apart (outBaseOf s o) (16 * sizeN s) s.inBase.toNat (16 * sizeN s) ∨
      (t = true ∧ ¬ Apart (outBaseOf s o) (16 * sizeN s) s.tblBase.toNat (4 * sizeN s)) then some .overlap
  else if t = true ∧ ¬ ((∀ v ∈ es, v < sizeN s) ∧ es.Nodup) then some .tableInvalid
  else none

/-- The result registers and frame of a successful buffer command whose result is `len` bytes at `base` (R194, R214,
R215): RES_BASE, ALLOC and ALLOC_PTR, and nothing outside the range. -/
def BufferResult (s t : State) (o : Bool) (base len : Nat) : Prop :=
  t.resBase.toNat = base ∧
  (o = true → t.allocPtr = s.allocPtr) ∧
  (o = false → 16 * t.allocPtr.toNat = base + (len + 15) / 16 * 16) ∧
  SameBytesOutside s t base len ∧ SameX s t ∧ SameC s t ∧ SameSetup s t ∧ t.draws = s.draws ∧
  Completed s t .none (!o)

/-- A finite binary64 value. -/
def Finite (v : F64) : Prop := ∃ p m, fview v = .fin p m

/-- The running twiddle of R213 in stage `stage` when the j loop has made `j` turns: ONE, multiplied `j` times by the
stage's twiddle factor. -/
def runningTwiddle (stage : Nat) : Nat → Cplx
  | 0 => ⟨0x3FF0000000000000, 0x0000000000000000⟩
  | j + 1 => cmul (runningTwiddle stage j) (stageTwiddle stage)

/-- Every running twiddle that a transform of 2^L elements uses is finite. -/
def TwiddlesFinite (L : Nat) : Prop :=
  ∀ stage j, 1 ≤ stage → stage ≤ L → j < 2 ^ (stage - 1) →
    Finite (runningTwiddle stage j).re ∧ Finite (runningTwiddle stage j).im

/-- The transform of R212 and R213 on `2^L` slots, from the rules alone: `out 0` is the copy of the input under the
permutation, and `out stage` comes from `out (stage - 1)` by the butterflies of every block `b` (its slots from
`b * 2^stage` on) and every `j` below half the block. -/
def TwoPhases (L : Nat) (perm : List Nat) (input : List Cplx) (out : Nat → Nat → Cplx) : Prop :=
  (∀ (k r : Nat) (z : Cplx), perm[k]? = some r → input[k]? = some z → out 0 r = z) ∧
  ∀ stage b j : Nat, 1 ≤ stage → stage ≤ L → j < 2 ^ (stage - 1) → (b + 1) * 2 ^ stage ≤ 2 ^ L →
    let u := out (stage - 1) (b * 2 ^ stage + j)
    let v := out (stage - 1) (b * 2 ^ stage + j + 2 ^ (stage - 1))
    out stage (b * 2 ^ stage + j) = cadd u (cmul (runningTwiddle stage j) v) ∧
    out stage (b * 2 ^ stage + j + 2 ^ (stage - 1)) = csub u (cmul (runningTwiddle stage j) v)

/-! ### Host registers -/

/-- The offsets of R64. -/
def ReservedOffset (offset : BitVec 12) : Prop :=
  (0x068 ≤ offset.toNat ∧ offset.toNat < 0x080) ∨ (0x0C0 ≤ offset.toNat ∧ offset.toNat < 0x100) ∨ 0x180 ≤ offset.toNat

/-- What a host write of `v` makes of the idle state `s`, register by register (R45, R46, R53 to R64; marks R282). CMD
and STATUS have statements of their own. -/
def RegisterWritten (s t : State) (offset : BitVec 12) (v : Word64) : Prop :=
  (offset = 0x000 ∨ offset = 0x048 ∨ ReservedOffset offset → t = s) ∧
  (offset = 0x010 → t = { s with ie := v.getLsbD 0 }) ∧
  (offset = 0x020 → t = { s with size := v.extractLsb' 0 32 }) ∧
  (offset = 0x028 → t = { s with inBase := v.extractLsb' 0 32 }) ∧
  (offset = 0x030 → t = { s with outBase := v.extractLsb' 0 32 }) ∧
  (offset = 0x038 → t = { s with tblBase := v.extractLsb' 0 32 }) ∧
  (offset = 0x040 → t = { s with tblLen := v.extractLsb' 0 32 }) ∧
  (offset = 0x050 → t = { s with poolBase := v.extractLsb' 4 28 }) ∧
  (offset = 0x058 → t = { s with poolLimit := v.extractLsb' 4 28 }) ∧
  (offset = 0x060 → t = { s with allocPtr := v.extractLsb' 4 28 }) ∧
  (∀ n : RegIdx, offset.toNat = 0x080 + 8 * n.val →
    t = { s with xr := s.xr.set n.val v, xrWritten := s.xrWritten.set n.val true }) ∧
  (∀ n : RegIdx, offset.toNat = 0x100 + 16 * n.val →
    t = { s with
      cr := s.cr.set n.val ⟨v, (s.c n).im⟩
      crWritten := s.crWritten.set n.val ⟨true, s.crWritten[n.val].im⟩ }) ∧
  (∀ n : RegIdx, offset.toNat = 0x108 + 16 * n.val →
    t = { s with
      cr := s.cr.set n.val ⟨(s.c n).re, v⟩
      crWritten := s.crWritten.set n.val ⟨s.crWritten[n.val].re, true⟩ })

/-- The registers whose reads return their values idle or BUSY (R46, R53, R54, R288); STATUS has its own statement. -/
def AlwaysReads (s : State) (offset : BitVec 12) (value : Nat) : Prop :=
  (offset = 0x000 → value = 0x0000000757415645) ∧ (offset = 0x010 → value = s.ie.toNat) ∧
  (offset = 0x018 → value = s.lastCmd.toNat)

/-- The registers that are read while idle (R55 to R64). -/
def IdleReads (s : State) (offset : BitVec 12) (value : Nat) : Prop :=
  (offset = 0x020 → value = s.size.toNat) ∧ (offset = 0x028 → value = s.inBase.toNat) ∧
  (offset = 0x030 → value = s.outBase.toNat) ∧ (offset = 0x038 → value = s.tblBase.toNat) ∧
  (offset = 0x040 → value = s.tblLen.toNat) ∧ (offset = 0x048 → value = s.resBase.toNat) ∧
  (offset = 0x050 → value = 16 * s.poolBase.toNat) ∧ (offset = 0x058 → value = 16 * s.poolLimit.toNat) ∧
  (offset = 0x060 → value = 16 * s.allocPtr.toNat) ∧ (ReservedOffset offset → value = 0) ∧
  (∀ n : RegIdx, offset.toNat = 0x080 + 8 * n.val → value = (s.x n).toNat) ∧
  (∀ n : RegIdx, offset.toNat = 0x100 + 16 * n.val → value = (s.c n).re.toNat) ∧
  (∀ n : RegIdx, offset.toNat = 0x108 + 16 * n.val → value = (s.c n).im.toNat)

/-! ### What a command reads and writes, from the tables of R283 and R289 -/

/-- `a` lies in `[base, base + len)`. -/
def Within (a base len : Nat) : Prop := base ≤ a ∧ a < base + len

/-- F_R of R289, clipped to BMEM. -/
def InReadSet (s : State) (i : Instr) (a : Nat) : Prop :=
  a < s.bmemBytes ∧
    ((∃ o t, i = .fft o t ∧ (Within a s.inBase.toNat (16 * sizeN s) ∨
        t = true ∧ Within a s.tblBase.toNat (4 * sizeN s))) ∨
      ∃ cd xs1, i = .ldc cd xs1 ∧ Within a (s.x xs1).toNat 16)

/-- F_W of R289 (the write set of R283), clipped to BMEM. -/
def InWriteSet (s : State) (i : Instr) (a : Nat) : Prop :=
  a < s.bmemBytes ∧
    ((∃ t, i = .fft true t ∧ Within a s.outBase.toNat (16 * sizeN s)) ∨
      (∃ t, i = .fft false t ∧ Within a (16 * s.allocPtr.toNat) ((16 * sizeN s + 15) / 16 * 16)) ∨
      (i = .buildtbl true ∧ Within a s.tblBase.toNat (4 * sizeN s)) ∨
      (i = .buildtbl false ∧ Within a (16 * s.allocPtr.toNat) ((4 * sizeN s + 15) / 16 * 16)) ∨
      ∃ cs2 xs1, i = .stc cs2 xs1 ∧ Within a (s.x xs1).toNat 16)

/-- `a` lies in F_R of the pending command; an illegal word reads nothing. -/
def PendingReads (s : State) (a : Nat) : Prop := ∃ i, decode s.lastCmd = .ok i ∧ InReadSet s i a

/-- `a` lies in F_W of the pending command; an illegal word writes nothing. -/
def PendingWrites (s : State) (a : Nat) : Prop := ∃ i, decode s.lastCmd = .ok i ∧ InWriteSet s i a

/-- The complex registers a command writes (R283: "their destination registers"). -/
def complexDests : Instr → List RegIdx
  | .cmk cd _ _ => [cd]
  | .cmkre cd _ => [cd]
  | .cmkim cd _ => [cd]
  | .ceq _ _ _ => []
  | .ceqr _ _ _ => []
  | .cadd cd _ _ => [cd]
  | .csub cd _ _ => [cd]
  | .cmul cd _ _ => [cd]
  | .cdiv cd _ _ => [cd]
  | .cmod _ _ => []
  | .carg _ _ => []
  | .cexp cd _ => [cd]
  | .cconj cd _ => [cd]
  | .crecip cd _ => [cd]
  | .crand cd => [cd]
  | .log2f _ _ => []
  | .brev _ _ _ => []
  | .buildtbl _ => []
  | .fft _ _ => []
  | .bfly cd cs1 _ => [cd, cs1]
  | .ldc cd _ => [cd]
  | .stc _ _ => []

/-- The integer registers a command writes (R283). -/
def integerDests : Instr → List RegIdx
  | .ceq xd _ _ => [xd]
  | .ceqr xd _ _ => [xd]
  | .cmod xd _ => [xd]
  | .carg xd _ => [xd]
  | .log2f xd _ => [xd]
  | .brev xd _ _ => [xd]
  | .cmk _ _ _ => []
  | .cmkre _ _ => []
  | .cmkim _ _ => []
  | .cadd _ _ _ => []
  | .csub _ _ _ => []
  | .cmul _ _ _ => []
  | .cdiv _ _ _ => []
  | .cexp _ _ => []
  | .cconj _ _ => []
  | .crecip _ _ => []
  | .crand _ => []
  | .buildtbl _ => []
  | .fft _ _ => []
  | .bfly _ _ _ => []
  | .ldc _ _ => []
  | .stc _ _ => []

/-- Every byte outside the write set of `i` and outside the racing host writes, and every CR and XR register `i` does
not write, with its mark, is as it was. -/
def Untouched (s t : State) (i : Instr) : Prop :=
  (∀ a, ¬ InWriteSet s i a → a ∉ s.raced → t.mem.byte a = s.mem.byte a) ∧
  (∀ r : RegIdx, r ∉ complexDests i → t.c r = s.c r ∧ t.crWritten[r.val] = s.crWritten[r.val]) ∧
  (∀ r : RegIdx, r ∉ integerDests i → t.x r = s.x r ∧ t.xrWritten[r.val] = s.xrWritten[r.val])

/-! ### Rounding -/

/-- The value of a finite view in units of 2^-1074. -/
noncomputable def unitsOf (neg : Bool) (mag : Nat) : ℝ := if neg then -(mag : ℝ) else mag

/-- `r` is the binary64 nearest to `x` units, ties to an even significand; an infinity of `x`'s sign exactly from half
a last place above the largest finite value on (R16, IEEE 754 round to nearest, ties to even). -/
def RoundsTo (x : ℝ) (r : F64) : Prop :=
  match fview r with
  | .nan => False
  | .inf neg => (2 : ℝ) ^ 2098 - 2 ^ 2044 ≤ |x| ∧ (neg = true ↔ x < 0)
  | .fin neg mag =>
    |x| < (2 : ℝ) ^ 2098 - 2 ^ 2044 ∧
    ∀ (c : F64) (u : Bool) (k : Nat), fview c = .fin u k →
      |x - unitsOf neg mag| ≤ |x - unitsOf u k| ∧
      (|x - unitsOf neg mag| = |x - unitsOf u k| → unitsOf u k ≠ unitsOf neg mag → r.getLsbD 0 = false)

end Sys2Proof.Claims

open Sys2Proof Sys2Proof.Machine Sys2Proof.Claims

/-! ## Encoding -/

/-- Decoding the word of a well-formed command gives the command back, every operand at every value. -/
def Obligations.DecodeInvertsEncode : Prop :=
  ∀ i : Instr, i.wellFormed = true → decode (encode i) = .ok i

/-- Each word has one meaning: a word that decodes is the encoder's word of what it decodes to, and that command is
well formed (so no bit of a word is ignored). -/
def Obligations.EncodeInvertsDecode : Prop :=
  ∀ (w : Word32) (i : Instr), decode w = .ok i → encode i = w ∧ i.wellFormed = true

/-- R121's encoding functions and its two worked examples; further words of the rules' examples, one for each family
and format, read right. -/
def Obligations.DecodesWorkedExamples : Prop :=
  (∀ (opc : Fin 256) (rd rs1 rs2 : RegIdx), (encR opc.val rd rs1 rs2).toNat =
    opc.val * 2 ^ 24 + rd.val * 2 ^ 21 + rs1.val * 2 ^ 18 + rs2.val * 2 ^ 15) ∧
  (∀ (opc : Fin 256) (o t : Bool), (encB opc.val o t).toNat = opc.val * 2 ^ 24 + o.toNat * 2 + t.toNat) ∧
  encode (.cadd 2 0 1) = 0x15408000 ∧ decode 0x15408000 = .ok (.cadd 2 0 1) ∧
  encode (.fft true true) = 0x30000003 ∧ decode 0x30000003 = .ok (.fft true true) ∧
  decode 0x10250000 = .ok (.cmk 1 1 2) ∧ decode 0x19A40000 = .ok (.cmod 5 1) ∧
  decode 0x1EE00000 = .ok (.crand 7) ∧ decode 0x20200000 = .ok (.log2f 1 0) ∧
  decode 0x22000002 = .ok (.buildtbl true) ∧ decode 0x31050000 = .ok (.bfly 0 1 2) ∧
  decode 0x40040000 = .ok (.ldc 0 1) ∧ decode 0x41050000 = .ok (.stc 2 1)

/-- R253, R118, R117: a pending word with an unassigned opcode, a must-be-zero bit set, or a BFLY with RD = RS1
completes with ILLEGAL_COMMAND and does nothing else. -/
def Obligations.IllegalWordsOnlyComplete : Prop :=
  ∀ s : State, EngineReady s →
    (fieldOpc s.lastCmd < 0x10 ∨ fieldOpc s.lastCmd = 0x1F ∨
      (0x23 ≤ fieldOpc s.lastCmd ∧ fieldOpc s.lastCmd ≤ 0x2F) ∨
      (0x32 ≤ fieldOpc s.lastCmd ∧ fieldOpc s.lastCmd ≤ 0x3F) ∨ 0x42 ≤ fieldOpc s.lastCmd ∨
      (∃ row, opMap (fieldOpc s.lastCmd) = some row ∧ s.lastCmd &&& row.mask ≠ row.pattern) ∨
      (fieldOpc s.lastCmd = 0x31 ∧ fieldRd s.lastCmd = fieldRs1 s.lastCmd)) →
    step s = .next (raised (turned s) .illegalCommand)

/-! ## The step -/

/-- R67 and the model's own fetch (log 6, 7, 8): with a command pending, LASTCMD decoding to `i` and no race, a step
is `exec i` in the state with the script's engine entry taken; `withFetchWord` places a word so that the very next
step runs it; an idle engine has no step. -/
def Obligations.StepRunsDecodedCommand : Prop :=
  (∀ (s : State) (i : Instr), EngineReady s → s.raced = [] → decode s.lastCmd = .ok i →
    step s = exec i (turned s)) ∧
  (∀ (s : State) (w : Nat) (i : Instr), decodeTableWord 32 w = some i →
    step (s.withFetchWord 32 w) = exec i (s.withFetchWord 32 w)) ∧
  (∀ s : State, s.script = [] → s.status.busy = false → step s = .next s)

/-- R271, R67, R259: a pending command completes in its one engine step, with BUSY = 0 and DONE = 1, unless it reads a
byte never written. When the engine moves is the script's, the model's choice (log 6); that a command that raced a host
write completes too is the model's choice (log 11). -/
def Obligations.PendingCommandCompletes : Prop :=
  ∀ s : State, EngineReady s →
    (∃ t, step s = .next t ∧ t.status.busy = false ∧ t.status.done = true) ∨
    (∃ a, step s = .fault (.unwrittenByte a) ∧ s.mem.byte a = none)

/-! ## The complex arithmetic unit -/

/-- R152, R153, R154: CMK, CMKRE and CMKIM. -/
def Obligations.ConstructCommands : Prop :=
  (∀ cd xs1 xs2 : RegIdx, decode (encR 0x10 cd xs1 xs2) = .ok (.cmk cd xs1 xs2) ∧
    WritesC (.cmk cd xs1 xs2) cd (fun s => ⟨s.x xs1, s.x xs2⟩)) ∧ IllegalWhen 0x10 0x00007FFF ∧
  (∀ cd xs1 : RegIdx, decode (encR 0x11 cd xs1 0) = .ok (.cmkre cd xs1) ∧
    WritesC (.cmkre cd xs1) cd (fun s => ⟨s.x xs1, 0x0000000000000000⟩)) ∧ IllegalWhen 0x11 0x0003FFFF ∧
  (∀ cd xs1 : RegIdx, decode (encR 0x12 cd xs1 0) = .ok (.cmkim cd xs1) ∧
    WritesC (.cmkim cd xs1) cd (fun s => ⟨0x0000000000000000, s.x xs1⟩)) ∧ IllegalWhen 0x12 0x0003FFFF

/-- R155, R156 over R150, R151: CEQ and CEQR write 1 or 0; and R21: what the comparison under them is. -/
def Obligations.EqualityCommands : Prop :=
  (∀ xd cs1 cs2 : RegIdx, decode (encR 0x13 xd cs1 cs2) = .ok (.ceq xd cs1 cs2) ∧
    WritesX (.ceq xd cs1 cs2) xd (fun s =>
      if feq (s.c cs1).re (s.c cs2).re = true ∧ feq (s.c cs1).im (s.c cs2).im = true then 1 else 0)) ∧
  IllegalWhen 0x13 0x00007FFF ∧
  (∀ xd cs1 cs2 : RegIdx, decode (encR 0x14 xd cs1 cs2) = .ok (.ceqr xd cs1 cs2) ∧
    WritesX (.ceqr xd cs1 cs2) xd (fun s =>
      if feq (fround (s.c cs1).re) (fround (s.c cs2).re) = true ∧
        feq (fround (s.c cs1).im) (fround (s.c cs2).im) = true then 1 else 0)) ∧
  IllegalWhen 0x14 0x00007FFF ∧
  (∀ a b : F64, fview a = .nan ∨ fview b = .nan → feq a b = false) ∧
  (∀ (a b : F64) (p q : Bool), fview a = .fin p 0 → fview b = .fin q 0 → feq a b = true) ∧
  (∀ (a b : F64) (p q : Bool) (m n : Nat), fview a = .fin p m → fview b = .fin q n → m ≠ 0 ∨ n ≠ 0 →
    (feq a b = true ↔ p = q ∧ m = n)) ∧
  (∀ (a b : F64) (p q : Bool), fview a = .inf p → fview b = .inf q → (feq a b = true ↔ p = q)) ∧
  (∀ (a b : F64) (p q : Bool) (n : Nat), fview a = .inf p → fview b = .fin q n → feq a b = false ∧ feq b a = false)

/-- R157, R158 over R141, R142: CADD and CSUB. -/
def Obligations.AddSubtractCommands : Prop :=
  (∀ cd cs1 cs2 : RegIdx, decode (encR 0x15 cd cs1 cs2) = .ok (.cadd cd cs1 cs2) ∧
    WritesC (.cadd cd cs1 cs2) cd (fun s =>
      ⟨fadd (s.c cs1).re (s.c cs2).re, fadd (s.c cs1).im (s.c cs2).im⟩)) ∧ IllegalWhen 0x15 0x00007FFF ∧
  (∀ cd cs1 cs2 : RegIdx, decode (encR 0x16 cd cs1 cs2) = .ok (.csub cd cs1 cs2) ∧
    WritesC (.csub cd cs1 cs2) cd (fun s =>
      ⟨fsub (s.c cs1).re (s.c cs2).re, fsub (s.c cs1).im (s.c cs2).im⟩)) ∧ IllegalWhen 0x16 0x00007FFF

/-- R159, R160 over the formulas of R143 and R144: CMUL and CDIV, a zero divisor included. -/
def Obligations.MultiplyDivideCommands : Prop :=
  (∀ cd cs1 cs2 : RegIdx, decode (encR 0x17 cd cs1 cs2) = .ok (.cmul cd cs1 cs2) ∧
    WritesC (.cmul cd cs1 cs2) cd (fun s =>
      ⟨fsub (fmul (s.c cs1).re (s.c cs2).re) (fmul (s.c cs1).im (s.c cs2).im),
        fadd (fmul (s.c cs1).re (s.c cs2).im) (fmul (s.c cs1).im (s.c cs2).re)⟩)) ∧ IllegalWhen 0x17 0x00007FFF ∧
  (∀ cd cs1 cs2 : RegIdx, decode (encR 0x18 cd cs1 cs2) = .ok (.cdiv cd cs1 cs2) ∧
    WritesC (.cdiv cd cs1 cs2) cd (fun s =>
      ⟨fdiv (fadd (fmul (s.c cs1).re (s.c cs2).re) (fmul (s.c cs1).im (s.c cs2).im))
          (fadd (fmul (s.c cs2).re (s.c cs2).re) (fmul (s.c cs2).im (s.c cs2).im)),
        fdiv (fsub (fmul (s.c cs1).im (s.c cs2).re) (fmul (s.c cs1).re (s.c cs2).im))
          (fadd (fmul (s.c cs2).re (s.c cs2).re) (fmul (s.c cs2).im (s.c cs2).im))⟩)) ∧ IllegalWhen 0x18 0x00007FFF

/-- R161, R162 over R145, R146: CMOD and CARG write binary64 patterns to XR. CARG's value is the parameter F_ATAN's,
whatever it is. -/
def Obligations.ModulusArgumentCommands : Prop :=
  (∀ xd cs1 : RegIdx, decode (encR 0x19 xd cs1 0) = .ok (.cmod xd cs1) ∧
    WritesX (.cmod xd cs1) xd (fun s =>
      fsqrt (fadd (fmul (s.c cs1).re (s.c cs1).re) (fmul (s.c cs1).im (s.c cs1).im)))) ∧ IllegalWhen 0x19 0x0003FFFF ∧
  (∀ xd cs1 : RegIdx, decode (encR 0x1A xd cs1 0) = .ok (.carg xd cs1) ∧
    WritesX (.carg xd cs1) xd (fun s => canon (Config.fAtan (fdiv (s.c cs1).im (s.c cs1).re)))) ∧
  IllegalWhen 0x1A 0x0003FFFF

/-- R163, R164, R165 over R147 to R149: CEXP, CCONJ and CRECIP. CEXP's values are those of the parameters F_EXP,
F_COS and F_SIN, whatever they are. -/
def Obligations.ExpConjugateReciprocalCommands : Prop :=
  (∀ cd cs1 : RegIdx, decode (encR 0x1B cd cs1 0) = .ok (.cexp cd cs1) ∧
    WritesC (.cexp cd cs1) cd (fun s =>
      ⟨fmul (canon (Config.fExp (s.c cs1).re)) (canon (Config.fCos (s.c cs1).im)),
        fmul (canon (Config.fExp (s.c cs1).re)) (canon (Config.fSin (s.c cs1).im))⟩)) ∧ IllegalWhen 0x1B 0x0003FFFF ∧
  (∀ cd cs1 : RegIdx, decode (encR 0x1C cd cs1 0) = .ok (.cconj cd cs1) ∧
    WritesC (.cconj cd cs1) cd (fun s => ⟨(s.c cs1).re, (s.c cs1).im ^^^ 0x8000000000000000⟩)) ∧
  IllegalWhen 0x1C 0x0003FFFF ∧
  (∀ cd cs1 : RegIdx, decode (encR 0x1D cd cs1 0) = .ok (.crecip cd cs1) ∧
    WritesC (.crecip cd cs1) cd (fun s => cdiv ⟨0x3FF0000000000000, 0x0000000000000000⟩ (s.c cs1))) ∧
  IllegalWhen 0x1D 0x0003FFFF

/-- R166, R25: CRAND completes in every state and writes two components of U, for every value of the free draws; its
draws are the next two free values, and every element of U is the image of some free value. -/
def Obligations.RandomCommand : Prop :=
  (∀ cd : RegIdx, decode (encR 0x1E cd 0 0) = .ok (.crand cd) ∧
    ∀ s, ∃ t, exec (.crand cd) s = .next t ∧
      OnlyC s t cd ⟨unitDraw (Config.freeBits s.draws), unitDraw (Config.freeBits (s.draws + 1))⟩ 2) ∧
  IllegalWhen 0x1E 0x001FFFFF ∧
  (∀ b : Word64, (unitDraw b).toNat ≤ 0x3FF0000000000000) ∧
  (∀ v : F64, v.toNat ≤ 0x3FF0000000000000 → ∃ b, unitDraw b = v)

/-- R123: after CCOPY's expansion cd holds cs1's exact bit pattern, every other register and byte kept. -/
def Obligations.CopyPseudoCopies : Prop :=
  ∀ (cd cs1 : RegIdx) (s : State), ∃ t u, Pseudo.expand (.ccopy cd cs1) = [.cconj cd cs1, .cconj cd cd] ∧
    exec (.cconj cd cs1) s = .next t ∧ exec (.cconj cd cd) t = .next u ∧ OnlyC s u cd (s.c cs1) 0

/-- R143: the complex product is four rounded products and two rounded sums, and does not depend on the order of its
operands, bit for bit. -/
def Obligations.ProductCommutes : Prop :=
  ∀ z w : Cplx,
    cmul z w = ⟨fsub (fmul z.re w.re) (fmul z.im w.im), fadd (fmul z.re w.im) (fmul z.im w.re)⟩ ∧
    cmul z w = cmul w z

/-- R144, R149, R257: dividing by the zero complex number, with either sign on either component, gives (CNAN, CNAN)
for every dividend, and CDIV and CRECIP complete with ERR = 0. -/
def Obligations.ZeroDivisorGivesNaN : Prop :=
  ∀ (z : Cplx) (p q : Bool), fview z.re = .fin p 0 → fview z.im = .fin q 0 →
    (∀ w : Cplx, cdiv w z = ⟨0x7FF8000000000000, 0x7FF8000000000000⟩) ∧
    (∀ (cd cs1 cs2 : RegIdx) (s : State), s.c cs2 = z → ∃ t, exec (.cdiv cd cs1 cs2) s = .next t ∧
      t.c cd = ⟨0x7FF8000000000000, 0x7FF8000000000000⟩ ∧ t.status.err = .none) ∧
    (∀ (cd cs1 : RegIdx) (s : State), s.c cs1 = z → ∃ t, exec (.crecip cd cs1) s = .next t ∧
      t.c cd = ⟨0x7FF8000000000000, 0x7FF8000000000000⟩ ∧ t.status.err = .none)

/-- R145: the modulus is never negative and never -0.0: its sign bit is 0 for every operand. -/
def Obligations.ModulusNeverNegative : Prop :=
  ∀ (z : Cplx), (cmod z).getLsbD 63 = false ∧
    (fview z.re = .nan ∨ fview z.im = .nan → cmod z = 0x7FF8000000000000)

/-! ## The binary64 primitives -/

/-- R16: the sum and the difference of finite values are correctly rounded; an exact zero sum is -0.0 only when both
operands are negative, and an exact zero difference only when -0.0 has +0.0 taken from it (R158: x - x is +0.0). -/
def Obligations.SumRoundsToNearest : Prop :=
  ∀ (a b : F64) (p q : Bool) (m n : Nat), fview a = .fin p m → fview b = .fin q n →
    RoundsTo (unitsOf p m + unitsOf q n) (fadd a b) ∧ RoundsTo (unitsOf p m - unitsOf q n) (fsub a b) ∧
    (unitsOf p m + unitsOf q n = 0 → fsign (fadd a b) = (p && q)) ∧
    (unitsOf p m - unitsOf q n = 0 → fsign (fsub a b) = (p && !q))

/-- R16: the product of finite values is correctly rounded, its sign the exclusive or of the signs. -/
def Obligations.ProductRoundsToNearest : Prop :=
  ∀ (a b : F64) (p q : Bool) (m n : Nat), fview a = .fin p m → fview b = .fin q n →
    RoundsTo (unitsOf p m * unitsOf q n / 2 ^ 1074) (fmul a b) ∧ fsign (fmul a b) = (p ^^ q)

/-- R16: the quotient of finite values by a nonzero value is correctly rounded, its sign the exclusive or. -/
def Obligations.QuotientRoundsToNearest : Prop :=
  ∀ (a b : F64) (p q : Bool) (m n : Nat), fview a = .fin p m → fview b = .fin q n → n ≠ 0 →
    RoundsTo (unitsOf p m / unitsOf q n * 2 ^ 1074) (fdiv a b) ∧ fsign (fdiv a b) = (p ^^ q)

/-- R17: the square root of a positive finite value is correctly rounded; -0.0, +inf, negative values and NaN as the
rule says. -/
def Obligations.SquareRootRoundsToNearest : Prop :=
  (∀ (a : F64) (m : Nat), fview a = .fin false m → m ≠ 0 → RoundsTo (Real.sqrt (m * 2 ^ 1074)) (fsqrt a)) ∧
  fsqrt 0x0000000000000000 = 0x0000000000000000 ∧ fsqrt 0x8000000000000000 = 0x8000000000000000 ∧
  fsqrt 0x7FF0000000000000 = 0x7FF0000000000000 ∧ fsqrt 0xFFF0000000000000 = 0x7FF8000000000000 ∧
  (∀ (a : F64) (m : Nat), fview a = .fin true m → m ≠ 0 → fsqrt a = 0x7FF8000000000000) ∧
  (∀ a : F64, fview a = .nan → fsqrt a = 0x7FF8000000000000)

/-- R15: what a pattern stands for; R16, R18: infinities, zeros and NaNs in sums, products and quotients. -/
def Obligations.NonFiniteOperands : Prop :=
  (∀ a : F64, fview a =
    if (a.extractLsb' 52 11).toNat = 2047 then
      if (a.extractLsb' 0 52).toNat = 0 then .inf (a.getLsbD 63) else .nan
    else if (a.extractLsb' 52 11).toNat = 0 then .fin (a.getLsbD 63) (a.extractLsb' 0 52).toNat
    else .fin (a.getLsbD 63) ((2 ^ 52 + (a.extractLsb' 0 52).toNat) * 2 ^ ((a.extractLsb' 52 11).toNat - 1))) ∧
  (∀ (a b : F64), fview a = .nan ∨ fview b = .nan →
    fadd a b = 0x7FF8000000000000 ∧ fsub a b = 0x7FF8000000000000 ∧ fmul a b = 0x7FF8000000000000 ∧
    fdiv a b = 0x7FF8000000000000) ∧
  (∀ (a b : F64) (p q : Bool), fview a = .inf p → fview b = .inf q →
    fview (fadd a b) = (if p = q then .inf p else .nan) ∧ fview (fsub a b) = (if p = q then .nan else .inf p) ∧
    fview (fmul a b) = .inf (p ^^ q) ∧ fview (fdiv a b) = .nan) ∧
  (∀ (a b : F64) (p q : Bool) (n : Nat), fview a = .inf p → fview b = .fin q n →
    fview (fadd a b) = .inf p ∧ fview (fadd b a) = .inf p ∧ fview (fsub a b) = .inf p ∧
    fview (fsub b a) = .inf (!p) ∧ fview (fmul a b) = (if n = 0 then .nan else .inf (p ^^ q)) ∧
    fview (fmul b a) = (if n = 0 then .nan else .inf (p ^^ q)) ∧
    fview (fdiv a b) = .inf (p ^^ q) ∧ fview (fdiv b a) = .fin (p ^^ q) 0) ∧
  (∀ (a b : F64) (p q : Bool) (m : Nat), fview a = .fin p m → fview b = .fin q 0 →
    fview (fdiv a b) = if m = 0 then .nan else .inf (p ^^ q))

/-- R18: every NaN that a rounding primitive, `fround` or an elementary function gives is the canonical NaN. -/
def Obligations.NaNResultsAreCanonical : Prop :=
  (∀ a b : F64, (fview (fadd a b) = .nan → fadd a b = 0x7FF8000000000000) ∧
    (fview (fsub a b) = .nan → fsub a b = 0x7FF8000000000000) ∧
    (fview (fmul a b) = .nan → fmul a b = 0x7FF8000000000000) ∧
    (fview (fdiv a b) = .nan → fdiv a b = 0x7FF8000000000000)) ∧
  (∀ a : F64, (fview (fsqrt a) = .nan → fsqrt a = 0x7FF8000000000000) ∧
    (fview (fround a) = .nan → fround a = 0x7FF8000000000000) ∧
    (fview (canon a) = .nan → canon a = 0x7FF8000000000000) ∧ (fview a ≠ .nan → canon a = a))

/-- R20: `fround` gives the nearest integral value, halves away from zero, with the operand's sign; it is exact, and
zeros, infinities and NaN are as the rule says. -/
def Obligations.RoundsHalvesAway : Prop :=
  (∀ (a : F64) (p : Bool) (m : Nat), fview a = .fin p m →
    ∃ n : Nat, fview (fround a) = .fin p (n * 2 ^ 1074) ∧
      n * 2 ^ 1074 ≤ m + 2 ^ 1073 ∧ m + 2 ^ 1073 < (n + 1) * 2 ^ 1074) ∧
  (∀ a : F64, fview a = .fin (fsign a) 0 → fround a = a) ∧
  (∀ (a : F64) (p : Bool), fview a = .inf p → fround a = a) ∧
  (∀ a : F64, fview a = .nan → fround a = 0x7FF8000000000000)

/-! ## Bit reversal -/

/-- R192, R190: LOG2F writes -1 as all ones for 0, and otherwise the k with 2^k <= n < 2^(k+1). -/
def Obligations.Log2Command : Prop :=
  (∀ xd xs1 : RegIdx, decode (encR 0x20 xd xs1 0) = .ok (.log2f xd xs1) ∧
    ∀ s, ∃ t v, exec (.log2f xd xs1) s = .next t ∧ OnlyX s t xd v ∧
      ((s.x xs1).toNat = 0 → v = 0xFFFFFFFFFFFFFFFF) ∧
      ((s.x xs1).toNat ≠ 0 → 2 ^ v.toNat ≤ (s.x xs1).toNat ∧ (s.x xs1).toNat < 2 ^ (v.toNat + 1))) ∧
  IllegalWhen 0x20 0x0003FFFF

/-- R193, R191: BREV reverses the low L bits of n for a size 2^L and raises INVALID_SIZE for any other size. -/
def Obligations.BitReverseCommand : Prop :=
  (∀ xd xs1 xs2 : RegIdx, decode (encR 0x21 xd xs1 xs2) = .ok (.brev xd xs1 xs2) ∧
    ∀ s, (∀ L : Nat, (s.x xs1).toNat = 2 ^ L → ∃ t v, exec (.brev xd xs1 xs2) s = .next t ∧ OnlyX s t xd v ∧
        ∀ j, v.getLsbD j = (decide (j < L) && (s.x xs2).getLsbD (L - 1 - j))) ∧
      (¬ Pow2 (s.x xs1).toNat → exec (.brev xd xs1 xs2) s = .next (raised s .invalidSize))) ∧
  IllegalWhen 0x21 0x00007FFF

/-- R195: for every power of two the bit reversal stays in range, is its own inverse, and its table is a permutation. -/
def Obligations.ReversalIsInvolution : Prop :=
  ∀ L : Nat, L < 64 →
    (∀ k, k < 2 ^ L → bitReverse (2 ^ L) k < 2 ^ L ∧ bitReverse (2 ^ L) (bitReverse (2 ^ L) k) = k) ∧
    (tableOf (2 ^ L)).Nodup ∧ (tableOf (2 ^ L)).length = 2 ^ L ∧
    ∀ k, k < 2 ^ L → (tableOf (2 ^ L))[k]? = some (bitReverse (2 ^ L) k)

/-- R194, O = 1: BUILDTBL.O writes the table at TBL_BASE. -/
def Obligations.BuildTableInPlace : Prop :=
  ∀ s : State, Pow2 (sizeN s) → Placed s 4 s.tblBase.toNat (4 * sizeN s) →
    ∃ t, exec (.buildtbl true) s = .next t ∧
      (∀ k, k < sizeN s → memRead t.mem (s.tblBase.toNat + 4 * k) 4 = .ok (bitReverse (sizeN s) k)) ∧
      BufferResult s t true s.tblBase.toNat (4 * sizeN s) ∧ t.tblLen = s.size ∧ t.tblBase = s.tblBase

/-- R194, O = 0: BUILDTBL writes the table in a block of the pool and points TBL_BASE at it. -/
def Obligations.BuildTableInPool : Prop :=
  ∀ s : State, Pow2 (sizeN s) → PoolRoom s (4 * sizeN s) →
    ∃ t, exec (.buildtbl false) s = .next t ∧
      (∀ k, k < sizeN s → memRead t.mem (16 * s.allocPtr.toNat + 4 * k) 4 = .ok (bitReverse (sizeN s) k)) ∧
      BufferResult s t false (16 * s.allocPtr.toNat) (4 * sizeN s) ∧ t.tblLen = s.size ∧ t.tblBase = t.resBase

/-- R194, R251, R252, R254: when BUILDTBL raises, which code, and that nothing else changes. -/
def Obligations.BuildTableErrors : Prop :=
  ∀ (s : State) (o : Bool),
    (¬ Pow2 (sizeN s) → exec (.buildtbl o) s = .next (raised s .invalidSize)) ∧
    (Pow2 (sizeN s) → o = true → ¬ Placed s 4 s.tblBase.toNat (4 * sizeN s) →
      exec (.buildtbl o) s = .next (raised s .addressError)) ∧
    (Pow2 (sizeN s) → o = false → ¬ PoolRoom s (4 * sizeN s) →
      exec (.buildtbl o) s = .next (raised s .allocationFailure))

/-! ## The butterfly engine -/

/-- R210: BFLY on three registers, w possibly one of the other two; RD = RS1 is no command, and raises. -/
def Obligations.ButterflyCommand : Prop :=
  (∀ cd cs1 cs2 : RegIdx, cd ≠ cs1 → decode (encR 0x31 cd cs1 cs2) = .ok (.bfly cd cs1 cs2) ∧
    ∀ s, ∃ t, exec (.bfly cd cs1 cs2) s = .next t ∧
      t.c cd = cadd (s.c cd) (cmul (s.c cs2) (s.c cs1)) ∧ t.c cs1 = csub (s.c cd) (cmul (s.c cs2) (s.c cs1)) ∧
      (∀ r, r ≠ cd → r ≠ cs1 → t.c r = s.c r) ∧
      (∀ r : RegIdx, t.crWritten[r.val] = if r = cd ∨ r = cs1 then ⟨true, true⟩ else s.crWritten[r.val]) ∧
      SameX s t ∧ SameBytes s t ∧ SameSetup s t ∧ SameResults s t ∧ t.draws = s.draws ∧
      Completed s t .none s.status.alloc) ∧
  (∀ cd cs2 : RegIdx, decode (encR 0x31 cd cd cs2) = .error .bflySameRegister ∧
    ∀ s, exec (.bfly cd cd cs2) s = .next (raised s .illegalCommand)) ∧
  IllegalWhen 0x31 0x00007FFF

/-- R214, R215, R212, R213: FFT in all four forms. With every check passed and the input written, the output elements
are those of the two phases, slot by slot and stage by stage (TwoPhases, which is written from the rules), and nothing
outside the output range and the result registers changes. -/
def Obligations.TransformCompletes : Prop :=
  ∀ (s : State) (o t : Bool) (perm : List Nat) (input : List Cplx), FftPlaced s o t → FftPermutes s t perm →
    readElements s.mem s.inBase.toNat (sizeN s) = .ok input →
    ∃ u, exec (.fft o t) s = .next u ∧ input.length = sizeN s ∧ (transform perm input).length = sizeN s ∧
      (∀ (i : Nat) (z : Cplx), (transform perm input)[i]? = some z →
        readC u.mem (outBaseOf s o + 16 * i) = .ok z) ∧
      (∀ L : Nat, sizeN s = 2 ^ L → ∃ out : Nat → Nat → Cplx, TwoPhases L perm input out ∧
        ∀ i, i < 2 ^ L → readC u.mem (outBaseOf s o + 16 * i) = .ok (out L i)) ∧
      BufferResult s u o (outBaseOf s o) (16 * sizeN s) ∧ u.tblBase = s.tblBase ∧ u.tblLen = s.tblLen

/-- R258, R251 to R256: FFT raises the first code in the order of R258, and changes nothing else; a table is looked at
only when every earlier check passes. -/
def Obligations.TransformRaisesFirstError : Prop :=
  ∀ (s : State) (o t : Bool) (es : List Nat) (c : ErrCode), fftFirstError s o t es = some c →
    (c = .tableInvalid → readEntries s.mem s.tblBase.toNat (sizeN s) = .ok es) →
    exec (.fft o t) s = .next (raised s c)

/-- R211: the stage twiddle factor. The angle is exactly -2 pi / 2^s of PI64, its exponent field one less for each
further stage; the factor's values are those of the parameters F_EXP, F_COS and F_SIN, whatever they are. -/
def Obligations.StageTwiddleFactor : Prop :=
  ∀ stage : Nat, 1 ≤ stage → stage ≤ 31 →
    (theta stage).toNat = 0xC00921FB54442D18 - (stage - 1) * 2 ^ 52 ∧
    stageTwiddle stage =
      ⟨fmul (canon (Config.fExp 0x0000000000000000)) (canon (Config.fCos (theta stage))),
        fmul (canon (Config.fExp 0x0000000000000000)) (canon (Config.fSin (theta stage)))⟩

/-- R219: the impulse response. When every running twiddle is finite (the rule's premise on F_EXP, F_COS and F_SIN), a
successful transform of (1.0, +0.0) followed by (+0.0, +0.0) elements gives elements of real part exactly 1.0, zero
imaginary part and modulus exactly 1.0. A table must send slot 0 to slot 0, as every bit reversal does. -/
def Obligations.ImpulseResponse : Prop :=
  ∀ (s u : State) (o t : Bool) (L : Nat), sizeN s = 2 ^ L → TwiddlesFinite L →
    readC s.mem s.inBase.toNat = .ok ⟨0x3FF0000000000000, 0x0000000000000000⟩ →
    (∀ k, 1 ≤ k → k < 2 ^ L →
      readC s.mem (s.inBase.toNat + 16 * k) = .ok ⟨0x0000000000000000, 0x0000000000000000⟩) →
    (t = true → memRead s.mem s.tblBase.toNat 4 = .ok 0) →
    exec (.fft o t) s = .next u → u.status.err = .none →
    ∀ i, i < 2 ^ L → ∃ im p, readC u.mem (u.resBase.toNat + 16 * i) = .ok ⟨0x3FF0000000000000, im⟩ ∧
      fview im = .fin p 0 ∧ cmod ⟨0x3FF0000000000000, im⟩ = 0x3FF0000000000000

/-- R220: a transform of one element is the identity bit for bit, and one of two elements without a table is the
two-point butterfly with w = ONE; neither depends on the parameters F_EXP, F_COS and F_SIN. -/
def Obligations.SmallTransforms : Prop :=
  ∀ (s u : State) (o t : Bool), exec (.fft o t) s = .next u → u.status.err = .none →
    (sizeN s = 1 → ∃ z, readC s.mem s.inBase.toNat = .ok z ∧ readC u.mem u.resBase.toNat = .ok z) ∧
    (sizeN s = 2 → t = false → ∃ x0 x1, readC s.mem s.inBase.toNat = .ok x0 ∧
      readC s.mem (s.inBase.toNat + 16) = .ok x1 ∧
      readC u.mem u.resBase.toNat = .ok (cadd x0 (cmul ⟨0x3FF0000000000000, 0⟩ x1)) ∧
      readC u.mem (u.resBase.toNat + 16) = .ok (csub x0 (cmul ⟨0x3FF0000000000000, 0⟩ x1)))

/-- R216: with a table that BUILDTBL built for the same N and nothing has written since, FFT.T ends in the very state
that FFT without a table ends in. -/
def Obligations.TableAndNoTableAgree : Prop :=
  ∀ (s s1 s2 u : State) (o o' : Bool), exec (.buildtbl o') s = .next s1 → s1.status.err = .none →
    s2.size = s1.size → s2.tblBase = s1.tblBase → s2.tblLen = s1.tblLen →
    (∀ k, k < 4 * sizeN s1 → s2.mem.byte (s1.tblBase.toNat + k) = s1.mem.byte (s1.tblBase.toNat + k)) →
    exec (.fft o true) s2 = .next u → u.status.err = .none → exec (.fft o false) s2 = .next u

/-- R217: the output bytes of a successful transform are a function of N, the input bytes and, with T = 1, the table
bytes: not of where the buffers lie, of the output mode, or of any other state. -/
def Obligations.TransformIsDeterministic : Prop :=
  ∀ (s1 s2 u1 u2 : State) (o1 o2 t : Bool), s1.size = s2.size →
    (∀ k, k < 16 * sizeN s1 → s1.mem.byte (s1.inBase.toNat + k) = s2.mem.byte (s2.inBase.toNat + k)) →
    (t = true → ∀ k, k < 4 * sizeN s1 → s1.mem.byte (s1.tblBase.toNat + k) = s2.mem.byte (s2.tblBase.toNat + k)) →
    exec (.fft o1 t) s1 = .next u1 → u1.status.err = .none → exec (.fft o2 t) s2 = .next u2 →
    u2.status.err = .none →
    ∀ k, k < 16 * sizeN s1 → u1.mem.byte (u1.resBase.toNat + k) = u2.mem.byte (u2.resBase.toNat + k)

/-- R92, R93: an allocated block lies in the pool and in BMEM, 16-byte aligned and large enough; and after a
successful engine-allocated FFT or BUILDTBL the next block starts at or above the end of the one it used. -/
def Obligations.PoolBlocksAreDisjoint : Prop :=
  (∀ (s : State) (size base stop : Nat), alloc s size = some (base, stop) →
    16 * s.poolBase.toNat ≤ base ∧ stop ≤ 16 * s.poolLimit.toNat ∧ stop ≤ s.bmemBytes ∧ base % 16 = 0 ∧
    stop % 16 = 0 ∧ base + size ≤ stop) ∧
  (∀ (s u : State) (i : Instr) (len size base stop : Nat),
    (i = .buildtbl false ∧ len = 4 * sizeN s ∨ ∃ t, i = .fft false t ∧ len = 16 * sizeN s) →
    exec i s = .next u → u.status.err = .none → alloc u size = some (base, stop) → u.resBase.toNat + len ≤ base)

/-! ## Transfers -/

/-- R240: LDC moves the sixteen bytes at x[xs1] into cd bit for bit, or raises ADDRESS_ERROR. -/
def Obligations.LoadElement : Prop :=
  (∀ cd xs1 : RegIdx, decode (encR 0x40 cd xs1 0) = .ok (.ldc cd xs1) ∧
    ∀ s, (∀ re im : Word64, Placed s 8 (s.x xs1).toNat 16 → HoldsWord s.mem (s.x xs1).toNat re →
        HoldsWord s.mem ((s.x xs1).toNat + 8) im → ∃ t, exec (.ldc cd xs1) s = .next t ∧ OnlyC s t cd ⟨re, im⟩ 0) ∧
      (¬ Placed s 8 (s.x xs1).toNat 16 → exec (.ldc cd xs1) s = .next (raised s .addressError))) ∧
  IllegalWhen 0x40 0x0003FFFF

/-- R241: STC writes the sixteen bytes of cs2 at x[xs1], real part first, and no other byte, or raises
ADDRESS_ERROR. -/
def Obligations.StoreElement : Prop :=
  (∀ cs2 xs1 : RegIdx, decode (encR 0x41 0 xs1 cs2) = .ok (.stc cs2 xs1) ∧
    ∀ s, (Placed s 8 (s.x xs1).toNat 16 → ∃ t, exec (.stc cs2 xs1) s = .next t ∧
        HoldsWord t.mem (s.x xs1).toNat (s.c cs2).re ∧ HoldsWord t.mem ((s.x xs1).toNat + 8) (s.c cs2).im ∧
        SameBytesOutside s t (s.x xs1).toNat 16 ∧ SameX s t ∧ SameC s t ∧ SameSetup s t ∧ SameResults s t ∧
        t.draws = s.draws ∧ Completed s t .none s.status.alloc) ∧
      (¬ Placed s 8 (s.x xs1).toNat 16 → exec (.stc cs2 xs1) s = .next (raised s .addressError))) ∧
  IllegalWhen 0x41 0x00E07FFF

/-- R91, R282: a read of a byte never written faults, by LDC, by FFT's input and its table, and by the host's port; the
fault names such a byte of the range read. That the table is read whole, before it is judged, and before the input is
log 23. -/
def Obligations.UnwrittenByteFaults : Prop :=
  (∀ (s : State) (cd xs1 : RegIdx), Placed s 8 (s.x xs1).toNat 16 →
    (∃ k, k < 16 ∧ s.mem.byte ((s.x xs1).toNat + k) = none) →
    ∃ a, exec (.ldc cd xs1) s = .fault (.unwrittenByte a) ∧ (s.x xs1).toNat ≤ a ∧ a < (s.x xs1).toNat + 16 ∧
      s.mem.byte a = none) ∧
  (∀ (s : State) (o t : Bool) (perm : List Nat), FftPlaced s o t → FftPermutes s t perm →
    (∃ k, k < 16 * sizeN s ∧ s.mem.byte (s.inBase.toNat + k) = none) →
    ∃ a, exec (.fft o t) s = .fault (.unwrittenByte a) ∧ s.inBase.toNat ≤ a ∧ a < s.inBase.toNat + 16 * sizeN s ∧
      s.mem.byte a = none) ∧
  (∀ (s : State) (o : Bool), FftPlaced s o true →
    (∃ k, k < 4 * sizeN s ∧ s.mem.byte (s.tblBase.toNat + k) = none) →
    ∃ a, exec (.fft o true) s = .fault (.unwrittenByte a) ∧ s.tblBase.toNat ≤ a ∧
      a < s.tblBase.toNat + 4 * sizeN s ∧ s.mem.byte a = none) ∧
  (∀ (s : State) (addr width : Nat) (rest : List Turn), HostNext s (.memRead addr width) rest → Idle s →
    portAccessOk s addr width = true → (∃ k, k < width ∧ s.mem.byte (addr + k) = none) →
    ∃ a, step s = .fault (.unwrittenByte a) ∧ addr ≤ a ∧ a < addr + width ∧ s.mem.byte a = none)

/-! ## Errors and completion -/

/-- R260, R13: whatever the command, a completion with an error code leaves everything but ERR, BUSY and DONE as it
was: no register, no byte, no allocator state. -/
def Obligations.ErrorsHaveNoPartialEffects : Prop :=
  ∀ (i : Instr) (s t : State), exec i s = .next t → t.status.err ≠ .none → t = raised s t.status.err

/-- R259, R51: every command that ends does so with BUSY = 0, DONE = 1 and HZ untouched, and STATUS.ALLOC, RES_BASE,
ALLOC_PTR, TBL_BASE and TBL_LEN change only in a successful FFT or BUILDTBL. -/
def Obligations.CompletionOfEveryCommand : Prop :=
  ∀ (i : Instr) (s t : State), exec i s = .next t →
    t.status.busy = false ∧ t.status.done = true ∧ t.status.hz = s.status.hz ∧ SameSetup s t ∧
    (t.status.alloc ≠ s.status.alloc ∨ ¬ SameResults s t →
      t.status.err = .none ∧ ((∃ o, i = .buildtbl o) ∨ ∃ o b, i = .fft o b))

/-- R250: which commands can report which codes. -/
def Obligations.CodesByCommand : Prop :=
  ∀ (i : Instr) (s t : State), exec i s = .next t →
    (t.status.err = .invalidSize →
      (∃ a b c, i = .brev a b c) ∨ (∃ o, i = .buildtbl o) ∨ ∃ o b, i = .fft o b) ∧
    (t.status.err = .allocationFailure → i = .buildtbl false ∨ ∃ b, i = .fft false b) ∧
    (t.status.err = .illegalCommand → ∃ a b, i = .bfly a a b) ∧
    (t.status.err = .addressError →
      (∃ o b, i = .fft o b) ∨ i = .buildtbl true ∨ (∃ a b, i = .ldc a b) ∨ ∃ a b, i = .stc a b) ∧
    (t.status.err = .overlap → ∃ o b, i = .fft o b) ∧
    (t.status.err = .tableInvalid → ∃ o, i = .fft o true)

/-! ## The host's interface -/

/-- R47, R66: a host read of STATUS returns its fields in their places and 0 elsewhere, at any time out of reset, and
changes no state of the block. -/
def Obligations.StatusReadsItsFields : Prop :=
  ∀ (s : State) (rest : List Turn), HostNext s (.regRead 0x008 8) rest → s.resetAsserted = false →
    ∃ v : Word64, step s = .next { s with script := rest, readData := v } ∧
      v.getLsbD 0 = s.status.busy ∧ v.getLsbD 1 = s.status.done ∧ v.extractLsb' 2 2 = 0 ∧
      (v.extractLsb' 4 4).toNat = s.status.err.code ∧ v.getLsbD 8 = false ∧ v.getLsbD 9 = s.status.alloc ∧
      v.getLsbD 10 = s.status.hz ∧ v.extractLsb' 11 53 = 0

/-- R49, R52, R48, R262: a host write to STATUS clears DONE where bit 1 is 1 and HZ where bit 10 is 1 and changes
nothing else, pending command or not; irq is DONE and IE. -/
def Obligations.StatusWriteOneClears : Prop :=
  ∀ (s : State) (v : Word64) (rest : List Turn), HostNext s (.regWrite 0x008 8 v) rest → s.resetAsserted = false →
    ∃ t, step s = .next t ∧
      t = { s with
        script := rest
        status := ⟨s.status.busy, s.status.done && !v.getLsbD 1, s.status.err, s.status.alloc,
          s.status.hz && !v.getLsbD 10⟩ } ∧
      t.irq = (s.status.done && !v.getLsbD 1 && s.ie)

/-- R54, R286: a CMD write while idle issues bits 31:0, clearing DONE and setting BUSY; while BUSY it is dropped and
sets HZ. -/
def Obligations.CommandWriteIssuesOrDrops : Prop :=
  ∀ (s : State) (v : Word64) (rest : List Turn), HostNext s (.regWrite 0x018 8 v) rest → s.resetAsserted = false →
    (s.status.busy = false → ∃ t, step s = .next t ∧ t.lastCmd.toNat = v.toNat % 2 ^ 32 ∧
      t = { s with script := rest, lastCmd := t.lastCmd,
                   status := ⟨true, false, s.status.err, s.status.alloc, s.status.hz⟩ }) ∧
    (s.status.busy = true → step s = .next { s with
      script := rest, status := ⟨true, s.status.done, s.status.err, s.status.alloc, true⟩ })

/-- R287: while BUSY = 1 a host write to any operand register keeps the register and sets HZ, and nothing else; a write
to CTRL writes IE, a write to STATUS clears DONE and HZ where its bits are 1, and a write to ID, RES_BASE or a reserved
offset is ignored, all without setting HZ. -/
def Obligations.OperandRegistersFrozen : Prop :=
  ∀ (s : State) (offset : BitVec 12) (v : Word64) (rest : List Turn), HostNext s (.regWrite offset 8 v) rest →
    s.resetAsserted = false → s.status.busy = true → offset.toNat % 8 = 0 →
    (((0x020 ≤ offset.toNat ∧ offset.toNat ≤ 0x040) ∨ (0x050 ≤ offset.toNat ∧ offset.toNat ≤ 0x060) ∨
      (0x080 ≤ offset.toNat ∧ offset.toNat ≤ 0x0B8) ∨ (0x100 ≤ offset.toNat ∧ offset.toNat ≤ 0x178)) →
      step s = .next { s with
        script := rest, status := ⟨true, s.status.done, s.status.err, s.status.alloc, true⟩ }) ∧
    (offset = 0x010 → step s = .next { s with script := rest, ie := v.getLsbD 0 }) ∧
    (offset = 0x008 → step s = .next { s with
        script := rest
        status := ⟨true, s.status.done && !v.getLsbD 1, s.status.err, s.status.alloc, s.status.hz && !v.getLsbD 10⟩ }) ∧
    ((offset = 0x000 ∨ offset = 0x048 ∨ (0x068 ≤ offset.toNat ∧ offset.toNat ≤ 0x078) ∨
      (0x0C0 ≤ offset.toNat ∧ offset.toNat ≤ 0x0F8) ∨ 0x180 ≤ offset.toNat) → step s = .next { s with script := rest })

/-- R45, R46, R53 to R64: the whole register map while idle. A host write changes the one register (or the one
component of a CR register) it names, and marks it written (R282), and nothing else; a host read of the same offset
next returns the bits the register holds, ID and RES_BASE their own values, and 0 at reserved offsets. CMD and STATUS
have statements of their own. -/
def Obligations.RegisterMapReadsBack : Prop :=
  ∀ (s : State) (offset : BitVec 12) (v : Word64) (rest : List Turn),
    s.script = .host (.regWrite offset 8 v) :: .host (.regRead offset 8) :: rest → Idle s → offset.toNat % 8 = 0 →
    offset ≠ 0x008 → offset ≠ 0x018 →
    ∃ t u, step s = .next t ∧ RegisterWritten { s with script := .host (.regRead offset 8) :: rest } t offset v ∧
      step t = .next u ∧ u.script = rest ∧ u.readData.toNat =
      if offset = 0x000 then 0x0000000757415645
      else if offset = 0x010 then v.toNat % 2
      else if 0x020 ≤ offset.toNat ∧ offset.toNat ≤ 0x040 then v.toNat % 2 ^ 32
      else if offset = 0x048 then s.resBase.toNat
      else if 0x050 ≤ offset.toNat ∧ offset.toNat ≤ 0x060 then v.toNat % 2 ^ 32 / 16 * 16
      else if 0x080 ≤ offset.toNat ∧ offset.toNat < 0x0C0 then v.toNat
      else if 0x100 ≤ offset.toNat ∧ offset.toNat < 0x180 then v.toNat
      else 0

/-- R66, R288, R65: a register read of any offset and width, at any time, changes nothing but the value returned to
the host and the model's own count of draws (log 5, log 13, log 17). Out of reset a supported read of ID, CTRL or CMD
returns its value, CMD's being LASTCMD (R54), whether a command is pending or not, and while idle so does every other
register. That an XR or CR register which nothing has written is read so too is the model's choice (log 1). -/
def Obligations.RegisterReadsHaveNoSideEffect : Prop :=
  (∀ (s : State) (offset : BitVec 12) (width : Nat) (rest : List Turn), HostNext s (.regRead offset width) rest →
    ∃ (v : Word64) (k : Nat), step s = .next { s with script := rest, readData := v, draws := s.draws + k }) ∧
  (∀ (s : State) (offset : BitVec 12) (rest : List Turn), HostNext s (.regRead offset 8) rest →
    s.resetAsserted = false → offset.toNat % 8 = 0 →
    ∃ (v : Word64) (k : Nat), step s = .next { s with script := rest, readData := v, draws := s.draws + k } ∧
      AlwaysReads s offset v.toNat ∧ (s.status.busy = false → IdleReads s offset v.toNat))

/-- R65, R89, R280: a register write of another width or alignment, an unsupported BMEM write, and any write while
reset is asserted are ignored (for a BMEM write during reset that is the model's choice, log 9). -/
def Obligations.UnsupportedWritesIgnored : Prop :=
  (∀ (s : State) (offset : BitVec 12) (width : Nat) (v : Word64) (rest : List Turn),
    HostNext s (.regWrite offset width v) rest → (s.resetAsserted = true ∨ width ≠ 8 ∨ offset.toNat % 8 ≠ 0) →
    step s = .next { s with script := rest }) ∧
  (∀ (s : State) (addr width : Nat) (v : Word64) (rest : List Turn), HostNext s (.memWrite addr width v) rest →
    (s.resetAsserted = true ∨ (width ≠ 1 ∧ width ≠ 2 ∧ width ≠ 4 ∧ width ≠ 8) ∨ addr % width ≠ 0 ∨
      s.bmemBytes < addr + width) →
    step s = .next { s with script := rest })

/-- R89, R82, R103: while idle, what the host writes to BMEM with one width it reads back, cut to the width; a byte
outside the access keeps its value, and so does every register, STATUS and every control register among them; a read
changes no byte. -/
def Obligations.PortReadsBackWrites : Prop :=
  ∀ (s : State) (addr width : Nat) (v : Word64) (rest : List Turn),
    s.script = .host (.memWrite addr width v) :: .host (.memRead addr width) :: rest → Idle s →
    width ∈ [1, 2, 4, 8] → addr % width = 0 → addr + width ≤ s.bmemBytes →
    ∃ t u, step s = .next t ∧ step t = .next u ∧ u.readData.toNat = v.toNat % 256 ^ width ∧
      SameBytesOutside s u addr width ∧
      (∀ k, k < width → u.mem.byte (addr + k) = some (v.extractLsb' (8 * k) 8)) ∧
      t = { s with script := .host (.memRead addr width) :: rest, mem := t.mem } ∧
      u = { s with script := rest, mem := t.mem, readData := u.readData, draws := u.draws }

/-- R89 under R289: the BMEM port while a command is pending. A supported host write stores its bytes at once (for
racing bytes that is log 12) and changes no other byte and no register; it taints the command, with every byte of the
access (log 11), when one of its bytes lies in F_R or F_W, and proceeds normally otherwise, as it does while the
pending word is illegal. A supported host read returns the stored value of each byte outside F_W and a free value for
each byte inside (log 5, log 14), and faults when a byte outside F_W was never written. -/
def Obligations.HostPortWhileBusy : Prop :=
  (∀ (s : State) (addr width : Nat) (v : Word64) (rest : List Turn), HostNext s (.memWrite addr width v) rest →
    s.resetAsserted = false → s.status.busy = true → width ∈ [1, 2, 4, 8] → addr % width = 0 →
    addr + width ≤ s.bmemBytes →
    ∃ t, step s = .next t ∧ t = { s with script := rest, mem := t.mem, raced := t.raced } ∧
      SameBytesOutside s t addr width ∧
      (∀ k, k < width → t.mem.byte (addr + k) = some (v.extractLsb' (8 * k) 8)) ∧
      ((∃ k, k < width ∧ (PendingReads s (addr + k) ∨ PendingWrites s (addr + k))) →
        ∀ a, a ∈ t.raced ↔ a ∈ s.raced ∨ Within a addr width) ∧
      ((∀ k, k < width → ¬ PendingReads s (addr + k) ∧ ¬ PendingWrites s (addr + k)) → t.raced = s.raced)) ∧
  (∀ (s : State) (addr width : Nat) (rest : List Turn), HostNext s (.memRead addr width) rest →
    s.resetAsserted = false → s.status.busy = true → width ∈ [1, 2, 4, 8] → addr % width = 0 →
    addr + width ≤ s.bmemBytes →
    ((∀ k, k < width → PendingWrites s (addr + k) ∨ s.mem.byte (addr + k) ≠ none) →
      ∃ u, step s = .next u ∧ u = { s with script := rest, readData := u.readData, draws := u.draws } ∧
        ∀ k, k < width →
          (¬ PendingWrites s (addr + k) → s.mem.byte (addr + k) = some (u.readData.extractLsb' (8 * k) 8)) ∧
          (PendingWrites s (addr + k) →
            u.readData.extractLsb' (8 * k) 8 = (Config.freeBits (s.draws + k)).extractLsb' 0 8)) ∧
    ((∃ k, k < width ∧ ¬ PendingWrites s (addr + k) ∧ s.mem.byte (addr + k) = none) →
      ∃ a, step s = .fault (.unwrittenByte a) ∧ Within a addr width ∧ ¬ PendingWrites s a ∧ s.mem.byte a = none))

/-! ## Reset and races -/

/-- R281, R280, R282: the reset input asserted and deasserted while idle leaves every control register at its reset
value and XR, CR, BMEM and their marks as they were; the same control values hold in the power-on state, where
nothing is written. -/
def Obligations.ResetValues : Prop :=
  (∀ (s : State) (rest : List Turn), s.script = .host .assertReset :: .host .deassertReset :: rest →
    s.status.busy = false → s.raced = [] →
    ∃ t, step s = .next t ∧ step t = .next { s with
      status := ⟨false, false, .none, false, false⟩
      ie := false, lastCmd := 0, size := 0, inBase := 0, outBase := 0, tblBase := 0, tblLen := 0, resBase := 0
      poolBase := 0, poolLimit := 0, allocPtr := 0, resetAsserted := false, script := rest }) ∧
  (State.reset.status = ⟨false, false, .none, false, false⟩ ∧ State.reset.ie = false ∧ State.reset.lastCmd = 0 ∧
    State.reset.size = 0 ∧ State.reset.inBase = 0 ∧ State.reset.outBase = 0 ∧ State.reset.tblBase = 0 ∧
    State.reset.tblLen = 0 ∧ State.reset.resBase = 0 ∧ State.reset.poolBase = 0 ∧ State.reset.poolLimit = 0 ∧
    State.reset.allocPtr = 0 ∧ State.reset.irq = false ∧ (∀ a, State.reset.mem.byte a = none) ∧
    ∀ r : RegIdx, State.reset.xIsWritten r = false ∧ State.reset.cWritten r = false)

/-- R283, R281: reset asserted while a command is pending discards it, with no DONE and no irq. Every control register
takes its value of R281; every byte outside the command's write set and outside what racing host writes hit, and every
register it does not write, keeps its value; an illegal pending word has no write set. Deassertion then changes nothing
but the reset input. That the values of R281 and irq = 0 hold already while reset is asserted is the model's choice
(log 9), and that the bytes of racing writes are unspecified too is the model's (log 10). -/
def Obligations.ResetDiscardsPendingCommand : Prop :=
  ∀ (s : State) (rest : List Turn), HostNext s .assertReset rest → s.status.busy = true →
    ∃ t, step s = .next t ∧ t.irq = false ∧
      t = { s with
        status := ⟨false, false, .none, false, false⟩
        ie := false, lastCmd := 0, size := 0, inBase := 0, outBase := 0, tblBase := 0, tblLen := 0, resBase := 0
        poolBase := 0, poolLimit := 0, allocPtr := 0, resetAsserted := true, raced := [], script := rest
        xr := t.xr, cr := t.cr, xrWritten := t.xrWritten, crWritten := t.crWritten, mem := t.mem, draws := t.draws } ∧
      (∀ i, decode s.lastCmd = .ok i → Untouched s t i) ∧
      (∀ e, decode s.lastCmd = .error e →
        (∀ a, a ∉ s.raced → t.mem.byte a = s.mem.byte a) ∧ SameX s t ∧ SameC s t) ∧
      ∀ rest', rest = .host .deassertReset :: rest' →
        step t = .next { t with resetAsserted := false, script := rest' }

/-- R289: a command that raced a host write completes with BUSY = 0 and DONE = 1. Only its write set, the bytes of the
racing writes, the registers it writes, ERR and ALLOC may change: every other byte and CR or XR register keeps its
value, RES_BASE changes only in FFT and BUILDTBL, ALLOC_PTR only in their O = 0 forms, TBL_LEN only in BUILDTBL and
TBL_BASE only in BUILDTBL with O = 0, and every other register not at all, for every value of the free draws. That BUSY
and DONE complete as always is the model's choice (log 11). -/
def Obligations.RacedCommandOutcome : Prop :=
  ∀ (s : State) (i : Instr), EngineReady s → decode s.lastCmd = .ok i → s.raced ≠ [] →
    ∃ t, step s = .next t ∧
      t = { s with
        script := s.script.tail, raced := [], draws := t.draws
        status := ⟨false, true, t.status.err, t.status.alloc, s.status.hz⟩
        xr := t.xr, cr := t.cr, xrWritten := t.xrWritten, crWritten := t.crWritten, mem := t.mem
        tblBase := t.tblBase, tblLen := t.tblLen, resBase := t.resBase, allocPtr := t.allocPtr } ∧
      Untouched s t i ∧
      ((∀ o, i ≠ .buildtbl o) → t.tblLen = s.tblLen) ∧
      (i ≠ .buildtbl false → t.tblBase = s.tblBase) ∧
      ((∀ o, i ≠ .buildtbl o) → (∀ o b, i ≠ .fft o b) → t.resBase = s.resBase) ∧
      (i ≠ .buildtbl false → (∀ b, i ≠ .fft false b) → t.allocPtr = s.allocPtr)

/-! ## Invariants and isolation -/

/-- The power-on state meets the invariant. -/
def Obligations.ResetMeetsInvariant : Prop := Invariant State.reset

/-- Every step, whatever the script, keeps the invariant: memory canonical and inside BMEM (R80), never BUSY and DONE
together (R48, R49), a taint only while a decodable command is pending (R289). -/
def Obligations.StepKeepsInvariant : Prop :=
  ∀ s t : State, Invariant s → step s = .next t → Invariant t

/-- R282 in this model (log 1): while no move reads a register that the spec calls unwritten, the values those
registers hold cannot be observed: from two states that differ in them alone, a step ends in the same way, in states
that again differ in them alone. So nothing rests on the values log 1 names. -/
def Obligations.UnwrittenValuesUnobservable : Prop :=
  ∀ s t : State, SameWritten s t → readsOnlyWritten s = true → SameOutcome SameWritten (step s) (step t)
end

