-- ==== Sys2Proof/Laws/Bitrev.lean ====
section
/-!
SUPPORT. The bit-reversal functions, said once: the loop of 41_bitrev.md R190 counts the bits of its operand, and
each bit of a reversal is one bit of its operand (R191).
-/

namespace Sys2Proof.Machine

theorem shiftCount_eq (fuel n : Nat) (h : n < 2 ^ fuel) : shiftCount fuel n = if n = 0 then 0 else Nat.log2 n + 1 := by
  induction fuel generalizing n with
  | zero =>
    have : n = 0 := by simpa using h
    simp [shiftCount, this]
  | succ fuel ih =>
    rw [shiftCount]
    split
    · rfl
    · next hn =>
      have hs : n >>> 1 = n / 2 := by simp [Nat.shiftRight_one]
      rw [hs, ih _ (by rw [pow_succ] at h; omega)]
      by_cases h2 : n / 2 = 0
      · have : n = 1 := by omega
        subst this
        simp [Nat.log2_def]
      · rw [if_neg h2, Nat.log2_def n, if_pos (by omega)]

/-- `log2_floor` is the bit length minus one (41_bitrev.md R190). -/
theorem log2Floor_eq {n : Nat} (h : n < 2 ^ 64) : log2Floor n = if n = 0 then -1 else (Nat.log2 n : Int) := by
  rw [log2Floor, shiftCount_eq 64 n h]
  split <;> simp

theorem log2Bits_eq {n : Nat} (h : n < 2 ^ 64) : log2Bits n = Nat.log2 n := by
  rw [log2Bits, log2Floor_eq h]
  split
  · next h0 => subst h0; simp
  · simp

theorem isPow2_iff {n : Nat} : isPow2 n = true ↔ n ≠ 0 ∧ 2 ^ Nat.log2 n = n := by
  simp [isPow2]

theorem reverseFold_testBit (n L : Nat) (m : Nat) (hm : m ≤ L) (j : Nat) :
    ((List.range m).foldl (fun r i => r ||| (n.testBit i).toNat <<< (L - 1 - i)) 0).testBit j =
      (decide (L - m ≤ j ∧ j < L) && n.testBit (L - 1 - j)) := by
  induction m with
  | zero =>
    simp
  | succ m ih =>
    rw [List.range_succ, List.foldl_append, List.foldl_cons, List.foldl_nil, Nat.testBit_or, ih (by omega),
      Nat.testBit_shiftLeft]
    by_cases h : j = L - 1 - m
    · subst h
      have h2 : L - (m + 1) ≤ L - 1 - m ∧ L - 1 - m < L := by omega
      have h3 : L - 1 - (L - 1 - m) = m := by omega
      simp only [h2, h3, ge_iff_le, le_refl, decide_true, Bool.true_and, Nat.sub_self, and_self]
      cases n.testBit m <;> simp
    · have h4 : (decide (L - m ≤ j ∧ j < L)) = decide (L - (m + 1) ≤ j ∧ j < L) := by
        rw [decide_eq_decide]; omega
      rw [h4]
      by_cases h5 : L - 1 - m ≤ j
      · have h6 : j - (L - 1 - m) ≠ 0 := by omega
        have h7 : ((n.testBit m).toNat).testBit (j - (L - 1 - m)) = false := by
          cases n.testBit m
          · simp
          · exact Bool.eq_false_iff.2 fun hh => h6 (Nat.testBit_one_eq_true_iff_self_eq_zero.1 hh)
        simp [h7]
      · simp [h5]

/-- Bit `j` of `bit_reverse(size, n)` is bit `L - 1 - j` of `n` below `L`, and 0 from `L` on (41_bitrev.md R191). -/
theorem bitReverse_testBit (size n j : Nat) :
    (bitReverse size n).testBit j = (decide (j < log2Bits size) && n.testBit (log2Bits size - 1 - j)) := by
  rw [bitReverse, reverseFold_testBit n _ _ (Nat.le_refl _)]
  simp

theorem tableOf_length (n : Nat) : (tableOf n).length = n := by simp [tableOf]

end Sys2Proof.Machine
end

