-- ==== Sys2Proof/Laws/Memory.lean ====
section
/-!
SUPPORT. The laws of buffer memory: a read after a write, what a write leaves alone, and that every operation keeps
the canonical form and stays inside its range. Everything is said through `Memory.byte`, the read of one byte.
-/

namespace Sys2Proof.Machine

/-! ### One byte -/

theorem byte_setByte_same (m : Memory) (a : Nat) (b : Byte) : (m.setByte a b).byte a = some b := by
  induction m with
  | nil => simp [Memory.setByte, Memory.byte]
  | cons p m ih =>
    obtain ⟨x, v⟩ := p
    simp only [Memory.setByte]
    split
    · simp [Memory.byte]
    · split
      · simp [Memory.byte]
      · rename_i h1 h2
        have hx : (a == x) = false := by simpa using h2
        simpa [Memory.byte, List.lookup, hx] using ih

theorem byte_setByte_other (m : Memory) {a c : Nat} (b : Byte) (h : c ≠ a) : (m.setByte a b).byte c = m.byte c := by
  have hc : (c == a) = false := by simpa using h
  induction m with
  | nil => simp [Memory.setByte, Memory.byte, List.lookup, hc]
  | cons p m ih =>
    obtain ⟨x, v⟩ := p
    simp only [Memory.setByte]
    split
    · simp [Memory.byte, List.lookup, hc]
    · split
      · rename_i h1 h2
        subst h2
        simp [Memory.byte, List.lookup, hc]
      · simp only [Memory.byte, List.lookup] at ih ⊢
        split <;> simp_all

theorem byte_setByte (m : Memory) (a c : Nat) (b : Byte) :
    (m.setByte a b).byte c = if c = a then some b else m.byte c := by
  split
  · next h => subst h; exact byte_setByte_same m c b
  · next h => exact byte_setByte_other m b h

theorem mem_setByte {m : Memory} {a : Nat} {b : Byte} {p : Host.Cell} (h : p ∈ m.setByte a b) :
    p = (a, b) ∨ p ∈ m := by
  induction m with
  | nil => simpa [Memory.setByte] using h
  | cons q m ih =>
    obtain ⟨x, v⟩ := q
    simp only [Memory.setByte] at h
    split at h
    · simpa using h
    · split at h
      · rcases List.mem_cons.1 h with h | h
        · exact .inl h
        · exact .inr (List.mem_cons_of_mem _ h)
      · rcases List.mem_cons.1 h with h | h
        · exact .inr (by simp [h])
        · exact (ih h).imp id (List.mem_cons_of_mem _)

theorem setByte_wf {m : Memory} (h : m.wf) (a : Nat) (b : Byte) : (m.setByte a b).wf := by
  induction m with
  | nil => simp [Memory.wf, Memory.setByte]
  | cons q m ih =>
    obtain ⟨x, v⟩ := q
    obtain ⟨hx, hm⟩ := List.pairwise_cons.1 h
    simp only [Memory.setByte]
    split
    · next hlt =>
      refine List.pairwise_cons.2 ⟨fun p hp => ?_, h⟩
      rcases List.mem_cons.1 hp with rfl | hp
      · exact hlt
      · exact Nat.lt_trans hlt (hx p hp)
    · split
      · next _ heq => subst heq; exact List.pairwise_cons.2 ⟨hx, hm⟩
      · refine List.pairwise_cons.2 ⟨fun p hp => ?_, ih hm⟩
        rcases mem_setByte hp with rfl | hp
        · show x < a
          omega
        · exact hx p hp

/-! ### Wide writes -/

/-- What a write of `n` bytes leaves at every address. -/
theorem byte_memWrite (m : Memory) (a n v c : Nat) :
    (memWrite m a n v).byte c =
      if a ≤ c ∧ c < a + n then some (BitVec.ofNat 8 (v / 256 ^ (c - a))) else m.byte c := by
  induction n generalizing m a v with
  | zero => simp only [memWrite]; rw [if_neg (by omega)]
  | succ n ih =>
    rw [memWrite, ih, byte_setByte]
    by_cases h : a = c
    · subst h
      rw [if_neg (by omega), if_pos rfl, if_pos (by omega)]
      simp
    · by_cases h2 : a + 1 ≤ c ∧ c < a + 1 + n
      · rw [if_pos h2, if_pos (by omega)]
        have : c - a = (c - (a + 1)) + 1 := by omega
        rw [this, pow_succ, Nat.div_div_eq_div_mul, Nat.mul_comm]
      · rw [if_neg h2, if_neg (by omega), if_neg (by omega)]

theorem byte_memWrite_outside (m : Memory) {a n v c : Nat} (h : c < a ∨ a + n ≤ c) :
    (memWrite m a n v).byte c = m.byte c := by
  rw [byte_memWrite, if_neg (by omega)]

/-- The entries of a memory after a wide write lie in the range written or were there before. -/
theorem mem_memWrite {m : Memory} {a n v : Nat} {p : Host.Cell} (h : p ∈ memWrite m a n v) :
    (a ≤ p.1 ∧ p.1 < a + n) ∨ p ∈ m := by
  induction n generalizing m a v with
  | zero => exact .inr h
  | succ n ih =>
    rcases ih h with h | h
    · exact .inl (by omega)
    · rcases mem_setByte h with rfl | h
      · exact .inl (by constructor <;> simp)
      · exact .inr h

theorem memWrite_wf {m : Memory} (h : m.wf) (a n v : Nat) : (memWrite m a n v).wf := by
  induction n generalizing m a v with
  | zero => exact h
  | succ n ih => exact ih (setByte_wf h _ _) _ _

/-! ### Wide reads -/

/-- Reading looks only at the bytes of its range. -/
theorem readBytes_congr {m m' : Memory} {a n : Nat} (h : ∀ c, a ≤ c → c < a + n → m'.byte c = m.byte c) :
    readBytes m' a n = readBytes m a n := by
  induction n generalizing a with
  | zero => rfl
  | succ n ih =>
    simp only [readBytes, h a (Nat.le_refl a) (by omega)]
    rw [ih (fun c hc hn => h c (by omega) (by omega))]

theorem memRead_congr {m m' : Memory} {a n : Nat} (h : ∀ c, a ≤ c → c < a + n → m'.byte c = m.byte c) :
    memRead m' a n = memRead m a n := by
  simp only [memRead, readBytes_congr h]

/-- A read of bytes that are all written succeeds. -/
theorem readBytes_of_written {m : Memory} {a n : Nat} (f : Nat → Byte)
    (h : ∀ k < n, m.byte (a + k) = some (f k)) : readBytes m a n = .ok ((List.range n).map f) := by
  induction n generalizing a f with
  | zero => rfl
  | succ n ih =>
    have h0 : m.byte a = some (f 0) := by simpa using h 0 (by omega)
    have := ih (a := a + 1) (fun k => f (k + 1)) (fun k hk => by
      have := h (k + 1) (by omega)
      rwa [show a + 1 + k = a + (k + 1) by omega])
    simp [readBytes, h0, this, Except.map, List.range_succ_eq_map, Function.comp_def]

/-- A successful read means every byte of the range was written. -/
theorem written_of_readBytes {m : Memory} {a n : Nat} {bs : List Byte} (h : readBytes m a n = .ok bs) :
    bs.length = n ∧ ∀ k (hk : k < bs.length), m.byte (a + k) = some bs[k] := by
  induction n generalizing a bs with
  | zero => simp only [readBytes, Except.ok.injEq] at h; subst h; simp
  | succ n ih =>
    simp only [readBytes] at h
    split at h
    · simp at h
    · next b hb =>
      cases hr : readBytes m (a + 1) n with
      | error f => simp [hr, Except.map] at h
      | ok cs =>
        simp only [hr, Except.map, Except.ok.injEq] at h
        subst h
        obtain ⟨hl, hk⟩ := ih hr
        refine ⟨by simp [hl], fun k hlt => ?_⟩
        cases k with
        | zero => simpa using hb
        | succ k =>
          have := hk k (by simpa using hlt)
          rw [show a + (k + 1) = a + 1 + k by omega, this]
          simp

theorem leValue_bytes (n v : Nat) :
    leValue ((List.range n).map fun k => BitVec.ofNat 8 (v / 256 ^ k)) = v % 256 ^ n := by
  induction n generalizing v with
  | zero => simp [leValue, Nat.mod_one]
  | succ n ih =>
    rw [List.range_succ_eq_map, List.map_cons, List.map_map, leValue]
    have : ((fun k => BitVec.ofNat 8 (v / 256 ^ k)) ∘ Nat.succ) =
        fun k => BitVec.ofNat 8 (v / 256 / 256 ^ k) := by
      funext k
      simp [pow_succ, Nat.div_div_eq_div_mul, Nat.mul_comm]
    rw [this, ih, pow_succ, Nat.mul_comm (256 ^ n), Nat.mod_mul]
    simp

/-- A read of a range just written gives back the value, cut to the range. -/
theorem memRead_memWrite_same (m : Memory) (a n v : Nat) : memRead (memWrite m a n v) a n = .ok (v % 256 ^ n) := by
  rw [memRead, readBytes_of_written (fun k => BitVec.ofNat 8 (v / 256 ^ k))]
  · simp [Except.map, leValue_bytes]
  · intro k hk
    rw [byte_memWrite, if_pos (by omega)]
    simp

theorem memRead_memWrite_other (m : Memory) {a n v b k : Nat} (h : b + k ≤ a ∨ a + n ≤ b) :
    memRead (memWrite m a n v) b k = memRead m b k :=
  memRead_congr fun c hc hk => byte_memWrite_outside m (by omega)

/-! ### Complex elements and table entries -/

theorem byte_writeC_outside (m : Memory) {a c : Nat} (z : Cplx) (h : c < a ∨ a + 16 ≤ c) :
    (writeC m a z).byte c = m.byte c := by
  rw [writeC, byte_memWrite_outside _ (by omega), byte_memWrite_outside _ (by omega)]

theorem readC_congr {m m' : Memory} {a : Nat} (h : ∀ c, a ≤ c → c < a + 16 → m'.byte c = m.byte c) :
    readC m' a = readC m a := by
  simp only [readC]
  rw [memRead_congr (fun c h1 h2 => h c h1 (by omega)), memRead_congr (fun c h1 h2 => h c (by omega) (by omega))]

theorem readC_writeC_same (m : Memory) (a : Nat) (z : Cplx) : readC (writeC m a z) a = .ok z := by
  have h1 : memRead (writeC m a z) a 8 = .ok z.re.toNat := by
    rw [writeC, memRead_memWrite_other _ (by omega), memRead_memWrite_same, Nat.mod_eq_of_lt (by exact z.re.isLt)]
  have h2 : memRead (writeC m a z) (a + 8) 8 = .ok z.im.toNat := by
    rw [writeC, memRead_memWrite_same, Nat.mod_eq_of_lt (by exact z.im.isLt)]
  simp [readC, h1, h2]

theorem mem_writeC {m : Memory} {a : Nat} {z : Cplx} {p : Host.Cell} (h : p ∈ writeC m a z) :
    (a ≤ p.1 ∧ p.1 < a + 16) ∨ p ∈ m := by
  rcases mem_memWrite h with h | h
  · exact .inl (by omega)
  · rcases mem_memWrite h with h | h
    · exact .inl (by omega)
    · exact .inr h

theorem writeC_wf {m : Memory} (h : m.wf) (a : Nat) (z : Cplx) : (writeC m a z).wf :=
  memWrite_wf (memWrite_wf h _ _ _) _ _ _

theorem byte_writeElements_outside (m : Memory) {b c : Nat} (zs : List Cplx) (h : c < b ∨ b + 16 * zs.length ≤ c) :
    (writeElements m b zs).byte c = m.byte c := by
  induction zs generalizing m b with
  | nil => rfl
  | cons z zs ih =>
    simp only [List.length_cons] at h
    rw [writeElements, ih _ (by omega), byte_writeC_outside _ _ (by omega)]

theorem readC_writeElements (m : Memory) (b : Nat) (zs : List Cplx) (i : Nat) (h : i < zs.length) :
    readC (writeElements m b zs) (b + 16 * i) = .ok zs[i] := by
  induction zs generalizing m b i with
  | nil => simp at h
  | cons z zs ih =>
    cases i with
    | zero =>
      rw [writeElements, readC_congr (m := writeC m b z)]
      · simpa using readC_writeC_same m b z
      · intro c h1 h2
        exact byte_writeElements_outside _ _ (by omega)
    | succ i =>
      have := ih (writeC m b z) (b + 16) i (by simpa using h)
      rw [writeElements, show b + 16 * (i + 1) = b + 16 + 16 * i by omega, this]
      simp

theorem mem_writeElements {m : Memory} {b : Nat} {zs : List Cplx} {p : Host.Cell} (h : p ∈ writeElements m b zs) :
    (b ≤ p.1 ∧ p.1 < b + 16 * zs.length) ∨ p ∈ m := by
  induction zs generalizing m b with
  | nil => exact .inr h
  | cons z zs ih =>
    simp only [List.length_cons]
    rcases ih h with h | h
    · exact .inl (by omega)
    · rcases mem_writeC h with h | h
      · exact .inl (by omega)
      · exact .inr h

theorem writeElements_wf {m : Memory} (h : m.wf) (b : Nat) (zs : List Cplx) : (writeElements m b zs).wf := by
  induction zs generalizing m b with
  | nil => exact h
  | cons z zs ih => exact ih (writeC_wf h _ _) _

theorem byte_writeEntries_outside (m : Memory) {b c : Nat} (es : List Nat) (h : c < b ∨ b + 4 * es.length ≤ c) :
    (writeEntries m b es).byte c = m.byte c := by
  induction es generalizing m b with
  | nil => rfl
  | cons e es ih =>
    simp only [List.length_cons] at h
    rw [writeEntries, ih _ (by omega), byte_memWrite_outside _ (by omega)]

theorem memRead_writeEntries (m : Memory) (b : Nat) (es : List Nat) (i : Nat) (h : i < es.length) :
    memRead (writeEntries m b es) (b + 4 * i) 4 = .ok (es[i] % 2 ^ 32) := by
  induction es generalizing m b i with
  | nil => simp at h
  | cons e es ih =>
    cases i with
    | zero =>
      rw [writeEntries, memRead_congr (m := memWrite m b 4 e)]
      · simpa using memRead_memWrite_same m b 4 e
      · intro c h1 h2
        exact byte_writeEntries_outside _ _ (by omega)
    | succ i =>
      have := ih (memWrite m b 4 e) (b + 4) i (by simpa using h)
      rw [writeEntries, show b + 4 * (i + 1) = b + 4 + 4 * i by omega, this]
      simp

theorem mem_writeEntries {m : Memory} {b : Nat} {es : List Nat} {p : Host.Cell} (h : p ∈ writeEntries m b es) :
    (b ≤ p.1 ∧ p.1 < b + 4 * es.length) ∨ p ∈ m := by
  induction es generalizing m b with
  | nil => exact .inr h
  | cons e es ih =>
    simp only [List.length_cons]
    rcases ih h with h | h
    · exact .inl (by omega)
    · rcases mem_memWrite h with h | h
      · exact .inl (by omega)
      · exact .inr h

theorem writeEntries_wf {m : Memory} (h : m.wf) (b : Nat) (es : List Nat) : (writeEntries m b es).wf := by
  induction es generalizing m b with
  | nil => exact h
  | cons e es ih => exact ih (memWrite_wf h _ _ _) _

theorem readEntries_length {m : Memory} {b n : Nat} {es : List Nat} (h : readEntries m b n = .ok es) :
    es.length = n := by
  induction n generalizing b es with
  | zero => simp only [readEntries, Except.ok.injEq] at h; simp [← h]
  | succ n ih =>
    simp only [readEntries] at h
    split at h
    · simp at h
    · cases hr : readEntries m (b + 4) n with
      | error f => simp [hr, Except.map] at h
      | ok fs =>
        simp only [hr, Except.map, Except.ok.injEq] at h
        simp [← h, ih hr]

theorem readElements_length {m : Memory} {b n : Nat} {zs : List Cplx} (h : readElements m b n = .ok zs) :
    zs.length = n := by
  induction n generalizing b zs with
  | zero => simp only [readElements, Except.ok.injEq] at h; simp [← h]
  | succ n ih =>
    simp only [readElements] at h
    split at h
    · simp at h
    · cases hr : readElements m (b + 16) n with
      | error f => simp [hr, Except.map] at h
      | ok fs =>
        simp only [hr, Except.map, Except.ok.injEq] at h
        simp [← h, ih hr]

end Sys2Proof.Machine
end

