-- ==== Sys2Proof/Laws/State.lean ====
section
/-!
SUPPORT. One lemma for each field of State and each update of it, true by rfl and tagged simp, so that no later proof
unfolds a record update; and what the register accessors read after each update.
-/

namespace Sys2Proof.Machine

variable (s : State)

@[simp] theorem raise_eq_complete (c : ErrCode) : raise s c = complete s c := rfl

@[simp] theorem setMem_status (m : Memory) : (s.setMem m).status = s.status := rfl
@[simp] theorem setMem_ie (m : Memory) : (s.setMem m).ie = s.ie := rfl
@[simp] theorem setMem_lastCmd (m : Memory) : (s.setMem m).lastCmd = s.lastCmd := rfl
@[simp] theorem setMem_size (m : Memory) : (s.setMem m).size = s.size := rfl
@[simp] theorem setMem_inBase (m : Memory) : (s.setMem m).inBase = s.inBase := rfl
@[simp] theorem setMem_outBase (m : Memory) : (s.setMem m).outBase = s.outBase := rfl
@[simp] theorem setMem_tblBase (m : Memory) : (s.setMem m).tblBase = s.tblBase := rfl
@[simp] theorem setMem_tblLen (m : Memory) : (s.setMem m).tblLen = s.tblLen := rfl
@[simp] theorem setMem_resBase (m : Memory) : (s.setMem m).resBase = s.resBase := rfl
@[simp] theorem setMem_poolBase (m : Memory) : (s.setMem m).poolBase = s.poolBase := rfl
@[simp] theorem setMem_poolLimit (m : Memory) : (s.setMem m).poolLimit = s.poolLimit := rfl
@[simp] theorem setMem_allocPtr (m : Memory) : (s.setMem m).allocPtr = s.allocPtr := rfl
@[simp] theorem setMem_xr (m : Memory) : (s.setMem m).xr = s.xr := rfl
@[simp] theorem setMem_cr (m : Memory) : (s.setMem m).cr = s.cr := rfl
@[simp] theorem setMem_xrWritten (m : Memory) : (s.setMem m).xrWritten = s.xrWritten := rfl
@[simp] theorem setMem_crWritten (m : Memory) : (s.setMem m).crWritten = s.crWritten := rfl
@[simp] theorem setMem_mem (m : Memory) : (s.setMem m).mem = m := rfl
@[simp] theorem setMem_bmemBlocks (m : Memory) : (s.setMem m).bmemBlocks = s.bmemBlocks := rfl
@[simp] theorem setMem_resetAsserted (m : Memory) : (s.setMem m).resetAsserted = s.resetAsserted := rfl
@[simp] theorem setMem_raced (m : Memory) : (s.setMem m).raced = s.raced := rfl
@[simp] theorem setMem_draws (m : Memory) : (s.setMem m).draws = s.draws := rfl
@[simp] theorem setMem_script (m : Memory) : (s.setMem m).script = s.script := rfl
@[simp] theorem setMem_readData (m : Memory) : (s.setMem m).readData = s.readData := rfl
@[simp] theorem setMem_bmemBytes (m : Memory) : (s.setMem m).bmemBytes = s.bmemBytes := rfl
@[simp] theorem setMem_x (m : Memory) (j : RegIdx) : (s.setMem m).x j = s.x j := rfl
@[simp] theorem setMem_c (m : Memory) (j : RegIdx) : (s.setMem m).c j = s.c j := rfl

@[simp] theorem setX_status (i : RegIdx) (v : Word64) : (s.setX i v).status = s.status := rfl
@[simp] theorem setX_ie (i : RegIdx) (v : Word64) : (s.setX i v).ie = s.ie := rfl
@[simp] theorem setX_lastCmd (i : RegIdx) (v : Word64) : (s.setX i v).lastCmd = s.lastCmd := rfl
@[simp] theorem setX_size (i : RegIdx) (v : Word64) : (s.setX i v).size = s.size := rfl
@[simp] theorem setX_inBase (i : RegIdx) (v : Word64) : (s.setX i v).inBase = s.inBase := rfl
@[simp] theorem setX_outBase (i : RegIdx) (v : Word64) : (s.setX i v).outBase = s.outBase := rfl
@[simp] theorem setX_tblBase (i : RegIdx) (v : Word64) : (s.setX i v).tblBase = s.tblBase := rfl
@[simp] theorem setX_tblLen (i : RegIdx) (v : Word64) : (s.setX i v).tblLen = s.tblLen := rfl
@[simp] theorem setX_resBase (i : RegIdx) (v : Word64) : (s.setX i v).resBase = s.resBase := rfl
@[simp] theorem setX_poolBase (i : RegIdx) (v : Word64) : (s.setX i v).poolBase = s.poolBase := rfl
@[simp] theorem setX_poolLimit (i : RegIdx) (v : Word64) : (s.setX i v).poolLimit = s.poolLimit := rfl
@[simp] theorem setX_allocPtr (i : RegIdx) (v : Word64) : (s.setX i v).allocPtr = s.allocPtr := rfl
@[simp] theorem setX_xr (i : RegIdx) (v : Word64) : (s.setX i v).xr = s.xr.set i.val v := rfl
@[simp] theorem setX_cr (i : RegIdx) (v : Word64) : (s.setX i v).cr = s.cr := rfl
@[simp] theorem setX_xrWritten (i : RegIdx) (v : Word64) : (s.setX i v).xrWritten = s.xrWritten.set i.val true := rfl
@[simp] theorem setX_crWritten (i : RegIdx) (v : Word64) : (s.setX i v).crWritten = s.crWritten := rfl
@[simp] theorem setX_mem (i : RegIdx) (v : Word64) : (s.setX i v).mem = s.mem := rfl
@[simp] theorem setX_bmemBlocks (i : RegIdx) (v : Word64) : (s.setX i v).bmemBlocks = s.bmemBlocks := rfl
@[simp] theorem setX_resetAsserted (i : RegIdx) (v : Word64) : (s.setX i v).resetAsserted = s.resetAsserted := rfl
@[simp] theorem setX_raced (i : RegIdx) (v : Word64) : (s.setX i v).raced = s.raced := rfl
@[simp] theorem setX_draws (i : RegIdx) (v : Word64) : (s.setX i v).draws = s.draws := rfl
@[simp] theorem setX_script (i : RegIdx) (v : Word64) : (s.setX i v).script = s.script := rfl
@[simp] theorem setX_readData (i : RegIdx) (v : Word64) : (s.setX i v).readData = s.readData := rfl
@[simp] theorem setX_bmemBytes (i : RegIdx) (v : Word64) : (s.setX i v).bmemBytes = s.bmemBytes := rfl
@[simp] theorem setX_c (i : RegIdx) (v : Word64) (j : RegIdx) : (s.setX i v).c j = s.c j := rfl

@[simp] theorem setC_status (i : RegIdx) (z : Cplx) : (s.setC i z).status = s.status := rfl
@[simp] theorem setC_ie (i : RegIdx) (z : Cplx) : (s.setC i z).ie = s.ie := rfl
@[simp] theorem setC_lastCmd (i : RegIdx) (z : Cplx) : (s.setC i z).lastCmd = s.lastCmd := rfl
@[simp] theorem setC_size (i : RegIdx) (z : Cplx) : (s.setC i z).size = s.size := rfl
@[simp] theorem setC_inBase (i : RegIdx) (z : Cplx) : (s.setC i z).inBase = s.inBase := rfl
@[simp] theorem setC_outBase (i : RegIdx) (z : Cplx) : (s.setC i z).outBase = s.outBase := rfl
@[simp] theorem setC_tblBase (i : RegIdx) (z : Cplx) : (s.setC i z).tblBase = s.tblBase := rfl
@[simp] theorem setC_tblLen (i : RegIdx) (z : Cplx) : (s.setC i z).tblLen = s.tblLen := rfl
@[simp] theorem setC_resBase (i : RegIdx) (z : Cplx) : (s.setC i z).resBase = s.resBase := rfl
@[simp] theorem setC_poolBase (i : RegIdx) (z : Cplx) : (s.setC i z).poolBase = s.poolBase := rfl
@[simp] theorem setC_poolLimit (i : RegIdx) (z : Cplx) : (s.setC i z).poolLimit = s.poolLimit := rfl
@[simp] theorem setC_allocPtr (i : RegIdx) (z : Cplx) : (s.setC i z).allocPtr = s.allocPtr := rfl
@[simp] theorem setC_xr (i : RegIdx) (z : Cplx) : (s.setC i z).xr = s.xr := rfl
@[simp] theorem setC_cr (i : RegIdx) (z : Cplx) : (s.setC i z).cr = s.cr.set i.val z := rfl
@[simp] theorem setC_xrWritten (i : RegIdx) (z : Cplx) : (s.setC i z).xrWritten = s.xrWritten := rfl
@[simp] theorem setC_crWritten (i : RegIdx) (z : Cplx) : (s.setC i z).crWritten = s.crWritten.set i.val ⟨true, true⟩ := rfl
@[simp] theorem setC_mem (i : RegIdx) (z : Cplx) : (s.setC i z).mem = s.mem := rfl
@[simp] theorem setC_bmemBlocks (i : RegIdx) (z : Cplx) : (s.setC i z).bmemBlocks = s.bmemBlocks := rfl
@[simp] theorem setC_resetAsserted (i : RegIdx) (z : Cplx) : (s.setC i z).resetAsserted = s.resetAsserted := rfl
@[simp] theorem setC_raced (i : RegIdx) (z : Cplx) : (s.setC i z).raced = s.raced := rfl
@[simp] theorem setC_draws (i : RegIdx) (z : Cplx) : (s.setC i z).draws = s.draws := rfl
@[simp] theorem setC_script (i : RegIdx) (z : Cplx) : (s.setC i z).script = s.script := rfl
@[simp] theorem setC_readData (i : RegIdx) (z : Cplx) : (s.setC i z).readData = s.readData := rfl
@[simp] theorem setC_bmemBytes (i : RegIdx) (z : Cplx) : (s.setC i z).bmemBytes = s.bmemBytes := rfl
@[simp] theorem setC_x (i : RegIdx) (z : Cplx) (j : RegIdx) : (s.setC i z).x j = s.x j := rfl

@[simp] theorem setCRe_status (i : RegIdx) (v : F64) : (s.setCRe i v).status = s.status := rfl
@[simp] theorem setCRe_ie (i : RegIdx) (v : F64) : (s.setCRe i v).ie = s.ie := rfl
@[simp] theorem setCRe_lastCmd (i : RegIdx) (v : F64) : (s.setCRe i v).lastCmd = s.lastCmd := rfl
@[simp] theorem setCRe_size (i : RegIdx) (v : F64) : (s.setCRe i v).size = s.size := rfl
@[simp] theorem setCRe_inBase (i : RegIdx) (v : F64) : (s.setCRe i v).inBase = s.inBase := rfl
@[simp] theorem setCRe_outBase (i : RegIdx) (v : F64) : (s.setCRe i v).outBase = s.outBase := rfl
@[simp] theorem setCRe_tblBase (i : RegIdx) (v : F64) : (s.setCRe i v).tblBase = s.tblBase := rfl
@[simp] theorem setCRe_tblLen (i : RegIdx) (v : F64) : (s.setCRe i v).tblLen = s.tblLen := rfl
@[simp] theorem setCRe_resBase (i : RegIdx) (v : F64) : (s.setCRe i v).resBase = s.resBase := rfl
@[simp] theorem setCRe_poolBase (i : RegIdx) (v : F64) : (s.setCRe i v).poolBase = s.poolBase := rfl
@[simp] theorem setCRe_poolLimit (i : RegIdx) (v : F64) : (s.setCRe i v).poolLimit = s.poolLimit := rfl
@[simp] theorem setCRe_allocPtr (i : RegIdx) (v : F64) : (s.setCRe i v).allocPtr = s.allocPtr := rfl
@[simp] theorem setCRe_xr (i : RegIdx) (v : F64) : (s.setCRe i v).xr = s.xr := rfl
@[simp] theorem setCRe_xrWritten (i : RegIdx) (v : F64) : (s.setCRe i v).xrWritten = s.xrWritten := rfl
@[simp] theorem setCRe_mem (i : RegIdx) (v : F64) : (s.setCRe i v).mem = s.mem := rfl
@[simp] theorem setCRe_bmemBlocks (i : RegIdx) (v : F64) : (s.setCRe i v).bmemBlocks = s.bmemBlocks := rfl
@[simp] theorem setCRe_resetAsserted (i : RegIdx) (v : F64) : (s.setCRe i v).resetAsserted = s.resetAsserted := rfl
@[simp] theorem setCRe_raced (i : RegIdx) (v : F64) : (s.setCRe i v).raced = s.raced := rfl
@[simp] theorem setCRe_draws (i : RegIdx) (v : F64) : (s.setCRe i v).draws = s.draws := rfl
@[simp] theorem setCRe_script (i : RegIdx) (v : F64) : (s.setCRe i v).script = s.script := rfl
@[simp] theorem setCRe_readData (i : RegIdx) (v : F64) : (s.setCRe i v).readData = s.readData := rfl
@[simp] theorem setCRe_bmemBytes (i : RegIdx) (v : F64) : (s.setCRe i v).bmemBytes = s.bmemBytes := rfl
@[simp] theorem setCRe_x (i : RegIdx) (v : F64) (j : RegIdx) : (s.setCRe i v).x j = s.x j := rfl

@[simp] theorem setCIm_status (i : RegIdx) (v : F64) : (s.setCIm i v).status = s.status := rfl
@[simp] theorem setCIm_ie (i : RegIdx) (v : F64) : (s.setCIm i v).ie = s.ie := rfl
@[simp] theorem setCIm_lastCmd (i : RegIdx) (v : F64) : (s.setCIm i v).lastCmd = s.lastCmd := rfl
@[simp] theorem setCIm_size (i : RegIdx) (v : F64) : (s.setCIm i v).size = s.size := rfl
@[simp] theorem setCIm_inBase (i : RegIdx) (v : F64) : (s.setCIm i v).inBase = s.inBase := rfl
@[simp] theorem setCIm_outBase (i : RegIdx) (v : F64) : (s.setCIm i v).outBase = s.outBase := rfl
@[simp] theorem setCIm_tblBase (i : RegIdx) (v : F64) : (s.setCIm i v).tblBase = s.tblBase := rfl
@[simp] theorem setCIm_tblLen (i : RegIdx) (v : F64) : (s.setCIm i v).tblLen = s.tblLen := rfl
@[simp] theorem setCIm_resBase (i : RegIdx) (v : F64) : (s.setCIm i v).resBase = s.resBase := rfl
@[simp] theorem setCIm_poolBase (i : RegIdx) (v : F64) : (s.setCIm i v).poolBase = s.poolBase := rfl
@[simp] theorem setCIm_poolLimit (i : RegIdx) (v : F64) : (s.setCIm i v).poolLimit = s.poolLimit := rfl
@[simp] theorem setCIm_allocPtr (i : RegIdx) (v : F64) : (s.setCIm i v).allocPtr = s.allocPtr := rfl
@[simp] theorem setCIm_xr (i : RegIdx) (v : F64) : (s.setCIm i v).xr = s.xr := rfl
@[simp] theorem setCIm_xrWritten (i : RegIdx) (v : F64) : (s.setCIm i v).xrWritten = s.xrWritten := rfl
@[simp] theorem setCIm_mem (i : RegIdx) (v : F64) : (s.setCIm i v).mem = s.mem := rfl
@[simp] theorem setCIm_bmemBlocks (i : RegIdx) (v : F64) : (s.setCIm i v).bmemBlocks = s.bmemBlocks := rfl
@[simp] theorem setCIm_resetAsserted (i : RegIdx) (v : F64) : (s.setCIm i v).resetAsserted = s.resetAsserted := rfl
@[simp] theorem setCIm_raced (i : RegIdx) (v : F64) : (s.setCIm i v).raced = s.raced := rfl
@[simp] theorem setCIm_draws (i : RegIdx) (v : F64) : (s.setCIm i v).draws = s.draws := rfl
@[simp] theorem setCIm_script (i : RegIdx) (v : F64) : (s.setCIm i v).script = s.script := rfl
@[simp] theorem setCIm_readData (i : RegIdx) (v : F64) : (s.setCIm i v).readData = s.readData := rfl
@[simp] theorem setCIm_bmemBytes (i : RegIdx) (v : F64) : (s.setCIm i v).bmemBytes = s.bmemBytes := rfl
@[simp] theorem setCIm_x (i : RegIdx) (v : F64) (j : RegIdx) : (s.setCIm i v).x j = s.x j := rfl

@[simp] theorem complete_status (c : ErrCode) : (complete s c).status = ⟨false, true, c, s.status.alloc, s.status.hz⟩ := rfl
@[simp] theorem complete_ie (c : ErrCode) : (complete s c).ie = s.ie := rfl
@[simp] theorem complete_lastCmd (c : ErrCode) : (complete s c).lastCmd = s.lastCmd := rfl
@[simp] theorem complete_size (c : ErrCode) : (complete s c).size = s.size := rfl
@[simp] theorem complete_inBase (c : ErrCode) : (complete s c).inBase = s.inBase := rfl
@[simp] theorem complete_outBase (c : ErrCode) : (complete s c).outBase = s.outBase := rfl
@[simp] theorem complete_tblBase (c : ErrCode) : (complete s c).tblBase = s.tblBase := rfl
@[simp] theorem complete_tblLen (c : ErrCode) : (complete s c).tblLen = s.tblLen := rfl
@[simp] theorem complete_resBase (c : ErrCode) : (complete s c).resBase = s.resBase := rfl
@[simp] theorem complete_poolBase (c : ErrCode) : (complete s c).poolBase = s.poolBase := rfl
@[simp] theorem complete_poolLimit (c : ErrCode) : (complete s c).poolLimit = s.poolLimit := rfl
@[simp] theorem complete_allocPtr (c : ErrCode) : (complete s c).allocPtr = s.allocPtr := rfl
@[simp] theorem complete_xr (c : ErrCode) : (complete s c).xr = s.xr := rfl
@[simp] theorem complete_cr (c : ErrCode) : (complete s c).cr = s.cr := rfl
@[simp] theorem complete_xrWritten (c : ErrCode) : (complete s c).xrWritten = s.xrWritten := rfl
@[simp] theorem complete_crWritten (c : ErrCode) : (complete s c).crWritten = s.crWritten := rfl
@[simp] theorem complete_mem (c : ErrCode) : (complete s c).mem = s.mem := rfl
@[simp] theorem complete_bmemBlocks (c : ErrCode) : (complete s c).bmemBlocks = s.bmemBlocks := rfl
@[simp] theorem complete_resetAsserted (c : ErrCode) : (complete s c).resetAsserted = s.resetAsserted := rfl
@[simp] theorem complete_raced (c : ErrCode) : (complete s c).raced = s.raced := rfl
@[simp] theorem complete_draws (c : ErrCode) : (complete s c).draws = s.draws := rfl
@[simp] theorem complete_script (c : ErrCode) : (complete s c).script = s.script := rfl
@[simp] theorem complete_readData (c : ErrCode) : (complete s c).readData = s.readData := rfl
@[simp] theorem complete_bmemBytes (c : ErrCode) : (complete s c).bmemBytes = s.bmemBytes := rfl
@[simp] theorem complete_x (c : ErrCode) (j : RegIdx) : (complete s c).x j = s.x j := rfl
@[simp] theorem complete_c (c : ErrCode) (j : RegIdx) : (complete s c).c j = s.c j := rfl

@[simp] theorem drawn_status (k : Nat) : (s.drawn k).status = s.status := rfl
@[simp] theorem drawn_ie (k : Nat) : (s.drawn k).ie = s.ie := rfl
@[simp] theorem drawn_lastCmd (k : Nat) : (s.drawn k).lastCmd = s.lastCmd := rfl
@[simp] theorem drawn_size (k : Nat) : (s.drawn k).size = s.size := rfl
@[simp] theorem drawn_inBase (k : Nat) : (s.drawn k).inBase = s.inBase := rfl
@[simp] theorem drawn_outBase (k : Nat) : (s.drawn k).outBase = s.outBase := rfl
@[simp] theorem drawn_tblBase (k : Nat) : (s.drawn k).tblBase = s.tblBase := rfl
@[simp] theorem drawn_tblLen (k : Nat) : (s.drawn k).tblLen = s.tblLen := rfl
@[simp] theorem drawn_resBase (k : Nat) : (s.drawn k).resBase = s.resBase := rfl
@[simp] theorem drawn_poolBase (k : Nat) : (s.drawn k).poolBase = s.poolBase := rfl
@[simp] theorem drawn_poolLimit (k : Nat) : (s.drawn k).poolLimit = s.poolLimit := rfl
@[simp] theorem drawn_allocPtr (k : Nat) : (s.drawn k).allocPtr = s.allocPtr := rfl
@[simp] theorem drawn_xr (k : Nat) : (s.drawn k).xr = s.xr := rfl
@[simp] theorem drawn_cr (k : Nat) : (s.drawn k).cr = s.cr := rfl
@[simp] theorem drawn_xrWritten (k : Nat) : (s.drawn k).xrWritten = s.xrWritten := rfl
@[simp] theorem drawn_crWritten (k : Nat) : (s.drawn k).crWritten = s.crWritten := rfl
@[simp] theorem drawn_mem (k : Nat) : (s.drawn k).mem = s.mem := rfl
@[simp] theorem drawn_bmemBlocks (k : Nat) : (s.drawn k).bmemBlocks = s.bmemBlocks := rfl
@[simp] theorem drawn_resetAsserted (k : Nat) : (s.drawn k).resetAsserted = s.resetAsserted := rfl
@[simp] theorem drawn_raced (k : Nat) : (s.drawn k).raced = s.raced := rfl
@[simp] theorem drawn_draws (k : Nat) : (s.drawn k).draws = s.draws + k := rfl
@[simp] theorem drawn_script (k : Nat) : (s.drawn k).script = s.script := rfl
@[simp] theorem drawn_readData (k : Nat) : (s.drawn k).readData = s.readData := rfl
@[simp] theorem drawn_bmemBytes (k : Nat) : (s.drawn k).bmemBytes = s.bmemBytes := rfl
@[simp] theorem drawn_x (k : Nat) (j : RegIdx) : (s.drawn k).x j = s.x j := rfl
@[simp] theorem drawn_c (k : Nat) (j : RegIdx) : (s.drawn k).c j = s.c j := rfl

@[simp] theorem setHz_status : s.setHz.status = ⟨s.status.busy, s.status.done, s.status.err, s.status.alloc, true⟩ := rfl
@[simp] theorem setHz_ie : s.setHz.ie = s.ie := rfl
@[simp] theorem setHz_lastCmd : s.setHz.lastCmd = s.lastCmd := rfl
@[simp] theorem setHz_size : s.setHz.size = s.size := rfl
@[simp] theorem setHz_inBase : s.setHz.inBase = s.inBase := rfl
@[simp] theorem setHz_outBase : s.setHz.outBase = s.outBase := rfl
@[simp] theorem setHz_tblBase : s.setHz.tblBase = s.tblBase := rfl
@[simp] theorem setHz_tblLen : s.setHz.tblLen = s.tblLen := rfl
@[simp] theorem setHz_resBase : s.setHz.resBase = s.resBase := rfl
@[simp] theorem setHz_poolBase : s.setHz.poolBase = s.poolBase := rfl
@[simp] theorem setHz_poolLimit : s.setHz.poolLimit = s.poolLimit := rfl
@[simp] theorem setHz_allocPtr : s.setHz.allocPtr = s.allocPtr := rfl
@[simp] theorem setHz_xr : s.setHz.xr = s.xr := rfl
@[simp] theorem setHz_cr : s.setHz.cr = s.cr := rfl
@[simp] theorem setHz_xrWritten : s.setHz.xrWritten = s.xrWritten := rfl
@[simp] theorem setHz_crWritten : s.setHz.crWritten = s.crWritten := rfl
@[simp] theorem setHz_mem : s.setHz.mem = s.mem := rfl
@[simp] theorem setHz_bmemBlocks : s.setHz.bmemBlocks = s.bmemBlocks := rfl
@[simp] theorem setHz_resetAsserted : s.setHz.resetAsserted = s.resetAsserted := rfl
@[simp] theorem setHz_raced : s.setHz.raced = s.raced := rfl
@[simp] theorem setHz_draws : s.setHz.draws = s.draws := rfl
@[simp] theorem setHz_script : s.setHz.script = s.script := rfl
@[simp] theorem setHz_readData : s.setHz.readData = s.readData := rfl
@[simp] theorem setHz_bmemBytes : s.setHz.bmemBytes = s.bmemBytes := rfl
@[simp] theorem setHz_x (j : RegIdx) : s.setHz.x j = s.x j := rfl
@[simp] theorem setHz_c (j : RegIdx) : s.setHz.c j = s.c j := rfl

@[simp] theorem commitPlace_status (p : Place) : (commitPlace s p).status = ⟨s.status.busy, s.status.done, s.status.err, p.newPtr.isSome, s.status.hz⟩ := rfl
@[simp] theorem commitPlace_ie (p : Place) : (commitPlace s p).ie = s.ie := rfl
@[simp] theorem commitPlace_lastCmd (p : Place) : (commitPlace s p).lastCmd = s.lastCmd := rfl
@[simp] theorem commitPlace_size (p : Place) : (commitPlace s p).size = s.size := rfl
@[simp] theorem commitPlace_inBase (p : Place) : (commitPlace s p).inBase = s.inBase := rfl
@[simp] theorem commitPlace_outBase (p : Place) : (commitPlace s p).outBase = s.outBase := rfl
@[simp] theorem commitPlace_tblBase (p : Place) : (commitPlace s p).tblBase = s.tblBase := rfl
@[simp] theorem commitPlace_tblLen (p : Place) : (commitPlace s p).tblLen = s.tblLen := rfl
@[simp] theorem commitPlace_resBase (p : Place) : (commitPlace s p).resBase = BitVec.ofNat 32 p.base := rfl
@[simp] theorem commitPlace_poolBase (p : Place) : (commitPlace s p).poolBase = s.poolBase := rfl
@[simp] theorem commitPlace_poolLimit (p : Place) : (commitPlace s p).poolLimit = s.poolLimit := rfl
@[simp] theorem commitPlace_xr (p : Place) : (commitPlace s p).xr = s.xr := rfl
@[simp] theorem commitPlace_cr (p : Place) : (commitPlace s p).cr = s.cr := rfl
@[simp] theorem commitPlace_xrWritten (p : Place) : (commitPlace s p).xrWritten = s.xrWritten := rfl
@[simp] theorem commitPlace_crWritten (p : Place) : (commitPlace s p).crWritten = s.crWritten := rfl
@[simp] theorem commitPlace_mem (p : Place) : (commitPlace s p).mem = s.mem := rfl
@[simp] theorem commitPlace_bmemBlocks (p : Place) : (commitPlace s p).bmemBlocks = s.bmemBlocks := rfl
@[simp] theorem commitPlace_resetAsserted (p : Place) : (commitPlace s p).resetAsserted = s.resetAsserted := rfl
@[simp] theorem commitPlace_raced (p : Place) : (commitPlace s p).raced = s.raced := rfl
@[simp] theorem commitPlace_draws (p : Place) : (commitPlace s p).draws = s.draws := rfl
@[simp] theorem commitPlace_script (p : Place) : (commitPlace s p).script = s.script := rfl
@[simp] theorem commitPlace_readData (p : Place) : (commitPlace s p).readData = s.readData := rfl
@[simp] theorem commitPlace_bmemBytes (p : Place) : (commitPlace s p).bmemBytes = s.bmemBytes := rfl
@[simp] theorem commitPlace_x (p : Place) (j : RegIdx) : (commitPlace s p).x j = s.x j := rfl
@[simp] theorem commitPlace_c (p : Place) (j : RegIdx) : (commitPlace s p).c j = s.c j := rfl

@[simp] theorem commitTable_status (n : Nat) (p : Place) : (commitTable s n p).status = ⟨s.status.busy, s.status.done, s.status.err, p.newPtr.isSome, s.status.hz⟩ := rfl
@[simp] theorem commitTable_ie (n : Nat) (p : Place) : (commitTable s n p).ie = s.ie := rfl
@[simp] theorem commitTable_lastCmd (n : Nat) (p : Place) : (commitTable s n p).lastCmd = s.lastCmd := rfl
@[simp] theorem commitTable_size (n : Nat) (p : Place) : (commitTable s n p).size = s.size := rfl
@[simp] theorem commitTable_inBase (n : Nat) (p : Place) : (commitTable s n p).inBase = s.inBase := rfl
@[simp] theorem commitTable_outBase (n : Nat) (p : Place) : (commitTable s n p).outBase = s.outBase := rfl
@[simp] theorem commitTable_tblBase (n : Nat) (p : Place) : (commitTable s n p).tblBase = (if p.newPtr.isSome then BitVec.ofNat 32 p.base else s.tblBase) := rfl
@[simp] theorem commitTable_tblLen (n : Nat) (p : Place) : (commitTable s n p).tblLen = BitVec.ofNat 32 n := rfl
@[simp] theorem commitTable_resBase (n : Nat) (p : Place) : (commitTable s n p).resBase = BitVec.ofNat 32 p.base := rfl
@[simp] theorem commitTable_poolBase (n : Nat) (p : Place) : (commitTable s n p).poolBase = s.poolBase := rfl
@[simp] theorem commitTable_poolLimit (n : Nat) (p : Place) : (commitTable s n p).poolLimit = s.poolLimit := rfl
@[simp] theorem commitTable_xr (n : Nat) (p : Place) : (commitTable s n p).xr = s.xr := rfl
@[simp] theorem commitTable_cr (n : Nat) (p : Place) : (commitTable s n p).cr = s.cr := rfl
@[simp] theorem commitTable_xrWritten (n : Nat) (p : Place) : (commitTable s n p).xrWritten = s.xrWritten := rfl
@[simp] theorem commitTable_crWritten (n : Nat) (p : Place) : (commitTable s n p).crWritten = s.crWritten := rfl
@[simp] theorem commitTable_mem (n : Nat) (p : Place) : (commitTable s n p).mem = writeEntries s.mem p.base (tableOf n) := rfl
@[simp] theorem commitTable_bmemBlocks (n : Nat) (p : Place) : (commitTable s n p).bmemBlocks = s.bmemBlocks := rfl
@[simp] theorem commitTable_resetAsserted (n : Nat) (p : Place) : (commitTable s n p).resetAsserted = s.resetAsserted := rfl
@[simp] theorem commitTable_raced (n : Nat) (p : Place) : (commitTable s n p).raced = s.raced := rfl
@[simp] theorem commitTable_draws (n : Nat) (p : Place) : (commitTable s n p).draws = s.draws := rfl
@[simp] theorem commitTable_script (n : Nat) (p : Place) : (commitTable s n p).script = s.script := rfl
@[simp] theorem commitTable_readData (n : Nat) (p : Place) : (commitTable s n p).readData = s.readData := rfl
@[simp] theorem commitTable_bmemBytes (n : Nat) (p : Place) : (commitTable s n p).bmemBytes = s.bmemBytes := rfl
@[simp] theorem commitTable_x (n : Nat) (p : Place) (j : RegIdx) : (commitTable s n p).x j = s.x j := rfl
@[simp] theorem commitTable_c (n : Nat) (p : Place) (j : RegIdx) : (commitTable s n p).c j = s.c j := rfl

@[simp] theorem issue_status (w : Word32) : (issue s w).status = ⟨true, false, s.status.err, s.status.alloc, s.status.hz⟩ := rfl
@[simp] theorem issue_ie (w : Word32) : (issue s w).ie = s.ie := rfl
@[simp] theorem issue_lastCmd (w : Word32) : (issue s w).lastCmd = w := rfl
@[simp] theorem issue_size (w : Word32) : (issue s w).size = s.size := rfl
@[simp] theorem issue_inBase (w : Word32) : (issue s w).inBase = s.inBase := rfl
@[simp] theorem issue_outBase (w : Word32) : (issue s w).outBase = s.outBase := rfl
@[simp] theorem issue_tblBase (w : Word32) : (issue s w).tblBase = s.tblBase := rfl
@[simp] theorem issue_tblLen (w : Word32) : (issue s w).tblLen = s.tblLen := rfl
@[simp] theorem issue_resBase (w : Word32) : (issue s w).resBase = s.resBase := rfl
@[simp] theorem issue_poolBase (w : Word32) : (issue s w).poolBase = s.poolBase := rfl
@[simp] theorem issue_poolLimit (w : Word32) : (issue s w).poolLimit = s.poolLimit := rfl
@[simp] theorem issue_allocPtr (w : Word32) : (issue s w).allocPtr = s.allocPtr := rfl
@[simp] theorem issue_xr (w : Word32) : (issue s w).xr = s.xr := rfl
@[simp] theorem issue_cr (w : Word32) : (issue s w).cr = s.cr := rfl
@[simp] theorem issue_xrWritten (w : Word32) : (issue s w).xrWritten = s.xrWritten := rfl
@[simp] theorem issue_crWritten (w : Word32) : (issue s w).crWritten = s.crWritten := rfl
@[simp] theorem issue_mem (w : Word32) : (issue s w).mem = s.mem := rfl
@[simp] theorem issue_bmemBlocks (w : Word32) : (issue s w).bmemBlocks = s.bmemBlocks := rfl
@[simp] theorem issue_resetAsserted (w : Word32) : (issue s w).resetAsserted = s.resetAsserted := rfl
@[simp] theorem issue_raced (w : Word32) : (issue s w).raced = s.raced := rfl
@[simp] theorem issue_draws (w : Word32) : (issue s w).draws = s.draws := rfl
@[simp] theorem issue_script (w : Word32) : (issue s w).script = s.script := rfl
@[simp] theorem issue_readData (w : Word32) : (issue s w).readData = s.readData := rfl
@[simp] theorem issue_bmemBytes (w : Word32) : (issue s w).bmemBytes = s.bmemBytes := rfl
@[simp] theorem issue_x (w : Word32) (j : RegIdx) : (issue s w).x j = s.x j := rfl
@[simp] theorem issue_c (w : Word32) (j : RegIdx) : (issue s w).c j = s.c j := rfl

@[simp] theorem returned_status (v : Word64) (k : Nat) : (s.returned v k).status = s.status := rfl
@[simp] theorem returned_ie (v : Word64) (k : Nat) : (s.returned v k).ie = s.ie := rfl
@[simp] theorem returned_lastCmd (v : Word64) (k : Nat) : (s.returned v k).lastCmd = s.lastCmd := rfl
@[simp] theorem returned_size (v : Word64) (k : Nat) : (s.returned v k).size = s.size := rfl
@[simp] theorem returned_inBase (v : Word64) (k : Nat) : (s.returned v k).inBase = s.inBase := rfl
@[simp] theorem returned_outBase (v : Word64) (k : Nat) : (s.returned v k).outBase = s.outBase := rfl
@[simp] theorem returned_tblBase (v : Word64) (k : Nat) : (s.returned v k).tblBase = s.tblBase := rfl
@[simp] theorem returned_tblLen (v : Word64) (k : Nat) : (s.returned v k).tblLen = s.tblLen := rfl
@[simp] theorem returned_resBase (v : Word64) (k : Nat) : (s.returned v k).resBase = s.resBase := rfl
@[simp] theorem returned_poolBase (v : Word64) (k : Nat) : (s.returned v k).poolBase = s.poolBase := rfl
@[simp] theorem returned_poolLimit (v : Word64) (k : Nat) : (s.returned v k).poolLimit = s.poolLimit := rfl
@[simp] theorem returned_allocPtr (v : Word64) (k : Nat) : (s.returned v k).allocPtr = s.allocPtr := rfl
@[simp] theorem returned_xr (v : Word64) (k : Nat) : (s.returned v k).xr = s.xr := rfl
@[simp] theorem returned_cr (v : Word64) (k : Nat) : (s.returned v k).cr = s.cr := rfl
@[simp] theorem returned_xrWritten (v : Word64) (k : Nat) : (s.returned v k).xrWritten = s.xrWritten := rfl
@[simp] theorem returned_crWritten (v : Word64) (k : Nat) : (s.returned v k).crWritten = s.crWritten := rfl
@[simp] theorem returned_mem (v : Word64) (k : Nat) : (s.returned v k).mem = s.mem := rfl
@[simp] theorem returned_bmemBlocks (v : Word64) (k : Nat) : (s.returned v k).bmemBlocks = s.bmemBlocks := rfl
@[simp] theorem returned_resetAsserted (v : Word64) (k : Nat) : (s.returned v k).resetAsserted = s.resetAsserted := rfl
@[simp] theorem returned_raced (v : Word64) (k : Nat) : (s.returned v k).raced = s.raced := rfl
@[simp] theorem returned_draws (v : Word64) (k : Nat) : (s.returned v k).draws = s.draws + k := rfl
@[simp] theorem returned_script (v : Word64) (k : Nat) : (s.returned v k).script = s.script := rfl
@[simp] theorem returned_readData (v : Word64) (k : Nat) : (s.returned v k).readData = v := rfl
@[simp] theorem returned_bmemBytes (v : Word64) (k : Nat) : (s.returned v k).bmemBytes = s.bmemBytes := rfl
@[simp] theorem returned_x (v : Word64) (k : Nat) (j : RegIdx) : (s.returned v k).x j = s.x j := rfl
@[simp] theorem returned_c (v : Word64) (k : Nat) (j : RegIdx) : (s.returned v k).c j = s.c j := rfl

@[simp] theorem resetControl_status : (resetControl s).status = Status.reset := rfl
@[simp] theorem resetControl_ie : (resetControl s).ie = false := rfl
@[simp] theorem resetControl_lastCmd : (resetControl s).lastCmd = 0 := rfl
@[simp] theorem resetControl_size : (resetControl s).size = 0 := rfl
@[simp] theorem resetControl_inBase : (resetControl s).inBase = 0 := rfl
@[simp] theorem resetControl_outBase : (resetControl s).outBase = 0 := rfl
@[simp] theorem resetControl_tblBase : (resetControl s).tblBase = 0 := rfl
@[simp] theorem resetControl_tblLen : (resetControl s).tblLen = 0 := rfl
@[simp] theorem resetControl_resBase : (resetControl s).resBase = 0 := rfl
@[simp] theorem resetControl_poolBase : (resetControl s).poolBase = 0 := rfl
@[simp] theorem resetControl_poolLimit : (resetControl s).poolLimit = 0 := rfl
@[simp] theorem resetControl_allocPtr : (resetControl s).allocPtr = 0 := rfl
@[simp] theorem resetControl_xr : (resetControl s).xr = s.xr := rfl
@[simp] theorem resetControl_cr : (resetControl s).cr = s.cr := rfl
@[simp] theorem resetControl_xrWritten : (resetControl s).xrWritten = s.xrWritten := rfl
@[simp] theorem resetControl_crWritten : (resetControl s).crWritten = s.crWritten := rfl
@[simp] theorem resetControl_mem : (resetControl s).mem = s.mem := rfl
@[simp] theorem resetControl_bmemBlocks : (resetControl s).bmemBlocks = s.bmemBlocks := rfl
@[simp] theorem resetControl_resetAsserted : (resetControl s).resetAsserted = s.resetAsserted := rfl
@[simp] theorem resetControl_raced : (resetControl s).raced = [] := rfl
@[simp] theorem resetControl_draws : (resetControl s).draws = s.draws := rfl
@[simp] theorem resetControl_script : (resetControl s).script = s.script := rfl
@[simp] theorem resetControl_readData : (resetControl s).readData = s.readData := rfl
@[simp] theorem resetControl_bmemBytes : (resetControl s).bmemBytes = s.bmemBytes := rfl
@[simp] theorem resetControl_x (j : RegIdx) : (resetControl s).x j = s.x j := rfl
@[simp] theorem resetControl_c (j : RegIdx) : (resetControl s).c j = s.c j := rfl

@[simp] theorem setX_x_same (i : RegIdx) (v : Word64) : (s.setX i v).x i = v := by simp [State.x]

@[simp] theorem setX_x_other (i j : RegIdx) (v : Word64) (h : j ≠ i) : (s.setX i v).x j = s.x j := by
  simp [State.x, Vector.getElem_set_ne, Fin.val_ne_of_ne h.symm]

@[simp] theorem setC_c_same (i : RegIdx) (z : Cplx) : (s.setC i z).c i = z := by simp [State.c]

@[simp] theorem setC_c_other (i j : RegIdx) (z : Cplx) (h : j ≠ i) : (s.setC i z).c j = s.c j := by
  simp [State.c, Vector.getElem_set_ne, Fin.val_ne_of_ne h.symm]

@[simp] theorem setCRe_c_same (i : RegIdx) (v : F64) : (s.setCRe i v).c i = ⟨v, (s.c i).im⟩ := by
  simp [State.c, State.setCRe]

@[simp] theorem setCRe_c_other (i j : RegIdx) (v : F64) (h : j ≠ i) : (s.setCRe i v).c j = s.c j := by
  simp [State.c, State.setCRe, Vector.getElem_set_ne, Fin.val_ne_of_ne h.symm]

@[simp] theorem setCIm_c_same (i : RegIdx) (v : F64) : (s.setCIm i v).c i = ⟨(s.c i).re, v⟩ := by
  simp [State.c, State.setCIm]

@[simp] theorem setCIm_c_other (i j : RegIdx) (v : F64) (h : j ≠ i) : (s.setCIm i v).c j = s.c j := by
  simp [State.c, State.setCIm, Vector.getElem_set_ne, Fin.val_ne_of_ne h.symm]

end Sys2Proof.Machine
end

