-- ==== Sys2Proof/Laws/Ops.lean ====
section
/-!
SUPPORT. One lemma for each shared operation that says once all it can do: the end of a command, the output place,
the pool, the checks and the bodies of the buffer commands, and drawing.
-/

namespace Sys2Proof.Machine

/-! ### The end of a command -/

/-- What `finish` answers when it answers a next state: the command succeeded or raised a code. -/
theorem finish_next {s t : State} {r : Except Stop State} (h : finish s r = .next t) :
    (∃ u, r = .ok u ∧ t = complete u .none) ∨ (∃ c, r = .error (.raise c) ∧ t = complete s c) := by
  rcases r with (c | f) | u
  · exact .inr ⟨c, rfl, by simpa [finish] using h.symm⟩
  · simp [finish] at h
  · exact .inl ⟨u, rfl, by simpa [finish] using h.symm⟩

/-- `finish` faults only with a fault the command met, and never refuses. -/
theorem finish_fault {s : State} {r : Except Stop State} {f : Fault} (h : finish s r = .fault f) :
    r = .error (.fault f) := by
  rcases r with (c | g) | u
  · simp [finish] at h
  · simpa [finish] using h
  · simp [finish] at h

theorem finish_not_refused (s : State) (r : Except Stop State) (q : Refusal) : finish s r ≠ .refused q := by
  rcases r with (c | f) | u <;> simp [finish]

@[simp] theorem finish_ok (s u : State) : finish s (.ok u) = .next (complete u .none) := rfl

@[simp] theorem finish_raise (s : State) (c : ErrCode) : finish s (.error (.raise c)) = .next (complete s c) := rfl

@[simp] theorem finish_faulted (s : State) (f : Fault) : finish s (.error (.fault f)) = .fault f := rfl

@[simp] theorem writesC_eq (s : State) (i : RegIdx) (z : Cplx) :
    writesC s i z = .next (complete (s.setC i z) .none) := rfl

@[simp] theorem writesX_eq (s : State) (i : RegIdx) (v : Word64) :
    writesX s i v = .next (complete (s.setX i v) .none) := rfl

@[simp] theorem orFault_ok {α : Type} (a : α) : orFault (.ok a) = .ok a := rfl

@[simp] theorem orFault_error {α : Type} (f : Fault) : orFault (.error f : Except Fault α) = .error (.fault f) := rfl

theorem orFault_eq_ok {α : Type} {r : Except Fault α} {a : α} (h : orFault r = .ok a) : r = .ok a := by
  cases r with
  | ok b => simpa [orFault] using h
  | error f => simp [orFault] at h

theorem orFault_eq_error {α : Type} {r : Except Fault α} {e : Stop} (h : orFault r = .error e) :
    ∃ f, r = .error f ∧ e = .fault f := by
  cases r with
  | ok b => simp [orFault] at h
  | error f => exact ⟨f, rfl, by simpa [orFault] using h.symm⟩

/-! ### Addresses, the pool, the output place -/

theorem rangeOk_iff {s : State} {align base len : Nat} :
    rangeOk s align base len = true ↔ base % align = 0 ∧ base + len ≤ s.bmemBytes := by
  simp [rangeOk]

/-- BMEM_BYTES is legal in every state (00_scope.md R8). -/
theorem bmemBytes_legal (s : State) : s.bmemBytes % 16 = 0 ∧ 16 ≤ s.bmemBytes ∧ s.bmemBytes ≤ 2 ^ 31 := by
  have := s.bmemBlocks.isLt
  unfold State.bmemBytes
  omega

theorem poolAddr_aligned (r : BitVec 28) : poolAddr r % 16 = 0 := by unfold poolAddr; omega

theorem le_roundup16 (n : Nat) : n ≤ roundup16 n ∧ roundup16 n < n + 16 ∧ roundup16 n % 16 = 0 := by
  unfold roundup16; omega

/-- What `alloc` answers: a block of the pool, inside BMEM, whose base is ALLOC_PTR (20_memory.md R92). -/
theorem alloc_some {s : State} {size base stop : Nat} (h : alloc s size = some (base, stop)) :
    base = poolAddr s.allocPtr ∧ stop = base + roundup16 size ∧ poolAddr s.poolBase ≤ base ∧
      stop ≤ poolAddr s.poolLimit ∧ stop ≤ s.bmemBytes := by
  simp only [alloc] at h
  split at h
  · simp at h
  · simp only [Option.some.injEq, Prod.mk.injEq] at h
    omega

/-- `alloc` fails exactly under the three conditions of 60_exceptions.md R252. -/
theorem alloc_none {s : State} {size : Nat} :
    alloc s size = none ↔ poolAddr s.allocPtr < poolAddr s.poolBase ∨
      poolAddr s.poolLimit < poolAddr s.allocPtr + roundup16 size ∨
      s.bmemBytes < poolAddr s.allocPtr + roundup16 size := by
  simp only [alloc]
  split <;> simp_all

/-- Every place `outputPlace` gives lies inside BMEM; it is the caller's buffer or the pool's block. -/
theorem outputPlace_ok {s : State} {o : Bool} {align base len : Nat} {p : Place}
    (h : outputPlace s o align base len = .ok p) :
    p.base + len ≤ s.bmemBytes ∧
      ((o = true ∧ p = ⟨base, none⟩ ∧ base % align = 0) ∨
       (o = false ∧ alloc s len = some (p.base, p.base + roundup16 len) ∧
          p.newPtr = some (p.base + roundup16 len))) := by
  cases o with
  | true =>
    simp only [outputPlace, if_true] at h
    split at h
    · next hr =>
      simp only [Except.ok.injEq] at h
      subst h
      exact ⟨(rangeOk_iff.1 hr).2, .inl ⟨rfl, rfl, (rangeOk_iff.1 hr).1⟩⟩
    · simp at h
  | false =>
    simp only [outputPlace, Bool.false_eq_true, if_false] at h
    split at h
    · simp at h
    · next b e ha =>
      simp only [Except.ok.injEq] at h
      subst h
      have hs := alloc_some ha
      have hl := le_roundup16 len
      refine ⟨by show b + len ≤ _; omega, .inr ⟨rfl, ?_, ?_⟩⟩
      · rw [ha, hs.2.1]
      · show some e = _
        rw [hs.2.1]

/-- The codes `outputPlace` can raise. -/
theorem outputPlace_error {s : State} {o : Bool} {align base len : Nat} {e : Stop}
    (h : outputPlace s o align base len = .error e) :
    (o = true ∧ e = .raise .addressError) ∨ (o = false ∧ e = .raise .allocationFailure) := by
  cases o with
  | true =>
    simp only [outputPlace, if_true] at h
    split at h
    · simp at h
    · exact .inl ⟨rfl, by simpa using h.symm⟩
  | false =>
    simp only [outputPlace, Bool.false_eq_true, if_false] at h
    split at h
    · exact .inr ⟨rfl, by simpa using h.symm⟩
    · simp at h

@[simp] theorem commitPlace_allocPtr_caller (s : State) (b : Nat) : (commitPlace s ⟨b, none⟩).allocPtr = s.allocPtr := rfl

@[simp] theorem commitPlace_allocPtr_pool (s : State) (b stop : Nat) :
    (commitPlace s ⟨b, some stop⟩).allocPtr = BitVec.ofNat 28 (stop / 16) := rfl

@[simp] theorem commitTable_allocPtr (s : State) (n : Nat) (p : Place) :
    (commitTable s n p).allocPtr = (commitPlace s p).allocPtr := rfl

theorem elementAddr_ok {s : State} {i : RegIdx} {ea : Nat} (h : elementAddr s i = .ok ea) :
    ea = (s.x i).toNat ∧ ea % 8 = 0 ∧ ea + 16 ≤ s.bmemBytes := by
  unfold elementAddr at h
  split at h
  · next hr =>
    simp only [Except.ok.injEq] at h
    subst h
    exact ⟨rfl, rangeOk_iff.1 hr⟩
  · simp at h

theorem elementAddr_error {s : State} {i : RegIdx} {e : Stop} (h : elementAddr s i = .error e) :
    e = .raise .addressError ∧ ¬ ((s.x i).toNat % 8 = 0 ∧ (s.x i).toNat + 16 ≤ s.bmemBytes) := by
  unfold elementAddr at h
  split at h
  · simp at h
  · next hr => exact ⟨by simpa using h.symm, fun hc => hr (rangeOk_iff.2 hc)⟩

/-! ### The bodies of the buffer commands -/

/-- All that BUILDTBL's body does when it succeeds. -/
theorem buildTable_ok {o : Bool} {s t : State} (h : buildTable o s = .ok t) :
    isPow2 s.size.toNat = true ∧ ∃ p, outputPlace s o 4 s.tblBase.toNat (4 * s.size.toNat) = .ok p ∧
      t = commitTable s s.size.toNat p := by
  simp only [buildTable, require] at h
  cases hp : isPow2 s.size.toNat with
  | false => simp [hp] at h
  | true =>
    simp only [hp, if_true] at h
    cases ho : outputPlace s o 4 s.tblBase.toNat (4 * s.size.toNat) with
    | error e => simp [ho] at h
    | ok p => exact ⟨rfl, p, rfl, by simpa [ho] using h.symm⟩

/-- All the ways BUILDTBL's body can stop: it raises INVALID_SIZE, or its destination's code. -/
theorem buildTable_error {o : Bool} {s : State} {e : Stop} (h : buildTable o s = .error e) :
    (isPow2 s.size.toNat = false ∧ e = .raise .invalidSize) ∨
      (isPow2 s.size.toNat = true ∧ outputPlace s o 4 s.tblBase.toNat (4 * s.size.toNat) = .error e) := by
  simp only [buildTable, require] at h
  cases hp : isPow2 s.size.toNat with
  | false => exact .inl ⟨rfl, by simpa [hp] using h.symm⟩
  | true =>
    simp only [hp, if_true] at h
    cases ho : outputPlace s o 4 s.tblBase.toNat (4 * s.size.toNat) with
    | error d => exact .inr ⟨rfl, by simpa [ho] using h⟩
    | ok p => simp [ho] at h

/-- All that FFT's checks establish when they pass (42_fft.md R214). -/
theorem fftPlace_ok {o t : Bool} {s : State} {p : Place} (h : fftPlace o t s = .ok p) :
    isPow2 s.size.toNat = true ∧ (t = true → s.tblLen = s.size) ∧
      rangeOk s 8 s.inBase.toNat (16 * s.size.toNat) = true ∧
      (t = true → rangeOk s 4 s.tblBase.toNat (4 * s.size.toNat) = true) ∧
      outputPlace s o 8 s.outBase.toNat (16 * s.size.toNat) = .ok p ∧
      overlap p.base (16 * s.size.toNat) s.inBase.toNat (16 * s.size.toNat) = false ∧
      (t = true → overlap p.base (16 * s.size.toNat) s.tblBase.toNat (4 * s.size.toNat) = false) := by
  simp only [fftPlace] at h
  split at h
  · simp at h
  split at h
  · simp at h
  split at h
  · simp at h
  split at h
  · simp at h
  split at h
  · simp at h
  split at h
  · simp at h
  split at h
  · simp at h
  next h1 h2 h3 h4 _ q hq h5 h6 =>
  simp only [Except.ok.injEq] at h
  subst h
  refine ⟨by simpa using h1, fun ht => by simpa [ht] using h2, by simpa using h3,
    fun ht => by simpa [ht] using h4, hq, by simpa using h5, fun ht => by simpa [ht] using h6⟩

/-- All that FFT's body does when it succeeds. -/
theorem fftCommand_ok {o t : Bool} {s u : State} (h : fftCommand o t s = .ok u) :
    ∃ p perm input, fftPlace o t s = .ok p ∧ fftPermutation t s = .ok perm ∧
      readElements s.mem s.inBase.toNat s.size.toNat = .ok input ∧
      u = commitPlace (s.setMem (writeElements s.mem p.base (transform perm input))) p := by
  simp only [fftCommand] at h
  cases hp : fftPlace o t s with
  | error e => simp [hp] at h
  | ok p =>
    cases hq : fftPermutation t s with
    | error e => simp [hp, hq] at h
    | ok perm =>
      cases hr : orFault (readElements s.mem s.inBase.toNat s.size.toNat) with
      | error e => simp [hp, hq, hr] at h
      | ok input => exact ⟨p, perm, input, rfl, rfl, orFault_eq_ok hr, by simpa [hp, hq, hr] using h.symm⟩

/-- All the ways FFT's body can stop, in the order of 60_exceptions.md R258. -/
theorem fftCommand_error {o t : Bool} {s : State} {e : Stop} (h : fftCommand o t s = .error e) :
    fftPlace o t s = .error e ∨
      ∃ p, fftPlace o t s = .ok p ∧
        (fftPermutation t s = .error e ∨
          ∃ perm f, fftPermutation t s = .ok perm ∧
            readElements s.mem s.inBase.toNat s.size.toNat = .error f ∧ e = .fault f) := by
  simp only [fftCommand] at h
  cases hp : fftPlace o t s with
  | error d => exact .inl (by simpa [hp] using h)
  | ok p =>
    refine .inr ⟨p, rfl, ?_⟩
    cases hq : fftPermutation t s with
    | error d => exact .inl (by simpa [hp, hq] using h)
    | ok perm =>
      cases hr : readElements s.mem s.inBase.toNat s.size.toNat with
      | error f => exact .inr ⟨perm, f, rfl, rfl, by simpa [hp, hq, hr] using h.symm⟩
      | ok input => simp [hp, hq, hr] at h

/-- The permutation FFT uses is a list of `N` slots. -/
theorem fftPermutation_ok {t : Bool} {s : State} {perm : List Nat} (h : fftPermutation t s = .ok perm) :
    perm.length = s.size.toNat ∧
      ((t = true ∧ readEntries s.mem s.tblBase.toNat s.size.toNat = .ok perm ∧
          isPermutation perm s.size.toNat = true) ∨
       (t = false ∧ perm = tableOf s.size.toNat)) := by
  simp only [fftPermutation] at h
  cases t with
  | true =>
    simp only [if_true] at h
    cases hr : readEntries s.mem s.tblBase.toNat s.size.toNat with
    | error f => simp [hr] at h
    | ok e =>
      simp only [hr, orFault_ok] at h
      split at h
      · next hi =>
        simp only [Except.ok.injEq] at h
        subst h
        exact ⟨readEntries_length hr, .inl ⟨rfl, rfl, hi⟩⟩
      · simp at h
  | false =>
    simp only [Bool.false_eq_true, if_false, Except.ok.injEq] at h
    subst h
    exact ⟨by simp [tableOf], .inr ⟨rfl, rfl⟩⟩

/-! ### The transform keeps the length -/

theorem permute_length (perm : List Nat) (input : List Cplx) : (permute perm input).length = input.length := by
  unfold permute
  generalize perm.zip input = ps
  suffices h : ∀ out : List Cplx, (ps.foldl (fun out p => out.set p.1 p.2) out).length = out.length by
    simpa using h (List.replicate input.length ⟨0, 0⟩)
  induction ps with
  | nil => intro out; rfl
  | cons p ps ih => intro out; simp [ih]

theorem butterflyBlock_length (wm : Cplx) (h k : Nat) (out : List Cplx) :
    (butterflyBlock wm h out k).length = out.length := by
  unfold butterflyBlock
  generalize List.range h = js
  suffices hh : ∀ acc : Cplx × List Cplx, (js.foldl (butterflyAt wm h k) acc).2.length = acc.2.length by
    simpa using hh (cone, out)
  induction js with
  | nil => intro acc; rfl
  | cons j js ih => intro acc; rw [List.foldl_cons, ih]; simp [butterflyAt]

theorem butterflyStage_length (out : List Cplx) (stage : Nat) : (butterflyStage out stage).length = out.length := by
  simp only [butterflyStage]
  generalize (List.range (out.length / 2 ^ stage)).map (· * 2 ^ stage) = ks
  induction ks generalizing out with
  | nil => rfl
  | cons k ks ih => rw [List.foldl_cons, ih, butterflyBlock_length]

theorem butterflyStages_length (out : List Cplx) : (butterflyStages out).length = out.length := by
  unfold butterflyStages
  generalize (List.range (log2Bits out.length)).map (· + 1) = ss
  induction ss generalizing out with
  | nil => rfl
  | cons k ss ih => rw [List.foldl_cons, ih, butterflyStage_length]

theorem transform_length (perm : List Nat) (input : List Cplx) : (transform perm input).length = input.length := by
  rw [transform, butterflyStages_length, permute_length]

/-! ### Drawing -/

/-- Drawing bytes changes memory and the count of draws only. -/
theorem havocBytes_frame (s : State) (as : List Nat) :
    havocBytes s as = { s with mem := (havocBytes s as).mem, draws := s.draws + as.length } := by
  induction as generalizing s with
  | nil => rfl
  | cons a as ih =>
    rw [havocBytes, ih]
    simp [State.drawn, State.setMem]
    omega

theorem byte_havocBytes_outside {s : State} {as : List Nat} {c : Nat} (h : c ∉ as) :
    (havocBytes s as).mem.byte c = s.mem.byte c := by
  induction as generalizing s with
  | nil => rfl
  | cons a as ih =>
    simp only [List.mem_cons, not_or] at h
    rw [havocBytes, ih h.2]
    simp [byte_setByte_other _ _ h.1]

theorem havocBytes_wf {s : State} (h : s.mem.wf) (as : List Nat) : (havocBytes s as).mem.wf := by
  induction as generalizing s with
  | nil => exact h
  | cons a as ih => exact ih (setByte_wf h _ _)

theorem mem_havocBytes {s : State} {as : List Nat} {p : Host.Cell} (h : p ∈ (havocBytes s as).mem) :
    p.1 ∈ as ∨ p ∈ s.mem := by
  induction as generalizing s with
  | nil => exact .inr h
  | cons a as ih =>
    rcases ih h with h | h
    · exact .inl (List.mem_cons_of_mem _ h)
    · rcases mem_setByte h with rfl | h
      · exact .inl (by simp)
      · exact .inr h

/-- Every element of U, and nothing else, can be drawn (00_scope.md R25). -/
theorem unitDraw_le (w : Word64) : (unitDraw w).toNat ≤ fone.toNat := by
  have h : w.toNat % (fone.toNat + 1) < fone.toNat + 1 := Nat.mod_lt _ (by omega)
  have hf : fone.toNat < 2 ^ 64 := fone.isLt
  rw [unitDraw, BitVec.toNat_ofNat, Nat.mod_eq_of_lt (by omega)]
  omega

theorem rangeBytes_inside {s : State} {r : Nat × Nat} {a : Nat} (h : a ∈ rangeBytes s r) :
    r.1 ≤ a ∧ a < r.1 + r.2 ∧ a < s.bmemBytes := by
  simp only [rangeBytes, List.mem_map, List.mem_range] at h
  omega

end Sys2Proof.Machine
end

