-- ==== Sys2Proof/Laws/Fft.lean ====
section
/-!
SUPPORT. The two phases of the transform in closed form (42_fft.md R212, R213): where the bit-reverse copy puts each
input element, and what one stage writes to each slot in terms of the stage before.
-/

namespace Sys2Proof.Machine

/-- The running twiddle after `j` turns of the j loop: ONE multiplied `j` times by the stage's factor (R213). -/
abbrev twiddleAt (wm : Cplx) (j : Nat) : Cplx := (fun w => cmul w wm)^[j] cone

theorem twiddleAt_succ (wm : Cplx) (j : Nat) : twiddleAt wm (j + 1) = cmul (twiddleAt wm j) wm :=
  Function.iterate_succ_apply' _ _ _

theorem getD_set (l : List Cplx) (i n : Nat) (a : Cplx) (hi : i < l.length) :
    (l.set i a).getD n default = if n = i then a else l.getD n default := by
  simp only [List.getD_eq_getElem?_getD, List.getElem?_set]
  by_cases h : n = i
  · subst h; simp [hi]
  · simp [h, Ne.symm h]

/-- Slot `i` after `n` turns of the j loop on the block at `k`: the first `n` slots of each half are written. -/
def blockSlot (wm : Cplx) (h k n : Nat) (out : List Cplx) (i : Nat) : Cplx :=
  if k ≤ i ∧ i < k + n then cadd (out.getD i default) (cmul (twiddleAt wm (i - k)) (out.getD (i + h) default))
  else if k + h ≤ i ∧ i < k + h + n then
    csub (out.getD (i - h) default) (cmul (twiddleAt wm (i - h - k)) (out.getD i default))
  else out.getD i default

theorem butterflyLoop (wm : Cplx) (h k : Nat) (out : List Cplx) (n : Nat) (hn : n ≤ h)
    (hk : k + 2 * h ≤ out.length) :
    ((List.range n).foldl (butterflyAt wm h k) (cone, out)).1 = twiddleAt wm n ∧
    ((List.range n).foldl (butterflyAt wm h k) (cone, out)).2.length = out.length ∧
    ∀ i, ((List.range n).foldl (butterflyAt wm h k) (cone, out)).2.getD i default = blockSlot wm h k n out i := by
  induction n with
  | zero => exact ⟨rfl, rfl, fun i => by simp only [blockSlot]; rw [if_neg (by omega), if_neg (by omega)]; rfl⟩
  | succ n ih =>
    obtain ⟨h1, h2, h3⟩ := ih (by omega)
    rw [List.range_succ, List.foldl_append]
    simp only [List.foldl_cons, List.foldl_nil]
    generalize (List.range n).foldl (butterflyAt wm h k) (cone, out) = acc at h1 h2 h3
    have hu : acc.2.getD (k + n) default = out.getD (k + n) default := by
      rw [h3, blockSlot, if_neg (by omega), if_neg (by omega)]
    have hv : acc.2.getD (k + n + h) default = out.getD (k + n + h) default := by
      rw [h3, blockSlot, if_neg (by omega), if_neg (by omega)]
    refine ⟨by rw [twiddleAt_succ, ← h1]; rfl, by simp [butterflyAt, h2], fun i => ?_⟩
    simp only [butterflyAt, hu, hv, h1]
    rw [getD_set _ _ _ _ (by rw [List.length_set, h2]; omega), getD_set _ _ _ _ (by rw [h2]; omega), h3]
    by_cases hi1 : i = k + n + h
    · subst hi1
      rw [if_pos rfl, blockSlot, if_neg (by omega), if_pos (by omega)]
      rw [show k + n + h - h = k + n by omega, show k + n - k = n by omega]
    · rw [if_neg hi1]
      by_cases hi2 : i = k + n
      · subst hi2
        rw [if_pos rfl, blockSlot, if_pos (by omega), show k + n - k = n by omega]
      · rw [if_neg hi2]
        simp only [blockSlot]
        split_ifs <;> first | rfl | (exfalso; omega)

theorem butterflyBlock_getD (wm : Cplx) (h k : Nat) (out : List Cplx) (hk : k + 2 * h ≤ out.length) (i : Nat) :
    (butterflyBlock wm h out k).getD i default = blockSlot wm h k h out i :=
  (butterflyLoop wm h k out h le_rfl hk).2.2 i

/-- The first `n` blocks of a stage leave every slot from block `n` on as it was, and write the others. -/
theorem butterflyBlocks (wm : Cplx) (h : Nat) (out : List Cplx) (n : Nat) (hn : n * (2 * h) ≤ out.length) :
    (((List.range n).map (· * (2 * h))).foldl (butterflyBlock wm h) out).length = out.length ∧
    (∀ i, n * (2 * h) ≤ i →
      (((List.range n).map (· * (2 * h))).foldl (butterflyBlock wm h) out).getD i default = out.getD i default) ∧
    ∀ b i, b < n → b * (2 * h) ≤ i → i < b * (2 * h) + 2 * h →
      (((List.range n).map (· * (2 * h))).foldl (butterflyBlock wm h) out).getD i default =
        blockSlot wm h (b * (2 * h)) h out i := by
  induction n with
  | zero => exact ⟨rfl, fun _ _ => rfl, fun b i hb => by omega⟩
  | succ n ih =>
    rw [Nat.succ_mul] at hn
    obtain ⟨h1, h2, h3⟩ := ih (by omega)
    rw [List.range_succ, List.map_append, List.foldl_append]
    simp only [List.map_cons, List.map_nil, List.foldl_cons, List.foldl_nil]
    generalize ((List.range n).map (· * (2 * h))).foldl (butterflyBlock wm h) out = acc at h1 h2 h3
    have hblk := butterflyLoop wm h (n * (2 * h)) acc h le_rfl (by omega)
    refine ⟨hblk.2.1.trans h1, fun i hi => ?_, fun b i hb hi1 hi2 => ?_⟩
    · rw [Nat.succ_mul] at hi
      refine (hblk.2.2 i).trans ?_
      rw [blockSlot, if_neg (by omega), if_neg (by omega), h2 i (by omega)]
    · refine (hblk.2.2 i).trans ?_
      rcases Nat.lt_succ_iff_lt_or_eq.1 hb with hlt | rfl
      · have : (b + 1) * (2 * h) ≤ n * (2 * h) := Nat.mul_le_mul_right _ hlt
        rw [Nat.succ_mul] at this
        rw [blockSlot, if_neg (by omega), if_neg (by omega), h3 b i hlt hi1 hi2]
      · simp only [blockSlot]
        split_ifs
        · rw [h2 _ (by omega), h2 _ (by omega)]
        · rw [h2 _ (by omega), h2 _ (by omega)]
        · exact h2 _ (by omega)

/-- One stage `s` (R213): on every pair of slots `k + j` and `k + j + h` of every block, u + wv and u - wv from the
values of the stage before. -/
theorem butterflyStage_slots (out : List Cplx) (s q : Nat) (hl : out.length = q * 2 ^ (s + 1)) (b j : Nat) (hb : b < q)
    (hj : j < 2 ^ s) :
    let u := out.getD (b * 2 ^ (s + 1) + j) default
    let t := cmul (twiddleAt (stageTwiddle (s + 1)) j) (out.getD (b * 2 ^ (s + 1) + j + 2 ^ s) default)
    (butterflyStage out (s + 1)).getD (b * 2 ^ (s + 1) + j) default = cadd u t ∧
    (butterflyStage out (s + 1)).getD (b * 2 ^ (s + 1) + j + 2 ^ s) default = csub u t := by
  have hm : 2 ^ (s + 1) = 2 * 2 ^ s := by rw [Nat.pow_succ, Nat.mul_comm]
  have hdiv : out.length / 2 ^ (s + 1) = q := by rw [hl, Nat.mul_div_cancel _ (Nat.two_pow_pos _)]
  have hhalf : 2 ^ (s + 1) / 2 = 2 ^ s := by omega
  have hstage : butterflyStage out (s + 1) =
      ((List.range q).map (· * (2 * 2 ^ s))).foldl (butterflyBlock (stageTwiddle (s + 1)) (2 ^ s)) out := by
    simp only [butterflyStage, hdiv, hhalf]
    simp only [hm]
  rw [hm] at hl ⊢
  have h3 := (butterflyBlocks (stageTwiddle (s + 1)) (2 ^ s) out q hl.ge).2.2
  intro u t
  rw [hstage, h3 b _ hb (by omega) (by omega), h3 b _ hb (by omega) (by omega)]
  constructor
  · rw [blockSlot, if_pos (by omega), Nat.add_sub_cancel_left]
  · rw [blockSlot, if_neg (by omega), if_pos (by omega), Nat.add_sub_cancel, Nat.add_sub_cancel_left]

/-- The bit-reverse copy (R212): a permutation puts input element `k` into slot `perm[k]`. -/
theorem permute_slot (perm : List Nat) (input : List Cplx) (hl : perm.length = input.length) (hd : perm.Nodup)
    (hlt : ∀ v ∈ perm, v < input.length) (k r : Nat) (z : Cplx) (hr : perm[k]? = some r) (hz : input[k]? = some z) :
    (permute perm input).getD r default = z := by
  have key : ∀ (ps : List (Nat × Cplx)) (out : List Cplx), (ps.map (·.1)).Nodup → (∀ p ∈ ps, p.1 < out.length) →
      ∀ p ∈ ps, (ps.foldl (fun out p => out.set p.1 p.2) out).getD p.1 default = p.2 := by
    have other : ∀ (ps : List (Nat × Cplx)) (out : List Cplx) (i : Nat), i ∉ ps.map (·.1) → (∀ p ∈ ps, p.1 < out.length) →
        (ps.foldl (fun out p => out.set p.1 p.2) out).getD i default = out.getD i default := by
      intro ps
      induction ps with
      | nil => intro out i _ _; rfl
      | cons p ps ih =>
        intro out i hi hb
        simp only [List.map_cons, List.mem_cons, not_or] at hi
        rw [List.foldl_cons, ih _ _ hi.2 (fun q hq => by rw [List.length_set]; exact hb q (List.mem_cons_of_mem _ hq)),
          getD_set _ _ _ _ (hb p List.mem_cons_self), if_neg hi.1]
    intro ps
    induction ps with
    | nil => intro out _ _ p hp; cases hp
    | cons q ps ih =>
      intro out hn hb p hp
      simp only [List.map_cons, List.nodup_cons] at hn
      have hb' : ∀ p ∈ ps, p.1 < (out.set q.1 q.2).length := fun p hp => by
        rw [List.length_set]; exact hb p (List.mem_cons_of_mem _ hp)
      rw [List.foldl_cons]
      rcases List.mem_cons.1 hp with rfl | hp
      · rw [other ps _ _ hn.1 hb', getD_set _ _ _ _ (hb p List.mem_cons_self), if_pos rfl]
      · exact ih _ hn.2 hb' p hp
  have hmem : (r, z) ∈ perm.zip input := List.mem_of_getElem? (i := k) (by rw [List.getElem?_zip_eq_some]; exact ⟨hr, hz⟩)
  refine key (perm.zip input) _ ?_ ?_ (r, z) hmem
  · rw [List.map_fst_zip (by omega)]; exact hd
  · intro p hp
    rw [List.length_replicate]
    exact hlt _ (List.of_mem_zip hp).1

/-- The slots after stage `s` of the transform; before the first stage, those of the copy. -/
def slotsAfter (perm : List Nat) (input : List Cplx) (s : Nat) : List Cplx :=
  ((List.range s).map (· + 1)).foldl butterflyStage (permute perm input)

theorem slotsAfter_succ (perm : List Nat) (input : List Cplx) (s : Nat) :
    slotsAfter perm input (s + 1) = butterflyStage (slotsAfter perm input s) (s + 1) := by
  simp [slotsAfter, List.range_succ]

theorem slotsAfter_length (perm : List Nat) (input : List Cplx) (s : Nat) :
    (slotsAfter perm input s).length = input.length := by
  induction s with
  | zero => exact permute_length perm input
  | succ s ih => rw [slotsAfter_succ, butterflyStage_length, ih]

/-- The transform of 2^L elements is what the slots hold after stage L. -/
theorem transform_eq_slotsAfter (perm : List Nat) (input : List Cplx) (L : Nat) (hL : L < 64)
    (hl : input.length = 2 ^ L) : transform perm input = slotsAfter perm input L := by
  have : log2Bits (permute perm input).length = L := by
    rw [permute_length, hl, log2Bits_eq (Nat.pow_lt_pow_right (by decide) hL), Nat.log2_two_pow]
  rw [transform, butterflyStages, this, slotsAfter]

end Sys2Proof.Machine
end

