-- ==== Sys2Proof/Laws/Float.lean ====
section
/-!
SUPPORT. Small laws of the binary64 primitives: commutativity, negation, packing and rounding a quotient.
-/

namespace Sys2Proof.Machine

theorem fadd_comm (a b : F64) : fadd a b = fadd b a := by
  simp only [fadd]
  cases fview a with
  | nan => cases fview b <;> rfl
  | inf s =>
    cases fview b with
    | nan => rfl
    | inf t => cases s <;> cases t <;> rfl
    | fin t n => rfl
  | fin s m =>
    cases fview b with
    | nan => rfl
    | inf t => rfl
    | fin t n => simp only [Int.add_comm (signedMag s m), Bool.and_comm s]

theorem fmul_comm (a b : F64) : fmul a b = fmul b a := by
  simp only [fmul]
  cases fview a with
  | nan => cases fview b <;> rfl
  | inf s =>
    cases fview b with
    | nan => rfl
    | inf t => simp only [Bool.xor_comm s]
    | fin t n => simp only [Bool.xor_comm s]
  | fin s m =>
    cases fview b with
    | nan => rfl
    | inf t => simp only [Bool.xor_comm s]
    | fin t n => simp only [Nat.mul_comm m, Bool.xor_comm s]

/-- Negating twice restores every bit (00_scope.md R19). -/
theorem fneg_fneg (a : F64) : fneg (fneg a) = a := by
  simp [fneg]

/-- `divRne` is within half of the quotient, and even on a tie (00_scope.md R16). -/
theorem divRne_nearest (num : Nat) {den : Nat} (h : 0 < den) :
    2 * num ≤ (2 * divRne num den + 1) * den ∧ 2 * divRne num den * den ≤ 2 * num + den ∧
      (2 * num = (2 * divRne num den + 1) * den → divRne num den % 2 = 0) ∧
      (2 * divRne num den * den = 2 * num + den → divRne num den % 2 = 0) := by
  have hd := Nat.div_add_mod num den
  have hm := Nat.mod_lt num h
  simp only [divRne]
  generalize hq : num / den = q at hd ⊢
  generalize hr : num % den = r at hd hm ⊢
  have e1 : (2 * q + 1) * den = 2 * (den * q) + den := by ring
  have e2 : 2 * q * den = 2 * (den * q) := by ring
  have e3 : (2 * (q + 1) + 1) * den = 2 * (den * q) + 3 * den := by ring
  have e4 : 2 * (q + 1) * den = 2 * (den * q) + 2 * den := by ring
  split
  · rw [e3, e4]; omega
  · rw [e1, e2]; omega

/-- An exact quotient is not rounded. -/
theorem divRne_exact (n : Nat) {den : Nat} (h : 0 < den) : divRne (n * den) den = n := by
  simp only [divRne]
  rw [Nat.mul_div_cancel _ h, Nat.mul_mod_left, if_neg (by omega)]

/-- A rounded magnitude is a magnitude pattern (00_scope.md R15). -/
theorem roundMag_le (num den : Nat) : roundMag num den ≤ infBits := Nat.min_le_right _ _

theorem fpack_toNat {neg : Bool} {bits : Nat} (h : bits < 2 ^ 63) :
    (fpack neg bits).toNat = neg.toNat * 2 ^ 63 + bits := by
  rw [fpack, BitVec.toNat_ofNat, Nat.mod_eq_of_lt]
  have : neg.toNat ≤ 1 := by cases neg <;> simp
  omega

/-- The sign, exponent and fraction of a packed pattern. -/
theorem fpack_fields {neg : Bool} {bits : Nat} (h : bits < 2 ^ 63) :
    fsign (fpack neg bits) = neg ∧ fexponent (fpack neg bits) = bits / 2 ^ 52 ∧
      ffraction (fpack neg bits) = bits % 2 ^ 52 := by
  refine ⟨?_, ?_, ?_⟩
  · rw [fsign, BitVec.getLsbD, fpack_toNat h, Nat.testBit_eq_decide_div_mod_eq]
    cases neg <;> (simp; omega)
  · rw [fexponent, fpack_toNat h]
    cases neg <;> (simp; omega)
  · rw [ffraction, fpack_toNat h]
    cases neg <;> (simp; try omega)

end Sys2Proof.Machine
end

