-- ==== Sys2Proof/Laws/Step.lean ====
section
/-!
SUPPORT. What one step can do, said once: the shapes of a command's effect, the engine's step, the next move of the
interleaving, and a host access.
-/

namespace Sys2Proof.Machine

/-- The shapes a successful command's effect can have, before its completion. -/
inductive CmdEffect (s : State) : State → Prop where
  | complexResult (rd : RegIdx) (z : Cplx) : CmdEffect s (s.setC rd z)
  | drawnResult (rd : RegIdx) (z : Cplx) : CmdEffect s ((s.drawn 2).setC rd z)
  | integerResult (rd : RegIdx) (v : Word64) : CmdEffect s (s.setX rd v)
  | butterfly (cd cs : RegIdx) (z w : Cplx) : cd ≠ cs → CmdEffect s ((s.setC cd z).setC cs w)
  | table (p : Place) : p.base + 4 * s.size.toNat ≤ s.bmemBytes → CmdEffect s (commitTable s s.size.toNat p)
  | spectrum (p : Place) (zs : List Cplx) : zs.length = s.size.toNat → p.base + 16 * s.size.toNat ≤ s.bmemBytes →
      CmdEffect s (commitPlace (s.setMem (writeElements s.mem p.base zs)) p)
  | element (ea : Nat) (z : Cplx) : ea + 16 ≤ s.bmemBytes → CmdEffect s (s.setMem (writeC s.mem ea z))

/-- The inversion of `exec`: a next state is the command's effect completed with code 0, or the unchanged state
completed with a code. -/
theorem exec_next {i : Instr} {s t : State} (h : exec i s = .next t) :
    (∃ u, CmdEffect s u ∧ t = complete u .none) ∨ (∃ c, t = complete s c) := by
  have cplx : ∀ (rd : RegIdx) (z : Cplx), writesC s rd z = .next t →
      (∃ u, CmdEffect s u ∧ t = complete u .none) ∨ (∃ c, t = complete s c) := fun rd z hw =>
    .inl ⟨_, .complexResult rd z, by simpa using hw.symm⟩
  have intg : ∀ (rd : RegIdx) (v : Word64), writesX s rd v = .next t →
      (∃ u, CmdEffect s u ∧ t = complete u .none) ∨ (∃ c, t = complete s c) := fun rd v hw =>
    .inl ⟨_, .integerResult rd v, by simpa using hw.symm⟩
  have fin : ∀ r : Except Stop State, finish s r = .next t → (∀ u, r = .ok u → CmdEffect s u) →
      (∃ u, CmdEffect s u ∧ t = complete u .none) ∨ (∃ c, t = complete s c) := fun r hr hu => by
    rcases finish_next hr with ⟨u, hok, ht⟩ | ⟨c, _, ht⟩
    · exact .inl ⟨u, hu u hok, ht⟩
    · exact .inr ⟨c, ht⟩
  cases i with
  | cmk cd xs1 xs2 => exact cplx _ _ h
  | cmkre cd xs1 => exact cplx _ _ h
  | cmkim cd xs1 => exact cplx _ _ h
  | ceq xd cs1 cs2 => exact intg _ _ h
  | ceqr xd cs1 cs2 => exact intg _ _ h
  | cadd cd cs1 cs2 => exact cplx _ _ h
  | csub cd cs1 cs2 => exact cplx _ _ h
  | cmul cd cs1 cs2 => exact cplx _ _ h
  | cdiv cd cs1 cs2 => exact cplx _ _ h
  | cmod xd cs1 => exact intg _ _ h
  | carg xd cs1 => exact intg _ _ h
  | cexp cd cs1 => exact cplx _ _ h
  | cconj cd cs1 => exact cplx _ _ h
  | crecip cd cs1 => exact cplx _ _ h
  | crand cd => exact .inl ⟨_, .drawnResult cd _, by simpa [exec, execCrand] using h.symm⟩
  | log2f xd xs1 => exact intg _ _ h
  | brev xd xs1 xs2 =>
    refine fin _ h fun u hu => ?_
    split at hu
    · simp only [Except.ok.injEq] at hu
      subst hu
      exact .integerResult _ _
    · simp at hu
  | buildtbl o =>
    refine fin _ h fun u hu => ?_
    obtain ⟨_, p, hp, rfl⟩ := buildTable_ok hu
    exact .table p (outputPlace_ok hp).1
  | fft o tb =>
    refine fin _ h fun u hu => ?_
    obtain ⟨p, perm, input, hp, _, hr, rfl⟩ := fftCommand_ok hu
    exact .spectrum p _ (by rw [transform_length, readElements_length hr]) (outputPlace_ok (fftPlace_ok hp).2.2.2.2.1).1
  | bfly cd cs1 cs2 =>
    refine fin _ h fun u hu => ?_
    split at hu
    · simp at hu
    · next hne =>
      simp only [Except.ok.injEq] at hu
      subst hu
      exact .butterfly _ _ _ _ hne
  | ldc cd xs1 =>
    refine fin _ h fun u hu => ?_
    split at hu
    · simp at hu
    · split at hu
      · simp at hu
      · simp only [Except.ok.injEq] at hu
        subst hu
        exact .complexResult _ _
  | stc cs2 xs1 =>
    refine fin _ h fun u hu => ?_
    split at hu
    · simp at hu
    · next ea hea =>
      simp only [Except.ok.injEq] at hu
      subst hu
      exact .element ea _ (elementAddr_ok hea).2.2

/-- No command is refused. -/
theorem exec_not_refused (i : Instr) (s : State) (q : Refusal) : exec i s ≠ .refused q := by
  cases i <;> first
    | exact finish_not_refused s _ q
    | simp [exec, execCmk, execCmkre, execCmkim, execCeq, execCeqr, execCadd, execCsub, execCmul, execCdiv, execCmod,
        execCarg, execCexp, execCconj, execCrecip, execCrand, execLog2f]

/-! ### The moves of the interleaving -/

theorem step_script_nil {s : State} (h : s.script = []) : step s = engineTurn s := by
  simp [step, takeTurn, h]

theorem step_script_engine {s : State} {rest : List Turn} (h : s.script = .engine :: rest) :
    step s = engineTurn { s with script := rest } := by
  simp [step, takeTurn, h]

theorem step_script_host {s : State} {a : HostAct} {rest : List Turn} (h : s.script = .host a :: rest) :
    step s = hostAct a { s with script := rest } := by
  simp [step, takeTurn, h]

theorem step_script_wait {s : State} {rest : List Turn} (h : s.script = .wait :: rest) :
    step s = .next (waitTurn rest s) := by
  simp [step, takeTurn, h]

/-- The engine's step: none, an illegal word, a command, or a raced command. -/
theorem engineTurn_cases (s : State) :
    ((s.resetAsserted = true ∨ s.status.busy = false) ∧ engineTurn s = .next s) ∨
    (s.resetAsserted = false ∧ s.status.busy = true ∧
      ((∃ e, decode s.lastCmd = .error e ∧ engineTurn s = .next (complete s .illegalCommand)) ∨
       (∃ i, decode s.lastCmd = .ok i ∧ s.raced = [] ∧ engineTurn s = exec i s) ∨
       (∃ i, decode s.lastCmd = .ok i ∧ s.raced ≠ [] ∧ engineTurn s = .next (raceOutcome i s)))) := by
  simp only [engineTurn]
  cases hr : s.resetAsserted with
  | true => exact .inl ⟨.inl rfl, by simp⟩
  | false =>
    cases hb : s.status.busy with
    | false => exact .inl ⟨.inr rfl, by simp⟩
    | true =>
      refine .inr ⟨rfl, rfl, ?_⟩
      cases hd : decode s.lastCmd with
      | error e => exact .inl ⟨e, rfl, by simp⟩
      | ok i =>
        cases hc : s.raced with
        | nil => exact .inr (.inl ⟨i, rfl, rfl, by simp⟩)
        | cons a as => exact .inr (.inr ⟨i, rfl, by simp, by simp⟩)

/-- A host access stops only on a BMEM read of a byte never written. -/
theorem hostAct_next (a : HostAct) (s : State) :
    (∃ t, hostAct a s = .next t) ∨ ∃ addr width f, a = .memRead addr width ∧ hostAct a s = .fault f := by
  cases a with
  | memRead addr width =>
    simp only [hostAct, hostMemRead]
    split
    · exact .inl ⟨_, rfl⟩
    · split
      · next f _ => exact .inr ⟨addr, width, f, rfl, rfl⟩
      · exact .inl ⟨_, rfl⟩
  | regWrite offset width v => exact .inl ⟨_, rfl⟩
  | regRead offset width => exact .inl ⟨_, rfl⟩
  | memWrite addr width v => exact .inl ⟨_, rfl⟩
  | assertReset => exact .inl ⟨_, rfl⟩
  | deassertReset => exact .inl ⟨_, rfl⟩

/-- A register write changes only what its register is, or HZ, or issues a command: never BMEM, the taint, the
parameters or the reset input. -/
theorem regStore_frame (s : State) (r : HostReg) (v : Word64) :
    (regStore s r v).mem = s.mem ∧ (regStore s r v).raced = s.raced ∧
      (regStore s r v).bmemBlocks = s.bmemBlocks ∧ (regStore s r v).resetAsserted = s.resetAsserted ∧
      (regStore s r v).draws = s.draws ∧ (regStore s r v).script = s.script ∧
      (regStore s r v).readData = s.readData ∧ (regStore s r v).resBase = s.resBase := by
  cases r <;> simp only [regStore, unlessBusy] <;> (try split) <;> simp

/-- Drawing a write set changes CR, XR, their marks, BMEM and the count of draws only. -/
theorem havocWrites_frame (fp : Footprint) (s : State) :
    havocWrites fp s = { s with
      xr := (havocWrites fp s).xr
      cr := (havocWrites fp s).cr
      xrWritten := (havocWrites fp s).xrWritten
      crWritten := (havocWrites fp s).crWritten
      mem := (havocBytes s ((fp.writes.map (rangeBytes s)).flatten ++ s.raced)).mem
      draws := (havocWrites fp s).draws } := by
  have hc : ∀ (is : List RegIdx) (u : State), is.foldl havocC u = { u with
      cr := (is.foldl havocC u).cr
      crWritten := (is.foldl havocC u).crWritten
      draws := (is.foldl havocC u).draws } := by
    intro is
    induction is with
    | nil => intro u; rfl
    | cons i is ih => intro u; rw [List.foldl_cons, ih]; rfl
  have hx : ∀ (is : List RegIdx) (u : State), is.foldl havocX u = { u with
      xr := (is.foldl havocX u).xr
      xrWritten := (is.foldl havocX u).xrWritten
      draws := (is.foldl havocX u).draws } := by
    intro is
    induction is with
    | nil => intro u; rfl
    | cons i is ih => intro u; rw [List.foldl_cons, ih]; rfl
  simp only [havocWrites]
  rw [hx, hc, havocBytes_frame]

end Sys2Proof.Machine
end

