-- ==== Sys2Proof/Laws/HostPort.lean ====
section
/-!
SUPPORT. Which register an offset names, and what the host meets while a command is pending (70_reset_and_hazards.md R289): which BMEM writes taint it, what
a BMEM read returns or stops on, and what drawing a command's write set leaves alone.
-/

namespace Sys2Proof.Machine

/-! ### The register map (10_state.md R45) -/

theorem hostReg_reserved (offset : BitVec 12) (h8 : offset.toNat % 8 = 0)
    (h : (0x068 ≤ offset.toNat ∧ offset.toNat < 0x080) ∨ (0x0C0 ≤ offset.toNat ∧ offset.toNat < 0x100) ∨
      0x180 ≤ offset.toNat) : hostReg offset = .reserved := by
  have all : ∀ a : Fin 16, ∀ b : Fin 32, let k := 32 * a.val + b.val
      (13 ≤ k ∧ k < 16) ∨ (24 ≤ k ∧ k < 32) ∨ 48 ≤ k → hostReg (BitVec.ofNat 12 (8 * k)) = .reserved := by
    decide +kernel
  have lt := offset.isLt
  have hr := all ⟨offset.toNat / 8 / 32, by omega⟩ ⟨offset.toNat / 8 % 32, by omega⟩ (by simp only; omega)
  rwa [Nat.div_add_mod, Nat.mul_div_cancel' (Nat.dvd_of_mod_eq_zero h8), BitVec.ofNat_toNat, BitVec.setWidth_eq] at hr

theorem hostReg_x (offset : BitVec 12) (n : RegIdx) (h : offset.toNat = 0x080 + 8 * n.val) : hostReg offset = .x n := by
  have all : ∀ n : RegIdx, hostReg (BitVec.ofNat 12 (0x080 + 8 * n.val)) = .x n := by decide
  rw [← all n, ← h, BitVec.ofNat_toNat, BitVec.setWidth_eq]

theorem hostReg_cRe (offset : BitVec 12) (n : RegIdx) (h : offset.toNat = 0x100 + 16 * n.val) :
    hostReg offset = .cRe n := by
  have all : ∀ n : RegIdx, hostReg (BitVec.ofNat 12 (0x100 + 16 * n.val)) = .cRe n := by decide
  rw [← all n, ← h, BitVec.ofNat_toNat, BitVec.setWidth_eq]

theorem hostReg_cIm (offset : BitVec 12) (n : RegIdx) (h : offset.toNat = 0x108 + 16 * n.val) :
    hostReg offset = .cIm n := by
  have all : ∀ n : RegIdx, hostReg (BitVec.ofNat 12 (0x108 + 16 * n.val)) = .cIm n := by decide
  rw [← all n, ← h, BitVec.ofNat_toNat, BitVec.setWidth_eq]

/-! ### The port under R289 -/

theorem pendingFootprint_ok {s : State} {i : Instr} (hb : s.status.busy = true) (h : decode s.lastCmd = .ok i) :
    pendingFootprint s = footprint i s := by
  simp only [pendingFootprint, hb, h, if_true]

theorem pendingFootprint_error {s : State} {e : DecodeError} (h : decode s.lastCmd = .error e) :
    pendingFootprint s = ⟨[], [], [], []⟩ := by
  simp only [pendingFootprint, h, ite_self]

theorem hostMemWrite_supported {s : State} {addr width : Nat} (v : Word64) (hr : s.resetAsserted = false)
    (hok : portAccessOk s addr width = true) :
    hostMemWrite s addr width v = { s with
      mem := memWrite s.mem addr width v.toNat
      raced := if racesPending s addr width then s.raced ++ accessBytes addr width else s.raced } := by
  rw [hostMemWrite, hr, hok]
  rfl

theorem hostMemRead_supported {s : State} {addr width : Nat} (hr : s.resetAsserted = false)
    (hok : portAccessOk s addr width = true) :
    hostMemRead s addr width = match portBytes s (pendingFootprint s).writes 0 addr width with
      | .error f => .fault f
      | .ok bs => .next (s.returned (BitVec.ofNat 64 (leValue bs)) width) := by
  rw [hostMemRead, hr, hok]
  rfl

/-- A host write taints the pending command exactly when one of its bytes lies in F_R or F_W. -/
theorem racesPending_iff {s : State} {addr width : Nat} :
    racesPending s addr width = true ↔ ∃ k, k < width ∧
      (inRanges s (pendingFootprint s).reads (addr + k) = true ∨ inRanges s (pendingFootprint s).writes (addr + k) = true) := by
  simp only [racesPending, accessBytes, List.any_map, List.any_eq_true, List.mem_range, Function.comp, inRanges,
    List.any_append, Bool.and_or_distrib_left, Bool.or_eq_true]

/-- What a BMEM read that answers sees: a free value for each byte of F_W, the stored byte elsewhere. -/
theorem portBytes_ok {s : State} {rs : List (Nat × Nat)} {n : Nat} : ∀ {k a : Nat} {bs : List Byte},
    portBytes s rs k a n = .ok bs → bs.length = n ∧ ∀ j, j < n →
      (inRanges s rs (a + j) = true → bs[j]? = some ((s.freeBits (k + j)).truncate 8)) ∧
      (inRanges s rs (a + j) = false → s.mem.byte (a + j) ≠ none ∧ bs[j]? = s.mem.byte (a + j)) := by
  induction n with
  | zero => intro k a bs h; cases h; exact ⟨rfl, fun j hj => absurd hj (Nat.not_lt_zero j)⟩
  | succ n ih =>
    intro k a bs h
    have step : ∃ b bs', bs = b :: bs' ∧ portBytes s rs (k + 1) (a + 1) n = .ok bs' ∧
        (inRanges s rs a = true → b = (s.freeBits k).truncate 8) ∧
        (inRanges s rs a = false → s.mem.byte a = some b) := by
      rw [portBytes] at h
      split at h
      · rename_i hr
        cases hp : portBytes s rs (k + 1) (a + 1) n with
        | error e => rw [hp] at h; cases h
        | ok bs' => rw [hp] at h; cases h; exact ⟨_, _, rfl, rfl, fun _ => rfl, fun h => absurd hr (by simp [h])⟩
      · rename_i hr
        split at h
        · cases h
        · rename_i b hb
          cases hp : portBytes s rs (k + 1) (a + 1) n with
          | error e => rw [hp] at h; cases h
          | ok bs' => rw [hp] at h; cases h; exact ⟨_, _, rfl, rfl, fun h => absurd h hr, fun _ => hb⟩
    obtain ⟨b, bs', rfl, hp, h1, h2⟩ := step
    refine ⟨by rw [List.length_cons, (ih hp).1], fun j hj => ?_⟩
    cases j with
    | zero =>
      exact ⟨fun h => congrArg some (h1 h), fun h => ⟨by rw [Nat.add_zero, h2 h]; exact Option.some_ne_none _, (h2 h).symm⟩⟩
    | succ j =>
      have := (ih hp).2 j (Nat.lt_of_succ_lt_succ hj)
      rwa [Nat.add_right_comm a 1 j, Nat.add_right_comm k 1 j] at this

/-- Where a BMEM read stops: at a byte outside F_W that was never written. -/
theorem portBytes_error {s : State} {rs : List (Nat × Nat)} {n : Nat} : ∀ {k a : Nat} {f : Fault},
    portBytes s rs k a n = .error f → ∃ j, j < n ∧ f = .unwrittenByte (a + j) ∧ inRanges s rs (a + j) = false ∧
      s.mem.byte (a + j) = none := by
  induction n with
  | zero => intro k a f h; cases h
  | succ n ih =>
    intro k a f h
    have later (hp : portBytes s rs (k + 1) (a + 1) n = .error f) : ∃ j, j < n + 1 ∧ f = .unwrittenByte (a + j) ∧
        inRanges s rs (a + j) = false ∧ s.mem.byte (a + j) = none := by
      obtain ⟨j, hj, h⟩ := ih hp
      exact ⟨j + 1, Nat.succ_lt_succ hj, by rwa [Nat.add_right_comm a 1 j] at h⟩
    rw [portBytes] at h
    split at h
    · cases hp : portBytes s rs (k + 1) (a + 1) n with
      | error e => rw [hp] at h; cases h; exact later hp
      | ok bs => rw [hp] at h; cases h
    · rename_i hr
      split at h
      · rename_i hb; cases h; exact ⟨0, Nat.zero_lt_succ n, rfl, by simpa using hr, hb⟩
      · cases hp : portBytes s rs (k + 1) (a + 1) n with
        | error e => rw [hp] at h; cases h; exact later hp
        | ok bs => rw [hp] at h; cases h

/-! ### What drawing leaves alone -/

theorem havocBytes_registers (s : State) (as : List Nat) :
    (havocBytes s as).cr = s.cr ∧ (havocBytes s as).crWritten = s.crWritten ∧
    (havocBytes s as).xr = s.xr ∧ (havocBytes s as).xrWritten = s.xrWritten := by
  rw [havocBytes_frame]
  exact ⟨rfl, rfl, rfl, rfl⟩

theorem foldl_havocC (is : List RegIdx) (s : State) :
    (is.foldl havocC s).xr = s.xr ∧ (is.foldl havocC s).xrWritten = s.xrWritten ∧
    (is.foldl havocC s).mem = s.mem ∧
    ∀ r, r ∉ is → (is.foldl havocC s).c r = s.c r ∧
      (is.foldl havocC s).crWritten[r.val] = s.crWritten[r.val] := by
  induction is generalizing s with
  | nil => exact ⟨rfl, rfl, rfl, fun _ _ => ⟨rfl, rfl⟩⟩
  | cons i is ih =>
    obtain ⟨h1, h2, h3, h4⟩ := ih (havocC s i)
    refine ⟨h1, h2, h3, fun r h => ?_⟩
    simp only [List.mem_cons, not_or] at h
    have hv : i.val ≠ r.val := fun e => h.1 (Fin.ext e.symm)
    rw [List.foldl_cons, (h4 r h.2).1, (h4 r h.2).2]
    simp [havocC, State.c, State.setC, State.drawn, hv]

theorem foldl_havocX (is : List RegIdx) (s : State) :
    (is.foldl havocX s).cr = s.cr ∧ (is.foldl havocX s).crWritten = s.crWritten ∧
    (is.foldl havocX s).mem = s.mem ∧
    ∀ r, r ∉ is → (is.foldl havocX s).x r = s.x r ∧
      (is.foldl havocX s).xrWritten[r.val] = s.xrWritten[r.val] := by
  induction is generalizing s with
  | nil => exact ⟨rfl, rfl, rfl, fun _ _ => ⟨rfl, rfl⟩⟩
  | cons i is ih =>
    obtain ⟨h1, h2, h3, h4⟩ := ih (havocX s i)
    refine ⟨h1, h2, h3, fun r h => ?_⟩
    simp only [List.mem_cons, not_or] at h
    have hv : i.val ≠ r.val := fun e => h.1 (Fin.ext e.symm)
    rw [List.foldl_cons, (h4 r h.2).1, (h4 r h.2).2]
    simp [havocX, State.x, State.setX, State.drawn, hv]

/-- Drawing a write set leaves every other byte and register as it was. -/
theorem havocWrites_outside (fp : Footprint) (s : State) :
    (∀ a, inRanges s fp.writes a = false → a ∉ s.raced → (havocWrites fp s).mem.byte a = s.mem.byte a) ∧
    (∀ r, r ∉ fp.cDests → (havocWrites fp s).c r = s.c r ∧
      (havocWrites fp s).crWritten[r.val] = s.crWritten[r.val]) ∧
    (∀ r, r ∉ fp.xDests → (havocWrites fp s).x r = s.x r ∧
      (havocWrites fp s).xrWritten[r.val] = s.xrWritten[r.val]) := by
  obtain ⟨b1, b2, b3, b4⟩ := havocBytes_registers s ((fp.writes.map (rangeBytes s)).flatten ++ s.raced)
  obtain ⟨c1, c2, c3, c4⟩ := foldl_havocC fp.cDests
    (havocBytes s ((fp.writes.map (rangeBytes s)).flatten ++ s.raced))
  obtain ⟨x1, x2, x3, x4⟩ := foldl_havocX fp.xDests (fp.cDests.foldl havocC
    (havocBytes s ((fp.writes.map (rangeBytes s)).flatten ++ s.raced)))
  refine ⟨fun a h1 h2 => ?_, fun r h => ⟨?_, ?_⟩, fun r h => ⟨?_, ?_⟩⟩
  · simp only [havocWrites, x3, c3]
    apply byte_havocBytes_outside
    simp only [List.mem_append, List.mem_flatten, List.mem_map, not_or, not_exists, not_and]
    refine ⟨?_, h2⟩
    rintro l ⟨r, hr, rfl⟩ hl
    have hi := rangeBytes_inside hl
    refine absurd h1 ?_
    simp only [inRanges, Bool.not_eq_false, Bool.and_eq_true, decide_eq_true_eq, List.any_eq_true]
    exact ⟨hi.2.2, r, hr, hi.1, hi.2.1⟩
  · simp only [havocWrites, State.c, x1]
    exact (c4 r h).1.trans (by rw [State.c, b1])
  · simp only [havocWrites, x2]
    exact (c4 r h).2.trans (by simp only [b2])
  · exact (x4 r h).1.trans (by simp only [State.x, c1, b3])
  · exact (x4 r h).2.trans (by simp only [c2, b4])

end Sys2Proof.Machine
end

