-- ==== Sys2Proof/Laws/PerInstr.lean ====
section
/-!
SUPPORT. A fact about every command as syntax, one lemma for each constructor: the word the encoder gives holds the
row's pattern under the row's mask (30_encoding.md R116), so the decoder's must-be-zero check passes on it.
-/

namespace Sys2Proof.Laws.MaskMatch

-- One proof at a time: kernel evaluations that wait for one another would each hold a thread and its stack.
set_option Elab.async false

/-- The encoder's word of `i` matches its row of the opcode map (30_encoding.md R116). -/
def Statement (i : Instr) : Prop :=
  (opMap (fieldOpc (encode i))).any (fun row => encode i &&& row.mask == row.pattern) = true

theorem cmk (a b c : RegIdx) : Statement (.cmk a b c) := by revert a b c; unfold Statement; decide +kernel
theorem cmkre (a b : RegIdx) : Statement (.cmkre a b) := by revert a b; unfold Statement; decide +kernel
theorem cmkim (a b : RegIdx) : Statement (.cmkim a b) := by revert a b; unfold Statement; decide +kernel
theorem ceq (a b c : RegIdx) : Statement (.ceq a b c) := by revert a b c; unfold Statement; decide +kernel
theorem ceqr (a b c : RegIdx) : Statement (.ceqr a b c) := by revert a b c; unfold Statement; decide +kernel
theorem cadd (a b c : RegIdx) : Statement (.cadd a b c) := by revert a b c; unfold Statement; decide +kernel
theorem csub (a b c : RegIdx) : Statement (.csub a b c) := by revert a b c; unfold Statement; decide +kernel
theorem cmul (a b c : RegIdx) : Statement (.cmul a b c) := by revert a b c; unfold Statement; decide +kernel
theorem cdiv (a b c : RegIdx) : Statement (.cdiv a b c) := by revert a b c; unfold Statement; decide +kernel
theorem cmod (a b : RegIdx) : Statement (.cmod a b) := by revert a b; unfold Statement; decide +kernel
theorem carg (a b : RegIdx) : Statement (.carg a b) := by revert a b; unfold Statement; decide +kernel
theorem cexp (a b : RegIdx) : Statement (.cexp a b) := by revert a b; unfold Statement; decide +kernel
theorem cconj (a b : RegIdx) : Statement (.cconj a b) := by revert a b; unfold Statement; decide +kernel
theorem crecip (a b : RegIdx) : Statement (.crecip a b) := by revert a b; unfold Statement; decide +kernel
theorem crand (a : RegIdx) : Statement (.crand a) := by revert a; unfold Statement; decide +kernel
theorem log2f (a b : RegIdx) : Statement (.log2f a b) := by revert a b; unfold Statement; decide +kernel
theorem brev (a b c : RegIdx) : Statement (.brev a b c) := by revert a b c; unfold Statement; decide +kernel
theorem buildtbl (o : Bool) : Statement (.buildtbl o) := by revert o; unfold Statement; decide +kernel
theorem fft (o t : Bool) : Statement (.fft o t) := by revert o t; unfold Statement; decide +kernel
theorem bfly (a b c : RegIdx) : Statement (.bfly a b c) := by revert a b c; unfold Statement; decide +kernel
theorem ldc (a b : RegIdx) : Statement (.ldc a b) := by revert a b; unfold Statement; decide +kernel
theorem stc (a b : RegIdx) : Statement (.stc a b) := by revert a b; unfold Statement; decide +kernel

end Sys2Proof.Laws.MaskMatch
end

