-- ==== Sys2Proof/Tests/Slice0.lean ====
section
/-!
SUPPORT. Tests: words written out bit by bit from 30_encoding.md, the ill-formed command the checks refuse, single
steps against the vectors of 95_test_vectors.md (each test names its vectors), and for every obligation with
hypotheses a witness that meets them.
-/

namespace Sys2Proof.Tests

open Sys2Proof Sys2Proof.Machine Sys2Proof.Claims

-- One proof at a time: kernel evaluations that wait for one another would each hold a thread and its stack.
set_option Elab.async false

/-! ### Small states -/

/-- The reset state with CR0, CR1 and CR2. -/
def cregs (a b c : Cplx) : State := ((State.reset.setC 0 a).setC 1 b).setC 2 c

/-- The reset state with XR0 to XR3. -/
def xregs (a b c d : Word64) : State := (((State.reset.setX 0 a).setX 1 b).setX 2 c).setX 3 d

/-- The state after the command word `w` issued in `s`, or `s` where the step stops. -/
def after (s : State) (w : Nat) : State :=
  match step (s.withFetchWord 32 w) with
  | .next t => t
  | .fault _ => s
  | .refused _ => s

/-- The result code of an outcome, none where the step stops. -/
def codeOf : Host.Outcome State Fault Refusal → Option ErrCode
  | .next t => some t.status.err
  | .fault _ => none
  | .refused _ => none

theorem exists_next {r : Host.Outcome State Fault Refusal} {c : ErrCode} (h : codeOf r = some c) :
    ∃ t, r = .next t ∧ t.status.err = c := by
  cases r with
  | next t => exact ⟨t, rfl, by simpa [codeOf] using h⟩
  | fault f => simp [codeOf] at h
  | refused f => simp [codeOf] at h

/-- The state after `i`, or `s` where it stops. -/
def ran (i : Instr) (s : State) : State :=
  match exec i s with
  | .next t => t
  | .fault _ => s
  | .refused _ => s

theorem exec_ran {i : Instr} {s : State} {c : ErrCode} (h : codeOf (exec i s) = some c) :
    exec i s = .next (ran i s) ∧ (ran i s).status.err = c := by
  obtain ⟨t, ht, hc⟩ := exists_next h
  have hr : ran i s = t := by simp only [ran, ht]
  exact ⟨by rw [ht, hr], by rw [hr, hc]⟩

/-- A buffer setup: `n` elements (1.0, +0.0) at 0, a table for `n` at 0x200, output at 0x400, pool at 0x800. -/
def buffers (n : Nat) : State :=
  { State.reset with
    size := BitVec.ofNat 32 n
    outBase := 0x400
    tblBase := 0x200
    tblLen := BitVec.ofNat 32 n
    poolBase := 0x80
    poolLimit := 0x100
    allocPtr := 0x80
    mem := writeElements (writeEntries [] 0x200 (tableOf n)) 0 (List.replicate n ⟨fone, 0⟩) }

/-- The reset state with a script. -/
def scripted (turns : List Turn) : State := { State.reset with script := turns }

/-- A pending command and a script, in the buffer setup. -/
def pending (n : Nat) (w : Word32) (turns : List Turn) : State :=
  { buffers n with lastCmd := w, status := ⟨true, false, .none, false, false⟩, script := turns }

/-! ### Decoding (30_encoding.md R111, R116): OPC, RD, RS1, RS2, LOW, or OPC, zeros, O, T -/

theorem test_decode_construct :
    decode 0b00010000_001_001_010_000000000000000 = .ok (.cmk 1 1 2) ∧
    decode 0b00010001_000_011_000_000000000000000 = .ok (.cmkre 0 3) ∧
    decode 0b00010010_000_011_000_000000000000000 = .ok (.cmkim 0 3) := by decide

theorem test_decode_compare :
    decode 0b00010011_000_001_010_000000000000000 = .ok (.ceq 0 1 2) ∧
    decode 0b00010100_000_001_010_000000000000000 = .ok (.ceqr 0 1 2) := by decide

theorem test_decode_arithmetic :
    decode 0b00010101_010_000_001_000000000000000 = .ok (.cadd 2 0 1) ∧
    decode 0b00010110_010_000_001_000000000000000 = .ok (.csub 2 0 1) ∧
    decode 0b00010111_011_001_010_000000000000000 = .ok (.cmul 3 1 2) ∧
    decode 0b00011000_100_011_010_000000000000000 = .ok (.cdiv 4 3 2) := by decide

theorem test_decode_unary :
    decode 0b00011001_101_001_000_000000000000000 = .ok (.cmod 5 1) ∧
    decode 0b00011010_110_001_000_000000000000000 = .ok (.carg 6 1) ∧
    decode 0b00011011_001_000_000_000000000000000 = .ok (.cexp 1 0) ∧
    decode 0b00011100_001_000_000_000000000000000 = .ok (.cconj 1 0) ∧
    decode 0b00011101_001_000_000_000000000000000 = .ok (.crecip 1 0) ∧
    decode 0b00011110_111_000_000_000000000000000 = .ok (.crand 7) := by decide

theorem test_decode_bitrev :
    decode 0b00100000_001_000_000_000000000000000 = .ok (.log2f 1 0) ∧
    decode 0b00100001_010_000_001_000000000000000 = .ok (.brev 2 0 1) ∧
    decode 0b00100010_0000000000000000000000_0_0 = .ok (.buildtbl false) ∧
    decode 0b00100010_0000000000000000000000_1_0 = .ok (.buildtbl true) := by decide

theorem test_decode_fft :
    decode 0b00110000_0000000000000000000000_0_1 = .ok (.fft false true) ∧
    decode 0b00110000_0000000000000000000000_1_0 = .ok (.fft true false) ∧
    decode 0b00110001_000_001_010_000000000000000 = .ok (.bfly 0 1 2) := by decide

theorem test_decode_transfer :
    decode 0b01000000_000_001_000_000000000000000 = .ok (.ldc 0 1) ∧
    decode 0b01000001_000_001_010_000000000000000 = .ok (.stc 2 1) := by decide

/-- V-ENC-7 to V-ENC-16, each with the reason R120 gives. -/
theorem test_decode_illegal :
    decode 0x00000000 = .error .unassignedOpcode ∧ decode 0xFF000000 = .error .unassignedOpcode ∧
    decode 0x23000000 = .error .unassignedOpcode ∧ decode 0x15408001 = .error .mustBeZero ∧
    decode 0x31000000 = .error .bflySameRegister ∧ decode 0x31008000 = .error .bflySameRegister ∧
    decode 0x30000004 = .error .mustBeZero ∧ decode 0x22000001 = .error .mustBeZero ∧
    decode 0x41250000 = .error .mustBeZero ∧ decode 0x1E010000 = .error .mustBeZero := by decide

/-- The one check of WellFormed refuses an ill-formed command, and accepts a butterfly whose twiddle is an operand. -/
theorem test_wellFormed_smoke :
    (Instr.bfly 0 0 1).wellFormed = false ∧ (Instr.bfly 0 1 0).wellFormed = true ∧
    (Instr.bfly 0 1 1).wellFormed = true := by decide

theorem test_asm :
    (Instr.stc 2 1).asm = "STC c2, x1" ∧ (Instr.fft true true).asm = "FFT.TO" ∧
    Pseudo.expand .fftr = [.fft false true] := by decide

/-! ### One step against a vector -/

/-- V-CX-27: raw patterns kept. -/
theorem test_cmk : (after (xregs 0 0x7FF0000000000001 0x8000000000000000 0) 0x10250000).c 1 =
    ⟨0x7FF0000000000001, 0x8000000000000000⟩ := by decide +kernel

/-- V-CX-28. -/
theorem test_cmkre : (after (xregs 0 0 0 0xC004000000000000) 0x110C0000).c 0 = ⟨0xC004000000000000, 0⟩ := by
  decide +kernel

/-- V-CX-29. -/
theorem test_cmkim : (after (xregs 0 0 0 0x8000000000000000) 0x120C0000).c 0 = ⟨0, 0x8000000000000000⟩ := by
  decide +kernel

/-- V-EQ-1, V-EQ-2. -/
theorem test_ceq :
    (after (cregs ⟨0, 0⟩ ⟨0, fone⟩ ⟨0x8000000000000000, fone⟩) 0x13050000).x 0 = 1 ∧
    (after (cregs ⟨0, 0⟩ ⟨cnan, 0⟩ ⟨cnan, 0⟩) 0x13050000).x 0 = 0 := by decide +kernel

/-- V-EQ-4, V-EQ-6. -/
theorem test_ceqr :
    (after (cregs ⟨0, 0⟩ ⟨0x4004000000000000, 0⟩ ⟨0x4008000000000000, 0⟩) 0x14050000).x 0 = 1 ∧
    (after (cregs ⟨0, 0⟩ ⟨0x4003FFFFFFFFFFFF, 0⟩ ⟨0x4008000000000000, 0⟩) 0x14050000).x 0 = 0 := by decide +kernel

/-- V-CX-1, V-CX-3. -/
theorem test_cadd :
    (after (cregs ⟨fone, 0x4000000000000000⟩ ⟨0x4008000000000000, 0x4010000000000000⟩ ⟨0, 0⟩) 0x15408000).c 2 =
      ⟨0x4010000000000000, 0x4018000000000000⟩ ∧
    (after (cregs ⟨0, 0x8000000000000000⟩ ⟨0x8000000000000000, 0x8000000000000000⟩ ⟨0, 0⟩) 0x15408000).c 2 =
      ⟨0, 0x8000000000000000⟩ := by decide +kernel

/-- V-CX-2, V-CX-4: a cancelled infinity, an overflow. -/
theorem test_cadd_nonfinite :
    (after (cregs ⟨0x7FF0000000000000, 0⟩ ⟨0xFFF0000000000000, 0⟩ ⟨0, 0⟩) 0x15408000).c 2 = ⟨cnan, 0⟩ ∧
    (after (cregs ⟨0x7FEFFFFFFFFFFFFF, 0⟩ ⟨0x7FEFFFFFFFFFFFFF, 0⟩ ⟨0, 0⟩) 0x15408000).c 2 =
      ⟨0x7FF0000000000000, 0⟩ := by decide +kernel

/-- V-CX-7. -/
theorem test_csub :
    (after (cregs ⟨fone, 0x4000000000000000⟩ ⟨0x4008000000000000, 0x4014000000000000⟩ ⟨0, 0⟩) 0x16408000).c 2 =
      ⟨0xC000000000000000, 0xC008000000000000⟩ := by decide +kernel

/-- V-CX-8, V-CX-9. -/
theorem test_cmul :
    (after (cregs ⟨fone, 0x4000000000000000⟩ ⟨0x4008000000000000, 0x4010000000000000⟩ ⟨0, 0⟩) 0x17408000).c 2 =
      ⟨0xC014000000000000, 0x4024000000000000⟩ ∧
    (after (cregs ⟨0x7FF0000000000000, 0⟩ ⟨0, fone⟩ ⟨0, 0⟩) 0x17408000).c 2 = ⟨cnan, 0x7FF0000000000000⟩ := by
  decide +kernel

/-- V-CX-12, V-CX-14: the zero divisor raises nothing. -/
theorem test_cdiv :
    (after (cregs ⟨0xC014000000000000, 0x4024000000000000⟩ ⟨0x4008000000000000, 0x4010000000000000⟩ ⟨0, 0⟩)
      0x18408000).c 2 = ⟨fone, 0x4000000000000000⟩ ∧
    (after (cregs ⟨fone, 0x4000000000000000⟩ ⟨0, 0x8000000000000000⟩ ⟨0, 0⟩) 0x18408000).c 2 = ⟨cnan, cnan⟩ := by
  decide +kernel

/-- V-CX-15, V-CX-16: the squared modulus underflows, and overflows. -/
theorem test_cdiv_range :
    (after (cregs ⟨fone, fone⟩ ⟨0x16687E92154EF7AC, 0⟩ ⟨0, 0⟩) 0x18408000).c 2 =
      ⟨0x7FF0000000000000, 0x7FF0000000000000⟩ ∧
    (after (cregs ⟨fone, fone⟩ ⟨0x6974E718D7D7625A, 0⟩ ⟨0, 0⟩) 0x18408000).c 2 = ⟨0, 0⟩ := by decide +kernel

/-- V-MOD-7, V-MOD-2. -/
theorem test_cmod :
    (after (cregs ⟨0, 0⟩ ⟨fone, fone⟩ ⟨0, 0⟩) 0x19A40000).x 5 = 0x3FF6A09E667F3BCD ∧
    (after (cregs ⟨0, 0⟩ ⟨0x8000000000000000, 0x8000000000000000⟩ ⟨0, 0⟩) 0x19A40000).x 5 = 0 := by decide +kernel

/-- V-ARG-2, V-ARG-3: F_ATAN is asked for the arctangent of -1 in two quadrants. -/
theorem test_carg :
    (after (cregs ⟨0, 0⟩ ⟨0xBFF0000000000000, fone⟩ ⟨0, 0⟩) 0x1AC40000).x 6 = fatan 0xBFF0000000000000 ∧
    (after (cregs ⟨0, 0⟩ ⟨fone, 0xBFF0000000000000⟩ ⟨0, 0⟩) 0x1AC40000).x 6 = fatan 0xBFF0000000000000 :=
  ⟨congrArg fatan (by decide +kernel), congrArg fatan (by decide +kernel)⟩

/-- V-CX-24: the scalar F_EXP(+0.0) multiplies F_COS(PI64) and F_SIN(PI64). -/
theorem test_cexp : (after (cregs ⟨0, pi64⟩ ⟨0, 0⟩ ⟨0, 0⟩) 0x1B200000).c 1 =
    ⟨fmul (fexp 0) (fcos pi64), fmul (fexp 0) (fsin pi64)⟩ := rfl

/-- V-CX-21. -/
theorem test_cconj : (after (cregs ⟨fone, cnan⟩ ⟨0, 0⟩ ⟨0, 0⟩) 0x1C200000).c 1 = ⟨fone, 0xFFF8000000000000⟩ := by
  decide +kernel

/-- V-CX-18, V-CX-19. -/
theorem test_crecip :
    (after (cregs ⟨0, 0x4000000000000000⟩ ⟨0, 0⟩ ⟨0, 0⟩) 0x1D200000).c 1 = ⟨0, 0xBFE0000000000000⟩ ∧
    (after (cregs ⟨fone, fone⟩ ⟨0, 0⟩ ⟨0, 0⟩) 0x1D200000).c 1 = ⟨0x3FE0000000000000, 0xBFE0000000000000⟩ := by
  decide +kernel

/-- V-CX-30: it completes, and two draws are taken. -/
theorem test_crand : (after State.reset 0x1EE00000).draws = 2 ∧ (after State.reset 0x1EE00000).status.done = true := by
  decide +kernel

/-- V-LOG-1, V-LOG-4, V-LOG-5, V-LOG-7. -/
theorem test_log2f :
    (after (xregs 0 0 0 0) 0x20200000).x 1 = 0xFFFFFFFFFFFFFFFF ∧ (after (xregs 3 0 0 0) 0x20200000).x 1 = 1 ∧
    (after (xregs 1024 0 0 0) 0x20200000).x 1 = 10 ∧
    (after (xregs 0xFFFFFFFFFFFFFFFF 0 0 0) 0x20200000).x 1 = 63 := by decide +kernel

/-- V-BR-1, V-BR-4, V-BR-5, V-BR-6. -/
theorem test_brev :
    (after (xregs 8 6 0 0) 0x21408000).x 2 = 3 ∧ (after (xregs 1 5 0 0) 0x21408000).x 2 = 0 ∧
    (after (xregs 16 0x13 0 0) 0x21408000).x 2 = 12 ∧
    (after (xregs 0x8000000000000000 1 0 0) 0x21408000).x 2 = 0x4000000000000000 := by decide +kernel

/-- V-BR-7: ERR 1, x2 unchanged. -/
theorem test_brev_invalid :
    (after (xregs 6 1 9 0) 0x21408000).status.word = 0x12 ∧ (after (xregs 6 1 9 0) 0x21408000).x 2 = 9 := by
  decide +kernel

/-- V-TBL-3: the bytes at 0x100. -/
theorem test_buildtbl_in_place :
    (after { State.reset with size := 4, tblBase := 0x100 } 0x22000002).mem.map (·.2) =
      [0, 0, 0, 0, 2, 0, 0, 0, 1, 0, 0, 0, 3, 0, 0, 0] ∧
    (after { State.reset with size := 4, tblBase := 0x100 } 0x22000002).status.word = 0x02 := by decide +kernel

/-- V-TBL-10: the pool form; the padding stays unwritten. -/
theorem test_buildtbl_pool :
    (after { buffers 2 with mem := [] } 0x22000000).status.word = 0x202 ∧
    (after { buffers 2 with mem := [] } 0x22000000).tblBase = 0x800 ∧
    (after { buffers 2 with mem := [] } 0x22000000).allocPtr = 0x81 ∧
    (after { buffers 2 with mem := [] } 0x22000000).mem.length = 8 := by decide +kernel

/-- V-FFT-4: the two-point transform of [3, 5]; the factor wm(1) is never used. -/
theorem test_fft_two :
    readElements (after { buffers 2 with
      mem := writeElements [] 0 [⟨0x4008000000000000, 0⟩, ⟨0x4014000000000000, 0⟩] } 0x30000002).mem 0x400 2 =
      .ok [⟨0x4020000000000000, 0⟩, ⟨0xC000000000000000, 0⟩] := by decide +kernel

/-- V-FFT-9, V-FFT-15, V-FFT-19, V-FFT-23, V-FFT-21: one error of each kind. -/
theorem test_fft_errors :
    (after { buffers 2 with size := 6 } 0x30000002).status.word = 0x12 ∧
    (after { buffers 2 with inBase := 4 } 0x30000002).status.word = 0x42 ∧
    (after { buffers 2 with outBase := 0x10 } 0x30000002).status.word = 0x52 ∧
    (after { buffers 2 with poolLimit := 0x81 } 0x30000000).status.word = 0x22 ∧
    (after { buffers 2 with mem := writeEntries [] 0x200 [0, 0] } 0x30000003).status.word = 0x62 := by decide +kernel

/-- V-BF-2: the twiddle is the old value of c0. -/
theorem test_bfly :
    (after (cregs ⟨0x4000000000000000, 0⟩ ⟨0x4008000000000000, 0⟩ ⟨0, 0⟩) 0x31040000).c 0 = ⟨0x4020000000000000, 0⟩ ∧
    (after (cregs ⟨0x4000000000000000, 0⟩ ⟨0x4008000000000000, 0⟩ ⟨0, 0⟩) 0x31040000).c 1 = ⟨0xC010000000000000, 0⟩ := by
  decide +kernel

/-- V-TR-1, V-TR-8. -/
theorem test_ldc :
    (after ((xregs 0 0x40 0 0).setMem (writeC [] 0x40 ⟨0x4008000000000000, 0x4010000000000000⟩)) 0x40040000).c 0 =
      ⟨0x4008000000000000, 0x4010000000000000⟩ ∧
    step ((xregs 0 0x40 0 0).withFetchWord 32 0x40040000) = .fault (.unwrittenByte 0x40) :=
  ⟨by decide +kernel, rfl⟩

/-- V-TR-2, V-TR-5. -/
theorem test_stc :
    (after ((xregs 0 0x80 0 0).setC 2 ⟨fone, 0x8000000000000000⟩) 0x41050000).mem.map (·.2) =
      [0, 0, 0, 0, 0, 0, 0xF0, 0x3F, 0, 0, 0, 0, 0, 0, 0, 0x80] ∧
    (after (xregs 0 0xFF8 0 0) 0x41050000).status.word = 0x42 := by decide +kernel

/-- V-REG-4, V-REG-7, V-REG-8: what the host's next read returns after a write. -/
theorem test_registers :
    (regValue (hostRegWrite State.reset 0x050 8 0x1237) (hostReg 0x050)) = 0x1230 ∧
    (regValue (hostRegWrite State.reset 0x010 8 0xFF) (hostReg 0x010)) = 1 ∧
    (regValue (hostRegWrite State.reset 0x070 8 5) (hostReg 0x070)) = 0 := by decide

/-- V-REG-14, V-REG-15: a second issue and an operand write while BUSY are dropped and set HZ. -/
theorem test_busy_hazards :
    (hostRegWrite (pending 4 0x30000002 []) 0x018 8 0x15408000).lastCmd = 0x30000002 ∧
    (hostRegWrite (pending 4 0x30000002 []) 0x018 8 0x15408000).status.hz = true ∧
    (hostRegWrite (pending 4 0x30000002 []) 0x020 8 8).size = 4 := by decide

/-! ### Witnesses: a concrete case that meets the hypotheses of each obligation that has some -/

theorem witness_DecodeInvertsEncode : (Instr.bfly 7 0 7).wellFormed = true := by decide

theorem witness_EncodeInvertsDecode : decode 0x31050000 = .ok (.bfly 0 1 2) := by decide

/-- The engine is ready with any word placed by `withFetchWord`, and behind a script. -/
theorem witness_EngineReady :
    (∀ w, EngineReady (State.reset.withFetchWord 32 w)) ∧ EngineReady (pending 1 0x30000003 [.engine, .wait]) :=
  ⟨fun _ => ⟨rfl, rfl, .inl rfl⟩, ⟨rfl, rfl, .inr ⟨_, rfl⟩⟩⟩

/-- Each clause of IllegalWordsOnlyComplete at the ends of its range. -/
theorem witness_IllegalWordsOnlyComplete :
    fieldOpc 0x00000000 < 0x10 ∧ fieldOpc 0x0FFFFFFF < 0x10 ∧ fieldOpc 0x1F000000 = 0x1F ∧
    fieldOpc 0x23000000 = 0x23 ∧ fieldOpc 0x2F000000 = 0x2F ∧ fieldOpc 0x32000000 = 0x32 ∧
    fieldOpc 0x3F000000 = 0x3F ∧ 0x42 ≤ fieldOpc 0x42000000 ∧ 0x42 ≤ fieldOpc 0xFFFFFFFF ∧
    (∃ row, opMap (fieldOpc 0x15408001) = some row ∧ (0x15408001 : Word32) &&& row.mask ≠ row.pattern) ∧
    (fieldOpc 0x31008000 = 0x31 ∧ fieldRd 0x31008000 = fieldRs1 0x31008000) := by
  refine ⟨by decide, by decide, by decide, by decide, by decide, by decide, by decide, by decide, by decide,
    ⟨_, rfl, by decide⟩, by decide⟩

theorem witness_StepRunsDecodedCommand :
    (EngineReady (pending 1 0x1EE00000 []) ∧ (pending 1 0x1EE00000 []).raced = [] ∧
      decode (pending 1 0x1EE00000 []).lastCmd = .ok (.crand 7)) ∧
    decodeTableWord 32 0x41050000 = some (.stc 2 1) ∧
    (State.reset.script = [] ∧ State.reset.status.busy = false) :=
  ⟨⟨⟨rfl, rfl, .inl rfl⟩, rfl, rfl⟩, rfl, rfl, rfl⟩

/-- Every must-be-zero field the IllegalWhen clauses speak of, with its lowest and its highest bit set. -/
theorem witness_IllegalWhen :
    [(0x10, 0x00007FFF), (0x11, 0x0003FFFF), (0x12, 0x0003FFFF), (0x13, 0x00007FFF), (0x14, 0x00007FFF),
      (0x15, 0x00007FFF), (0x16, 0x00007FFF), (0x17, 0x00007FFF), (0x18, 0x00007FFF), (0x19, 0x0003FFFF),
      (0x1A, 0x0003FFFF), (0x1B, 0x0003FFFF), (0x1C, 0x0003FFFF), (0x1D, 0x0003FFFF), (0x1E, 0x001FFFFF),
      (0x20, 0x0003FFFF), (0x21, 0x00007FFF), (0x31, 0x00007FFF), (0x40, 0x0003FFFF),
      (0x41, 0x00007FFF)].all (fun p =>
        let low := BitVec.ofNat 32 (p.1 * 2 ^ 24 + 1)
        let high := BitVec.ofNat 32 (p.1 * 2 ^ 24 + (p.2 + 1) / 2)
        fieldOpc low == p.1 && low &&& BitVec.ofNat 32 p.2 != 0 &&
          fieldOpc high == p.1 && high &&& BitVec.ofNat 32 p.2 != 0) = true ∧
    fieldOpc 0x41200000 = 0x41 ∧ (0x41200000 : Word32) &&& 0x00E07FFF ≠ 0 ∧
    fieldOpc 0x41800000 = 0x41 ∧ (0x41800000 : Word32) &&& 0x00E07FFF ≠ 0 := by decide

/-- Each clause on the comparison under CEQ (R21): a NaN, zeros of both signs, equal and unequal values, infinities. -/
theorem witness_EqualityCommands :
    fview cnan = .nan ∧ (fview 0 = .fin false 0 ∧ fview 0x8000000000000000 = .fin true 0) ∧
    (fview 1 = .fin false 1 ∧ fview 0x8000000000000001 = .fin true 1 ∧ 1 ≠ 0) ∧
    (fview 0x7FF0000000000000 = .inf false ∧ fview 0xFFF0000000000000 = .inf true) := by decide +kernel

theorem witness_RandomCommand :
    (0 : F64).toNat ≤ 0x3FF0000000000000 ∧ (0x3FF0000000000000 : F64).toNat ≤ 0x3FF0000000000000 := by decide

/-- Zeros of both signs, as a divisor in a register. -/
theorem witness_ZeroDivisorGivesNaN :
    ∃ (s : State) (cs : RegIdx) (z : Cplx), s.c cs = z ∧ fview z.re = .fin false 0 ∧ fview z.im = .fin true 0 :=
  ⟨cregs ⟨fone, fone⟩ ⟨0, 0x8000000000000000⟩ ⟨0, 0⟩, 1, ⟨0, 0x8000000000000000⟩, by decide, by decide, by decide⟩

theorem witness_ModulusNeverNegative : fview cnan = .nan ∧ fview 0xFFF4000000000000 = .nan := by decide

/-- A sum and a difference that are exact zeros. -/
theorem witness_SumRoundsToNearest :
    fview fone = .fin false (2 ^ 52 * 2 ^ 1022) ∧ fview 0xBFF0000000000000 = .fin true (2 ^ 52 * 2 ^ 1022) ∧
    unitsOf false (2 ^ 52 * 2 ^ 1022) + unitsOf true (2 ^ 52 * 2 ^ 1022) = 0 ∧
    unitsOf false (2 ^ 52 * 2 ^ 1022) - unitsOf false (2 ^ 52 * 2 ^ 1022) = 0 :=
  ⟨by decide +kernel, by decide +kernel, (fun n => by simp [unitsOf] : ∀ n, unitsOf false n + unitsOf true n = 0) _,
    sub_self _⟩

/-- R158: x - x is +0.0; -0.0 less +0.0 is -0.0, as in IEEE 754. -/
theorem test_sub_zero_sign : fsub fone fone = 0 ∧ fsub 0x8000000000000000 0 = 0x8000000000000000 := by decide +kernel

theorem witness_ProductRoundsToNearest :
    fview 0x7FEFFFFFFFFFFFFF = .fin false ((2 ^ 53 - 1) * 2 ^ 2045) ∧ fview 0x8000000000000001 = .fin true 1 := by
  decide +kernel

theorem witness_QuotientRoundsToNearest : fview 0 = .fin false 0 ∧ fview 1 = .fin false 1 ∧ 1 ≠ 0 := by
  decide +kernel

theorem witness_SquareRootRoundsToNearest :
    (fview 1 = .fin false 1 ∧ 1 ≠ 0) ∧ (fview 0x8000000000000001 = .fin true 1 ∧ 1 ≠ 0) ∧ fview cnan = .nan := by
  decide +kernel

theorem witness_NonFiniteOperands :
    fview cnan = .nan ∧ fview 0x7FF0000000000000 = .inf false ∧ fview 0xFFF0000000000000 = .inf true ∧
    fview 0 = .fin false 0 ∧ fview 0x8000000000000000 = .fin true 0 ∧ fview 1 = .fin false 1 := by decide +kernel

theorem witness_NaNResultsAreCanonical :
    fview (fadd 0x7FF0000000000000 0xFFF0000000000000) = .nan ∧ fview (fsub 0x7FF0000000000000 0x7FF0000000000000) = .nan ∧
    fview (fmul 0x7FF0000000000000 0) = .nan ∧ fview (fdiv 0 0) = .nan ∧ fview (fsqrt 0xBFF0000000000000) = .nan ∧
    fview (fround cnan) = .nan ∧ fview (canon 0xFFF4000000000000) = .nan ∧ fview fone ≠ .nan := by decide +kernel

theorem witness_RoundsHalvesAway :
    fview 0xC004000000000000 = .fin true (5 * 2 ^ 1073) ∧
    fview 0x8000000000000000 = .fin (fsign 0x8000000000000000) 0 ∧ fview 0xFFF0000000000000 = .inf true ∧
    fview cnan = .nan := by decide +kernel

theorem witness_Log2Command :
    ((xregs 0 1 0 0).x 0).toNat = 0 ∧ ((xregs 0 1 0 0).x 1).toNat ≠ 0 := by decide

theorem witness_BitReverseCommand :
    ((xregs 1 0x8000000000000000 6 0).x 0).toNat = 2 ^ 0 ∧ ((xregs 1 0x8000000000000000 6 0).x 1).toNat = 2 ^ 63 ∧
    ¬ Pow2 ((xregs 1 0x8000000000000000 6 0).x 2).toNat ∧ ¬ Pow2 ((xregs 1 0x8000000000000000 6 0).x 3).toNat := by
  refine ⟨by decide, by decide, ?_, ?_⟩
  · rintro ⟨k, hk⟩
    have hlt : k < 3 := (Nat.pow_lt_pow_iff_right (a := 2) (by decide)).1 (by rw [← hk]; decide)
    interval_cases k <;> exact absurd hk (by decide)
  · rintro ⟨k, hk⟩
    exact absurd hk.symm (Nat.two_pow_pos k).ne'

theorem witness_ReversalIsInvolution : 63 < 64 ∧ 2 ^ 63 - 1 < 2 ^ 63 ∧ 0 < 2 ^ 0 := by decide

/-- A table that ends exactly at the end of BMEM. -/
theorem witness_BuildTableInPlace :
    Pow2 (sizeN { buffers 4 with tblBase := 0xFF0 }) ∧
    Placed { buffers 4 with tblBase := 0xFF0 } 4 0xFF0 (4 * sizeN { buffers 4 with tblBase := 0xFF0 }) :=
  ⟨⟨2, rfl⟩, by unfold Placed; decide⟩

/-- A pool that the table fills exactly. -/
theorem witness_BuildTableInPool :
    Pow2 (sizeN { buffers 4 with poolLimit := 0x81 }) ∧
    PoolRoom { buffers 4 with poolLimit := 0x81 } (4 * sizeN { buffers 4 with poolLimit := 0x81 }) :=
  ⟨⟨2, rfl⟩, by unfold PoolRoom; decide⟩

theorem witness_BuildTableErrors :
    ¬ Pow2 (sizeN State.reset) ∧ Pow2 (sizeN (buffers 4)) ∧ ¬ Placed (buffers 4) 4 0xFF4 (4 * sizeN (buffers 4)) ∧
    ¬ PoolRoom { buffers 4 with poolLimit := 0x80 } (4 * sizeN (buffers 4)) :=
  ⟨fun ⟨k, hk⟩ => absurd hk.symm (Nat.two_pow_pos k).ne', ⟨2, rfl⟩, by unfold Placed; decide, by unfold PoolRoom; decide⟩

theorem witness_ButterflyCommand : (0 : RegIdx) ≠ 1 := by decide

/-- All four forms of FFT in one state. -/
theorem witness_TransformCompletes :
    (∀ o t, FftPlaced (buffers 1) o t) ∧ (∀ t, FftPermutes (buffers 1) t [0]) ∧
    readElements (buffers 1).mem (buffers 1).inBase.toNat (sizeN (buffers 1)) = .ok [⟨fone, 0⟩] := by
  refine ⟨fun o t => ⟨⟨0, rfl⟩, fun _ => rfl, ?_, fun _ => ?_, fun _ => ?_, fun _ => ?_, ?_, fun _ => ?_⟩,
    fun t => ⟨fun _ => ⟨by decide, by decide, by decide⟩, fun _ => by decide⟩, by decide⟩
  · unfold Placed; decide
  · unfold Placed; decide
  · unfold Placed; decide
  · unfold PoolRoom; decide
  · unfold Apart; cases o <;> decide
  · unfold Apart; cases o <;> decide

/-- Each code of the order of R258, in a state where the earlier checks pass. -/
theorem witness_TransformRaisesFirstError :
    fftFirstError State.reset true false [] = some .invalidSize ∧
    fftFirstError { buffers 1 with inBase := 4 } true true [] = some .addressError ∧
    fftFirstError { buffers 1 with poolLimit := 0x80 } false false [] = some .allocationFailure ∧
    fftFirstError { buffers 1 with outBase := 8 } true false [] = some .overlap ∧
    fftFirstError { buffers 1 with mem := writeEntries [] 0x200 [1] } true true [1] = some .tableInvalid ∧
    readEntries (writeEntries [] 0x200 [1]) 0x200 1 = .ok [1] := by
  have one : Pow2 1 := ⟨0, rfl⟩
  refine ⟨?_, ?_, ?_, ?_, ?_, by decide⟩
  · exact if_pos (.inl witness_BuildTableErrors.1)
  · exact (if_neg (not_or.2 ⟨not_not_intro one, by decide⟩)).trans (if_pos (.inl (by unfold Placed; decide)))
  · exact (if_neg (not_or.2 ⟨not_not_intro one, by decide⟩)).trans
      ((if_neg (by unfold Placed; decide)).trans (if_pos (by unfold PoolRoom; decide)))
  · exact (if_neg (not_or.2 ⟨not_not_intro one, by decide⟩)).trans
      ((if_neg (by unfold Placed; decide)).trans ((if_neg (by simp)).trans (if_pos (.inl (by unfold Apart; decide)))))
  · exact (if_neg (not_or.2 ⟨not_not_intro one, by decide⟩)).trans
      ((if_neg (by unfold Placed; decide)).trans
        ((if_neg (by simp)).trans ((if_neg (by unfold Apart; decide)).trans (if_pos (by decide)))))

theorem witness_StageTwiddleFactor : 1 ≤ 1 ∧ 1 ≤ 31 ∧ 31 ≤ 31 := by decide

/-- The impulse of two elements, with a table. -/
def impulse : State := { buffers 2 with mem := writeElements (writeEntries [] 0x200 [0, 1]) 0 [⟨fone, 0⟩, ⟨0, 0⟩] }

theorem witness_ImpulseResponse :
    sizeN impulse = 2 ^ 1 ∧ TwiddlesFinite 1 ∧ readC impulse.mem 0 = .ok ⟨fone, 0⟩ ∧
    readC impulse.mem (0 + 16 * 1) = .ok ⟨0, 0⟩ ∧ memRead impulse.mem 0x200 4 = .ok 0 ∧
    ∃ u, exec (.fft true true) impulse = .next u ∧ u.status.err = .none := by
  refine ⟨rfl, ?_, by decide, by decide, by decide, exists_next (by decide +kernel)⟩
  intro stage j h1 h2 h3
  obtain rfl : stage = 1 := by omega
  obtain rfl : j = 0 := by simpa using h3
  exact ⟨⟨false, 2 ^ 52 * 2 ^ 1022, by decide +kernel⟩, ⟨false, 0, by decide⟩⟩

theorem witness_SmallTransforms :
    (sizeN (buffers 1) = 1 ∧ ∃ u, exec (.fft false true) (buffers 1) = .next u ∧ u.status.err = .none) ∧
    (sizeN (buffers 2) = 2 ∧ ∃ u, exec (.fft true false) (buffers 2) = .next u ∧ u.status.err = .none) :=
  ⟨⟨rfl, exists_next (by decide +kernel)⟩, ⟨rfl, exists_next (by decide +kernel)⟩⟩

/-- A table built in place, then a transform with it in the state BUILDTBL left. -/
theorem witness_TableAndNoTableAgree :
    ∃ s1 u, exec (.buildtbl true) (buffers 1) = .next s1 ∧ s1.status.err = .none ∧
      exec (.fft true true) s1 = .next u ∧ u.status.err = .none := by
  have h := exec_ran (show codeOf (exec (.buildtbl true) (buffers 1)) = some .none by decide +kernel)
  exact ⟨_, (ran (.fft true true) (ran (.buildtbl true) (buffers 1))), h.1, h.2, exec_ran (by decide +kernel)⟩

/-- The same input and table, the two output modes. -/
theorem witness_TransformIsDeterministic :
    (∃ u, exec (.fft true true) (buffers 1) = .next u ∧ u.status.err = .none) ∧
    (∃ u, exec (.fft false true) (buffers 1) = .next u ∧ u.status.err = .none) :=
  ⟨exists_next (by decide +kernel), exists_next (by decide +kernel)⟩

theorem witness_PoolBlocksAreDisjoint :
    alloc { buffers 1 with poolLimit := 0x81 } 16 = some (0x800, 0x810) ∧
    codeOf (exec (.buildtbl false) (buffers 1)) = some .none ∧
    alloc (ran (.buildtbl false) (buffers 1)) 1 = some (0x810, 0x820) ∧
    codeOf (exec (.fft false true) (buffers 1)) = some .none ∧
    alloc (ran (.fft false true) (buffers 1)) 16 = some (0x810, 0x820) := by decide +kernel

/-- The last element of BMEM, and addresses that are misaligned or reach past its end. -/
theorem witness_LoadElement :
    Placed (xregs 0 0xFF0 0x44 0xFF8) 8 ((xregs 0 0xFF0 0x44 0xFF8).x 1).toNat 16 ∧
    HoldsWord (writeC [] 0xFF0 ⟨fone, cnan⟩) 0xFF0 fone ∧ HoldsWord (writeC [] 0xFF0 ⟨fone, cnan⟩) (0xFF0 + 8) cnan ∧
    ¬ Placed (xregs 0 0xFF0 0x44 0xFF8) 8 ((xregs 0 0xFF0 0x44 0xFF8).x 2).toNat 16 ∧
    ¬ Placed (xregs 0 0xFF0 0x44 0xFF8) 8 ((xregs 0 0xFF0 0x44 0xFF8).x 3).toNat 16 := by
  unfold Placed HoldsWord
  decide

theorem witness_StoreElement :
    Placed (xregs 0 0xFF0 0x44 0xFF8) 8 ((xregs 0 0xFF0 0x44 0xFF8).x 1).toNat 16 ∧
    ¬ Placed (xregs 0 0xFF0 0x44 0xFF8) 8 ((xregs 0 0xFF0 0x44 0xFF8).x 3).toNat 16 := by
  unfold Placed
  decide

/-- Only the last byte of each range is unwritten. -/
theorem witness_UnwrittenByteFaults :
    (Placed (xregs 0 0x40 0 0) 8 ((xregs 0 0x40 0 0).x 1).toNat 16 ∧
      Memory.byte (memWrite [] 0x40 15 0) (0x40 + 15) = none) ∧
    (FftPlaced (buffers 1) true false ∧ FftPermutes (buffers 1) false [0] ∧
      Memory.byte (memWrite [] 0 15 0) (0 + 15) = none) ∧
    (FftPlaced (buffers 1) true true ∧ Memory.byte (memWrite [] 0x200 3 0) (0x200 + 3) = none) ∧
    (HostNext (scripted [.host (.memRead 8 8)]) (.memRead 8 8) [] ∧ Idle (scripted [.host (.memRead 8 8)]) ∧
      portAccessOk (scripted []) 8 8 = true ∧ Memory.byte (memWrite [] 8 7 0) (8 + 7) = none) :=
  ⟨⟨by unfold Placed; decide, by decide⟩,
    ⟨witness_TransformCompletes.1 true false, witness_TransformCompletes.2.1 false, by decide⟩,
    ⟨witness_TransformCompletes.1 true true, by decide⟩,
    ⟨rfl, ⟨rfl, rfl⟩, by decide, by decide⟩⟩

theorem witness_ErrorsHaveNoPartialEffects :
    ∃ t, exec (.fft true false) State.reset = .next t ∧ t.status.err = .invalidSize :=
  exists_next (by decide +kernel)

theorem witness_CompletionOfEveryCommand :
    exec (.buildtbl false) (buffers 1) = .next (ran (.buildtbl false) (buffers 1)) ∧
    (ran (.buildtbl false) (buffers 1)).status.alloc ≠ (buffers 1).status.alloc :=
  ⟨(exec_ran (show codeOf _ = some .none by decide +kernel)).1, by decide +kernel⟩

/-- Every code, from a command that the statement names for it. -/
theorem witness_CodesByCommand :
    codeOf (exec (.brev 2 0 1) (xregs 6 1 0 0)) = some .invalidSize ∧
    codeOf (exec (.fft false false) { buffers 1 with poolLimit := 0x80 }) = some .allocationFailure ∧
    codeOf (exec (.bfly 0 0 1) State.reset) = some .illegalCommand ∧
    codeOf (exec (.ldc 0 1) (xregs 0 0x44 0 0)) = some .addressError ∧
    codeOf (exec (.fft true false) { buffers 1 with outBase := 8 }) = some .overlap ∧
    codeOf (exec (.fft true true) { buffers 1 with mem := writeEntries [] 0x200 [1] }) = some .tableInvalid := by
  decide +kernel

/-- Every access can be the host's next one, whatever follows, in the idle block and while a command is pending. -/
theorem witness_HostNext (a : HostAct) (rest : List Turn) :
    HostNext (scripted (.host a :: rest)) a rest ∧ Idle (scripted (.host a :: rest)) ∧
    HostNext (pending 1 0x30000003 (.host a :: rest)) a rest ∧
    (pending 1 0x30000003 (.host a :: rest)).resetAsserted = false ∧
    (pending 1 0x30000003 (.host a :: rest)).status.busy = true ∧
    decode (pending 1 0x30000003 (.host a :: rest)).lastCmd = .ok (.fft true true) :=
  ⟨rfl, ⟨rfl, rfl⟩, rfl, rfl, rfl, show decode 0x30000003 = .ok (.fft true true) by decide⟩

/-- The ends of each range of OperandRegistersFrozen: the operand registers, and what is ignored. -/
theorem witness_OperandRegistersFrozen :
    ([0x020, 0x040, 0x050, 0x060, 0x080, 0x0B8, 0x100, 0x178].all fun n =>
      let o := BitVec.ofNat 12 n
      o.toNat % 8 == 0 && ((0x020 ≤ o.toNat && o.toNat ≤ 0x040) || (0x050 ≤ o.toNat && o.toNat ≤ 0x060) ||
        (0x080 ≤ o.toNat && o.toNat ≤ 0x0B8) || (0x100 ≤ o.toNat && o.toNat ≤ 0x178))) = true ∧
    ([0x068, 0x078, 0x0C0, 0x0F8, 0x180, 0xFF8].all fun n =>
      let o := BitVec.ofNat 12 n
      o.toNat % 8 == 0 && ((0x068 ≤ o.toNat && o.toNat ≤ 0x078) || (0x0C0 ≤ o.toNat && o.toNat ≤ 0x0F8) ||
        0x180 ≤ o.toNat)) = true := by decide

/-- The register map at the ends of each of its ranges: what the two steps return for all ones written. -/
theorem witness_RegisterMapReadsBack :
    (∀ (offset : BitVec 12) (v : Word64) (rest : List Turn),
      Idle (scripted (.host (.regWrite offset 8 v) :: .host (.regRead offset 8) :: rest))) ∧
    ([0x000, 0x010, 0x020, 0x040, 0x048, 0x050, 0x060, 0x068, 0x078, 0x080, 0x0B8, 0x0C0, 0x0F8, 0x100, 0x178, 0x180,
      0xFF8].map fun n =>
        (regValue (hostRegWrite State.reset (BitVec.ofNat 12 n) 8 0xFFFFFFFFFFFFFFFF) (hostReg (BitVec.ofNat 12 n)))) =
    [0x0000000757415645, 1, 0xFFFFFFFF, 0xFFFFFFFF, 0, 0xFFFFFFF0, 0xFFFFFFF0, 0, 0, 0xFFFFFFFFFFFFFFFF,
      0xFFFFFFFFFFFFFFFF, 0, 0, 0xFFFFFFFFFFFFFFFF, 0xFFFFFFFFFFFFFFFF, 0, 0] :=
  ⟨fun _ _ _ => ⟨rfl, rfl⟩, by decide⟩

/-- One access for each reason to ignore a write. -/
theorem witness_UnsupportedWritesIgnored :
    (assertReset State.reset).resetAsserted = true ∧ (4 ≠ 8) ∧ (0x024 : BitVec 12).toNat % 8 ≠ 0 ∧
    (3 ≠ 1 ∧ 3 ≠ 2 ∧ 3 ≠ 4 ∧ 3 ≠ 8) ∧ 2 % 4 ≠ 0 ∧ State.reset.bmemBytes < 0x1000 + 1 := by decide

/-- The offsets at the ends of the ranges of RegisterWritten and IdleReads, and the three registers that are always
read, while idle and while a command is pending. -/
theorem witness_RegisterReads :
    ReservedOffset 0x068 ∧ ReservedOffset 0x078 ∧ ReservedOffset 0x0C0 ∧ ReservedOffset 0x0F8 ∧
    ReservedOffset 0x180 ∧ ReservedOffset 0xFF8 ∧
    (0x080 : BitVec 12).toNat = 0x080 + 8 * (0 : RegIdx).val ∧ (0x0B8 : BitVec 12).toNat = 0x080 + 8 * (7 : RegIdx).val ∧
    (0x170 : BitVec 12).toNat = 0x100 + 16 * (7 : RegIdx).val ∧ (0x178 : BitVec 12).toNat = 0x108 + 16 * (7 : RegIdx).val ∧
    ([0x000, 0x010, 0x018].map fun n => (hostRegRead (pending 1 0x30000003 []) (BitVec.ofNat 12 n) 8).readData) =
      [0x0000000757415645, 0, 0x30000003] ∧
    (hostRegRead { State.reset with lastCmd := 0x15408000 } 0x018 8).readData = 0x15408000 := by
  unfold ReservedOffset
  decide

/-- The last eight bytes and the last byte of BMEM, written and then read, whatever follows. -/
theorem witness_PortReadsBackWrites (v : Word64) (rest : List Turn) :
    (scripted (.host (.memWrite 0xFF8 8 v) :: .host (.memRead 0xFF8 8) :: rest)).script =
      .host (.memWrite 0xFF8 8 v) :: .host (.memRead 0xFF8 8) :: rest ∧
    Idle (scripted (.host (.memWrite 0xFF8 8 v) :: .host (.memRead 0xFF8 8) :: rest)) ∧
    8 ∈ [1, 2, 4, 8] ∧ 0xFF8 % 8 = 0 ∧
    0xFF8 + 8 ≤ (scripted (.host (.memWrite 0xFF8 8 v) :: .host (.memRead 0xFF8 8) :: rest)).bmemBytes ∧
    1 ∈ [1, 2, 4, 8] ∧ 0xFFF % 1 = 0 ∧
    0xFFF + 1 ≤ (scripted (.host (.memWrite 0xFFF 1 v) :: .host (.memRead 0xFFF 1) :: rest)).bmemBytes := by
  refine ⟨rfl, ⟨rfl, rfl⟩, by decide, by decide, ?_, by decide, by decide, ?_⟩ <;> exact Nat.le_refl _

/-- The pending FFT.TO of one element reads [0, 16) and [0x200, 0x204) and writes [0x400, 0x410). -/
theorem footprint_of_pending (turns : List Turn) (a : Nat) :
    (PendingReads (pending 1 0x30000003 turns) a ↔ Within a 0 16 ∨ Within a 0x200 4) ∧
    (PendingWrites (pending 1 0x30000003 turns) a ↔ Within a 0x400 16) := by
  have hd : decode (pending 1 0x30000003 turns).lastCmd = .ok (.fft true true) :=
    show decode 0x30000003 = .ok (.fft true true) by decide
  constructor
  · constructor
    · rintro ⟨i, hi, ha, ⟨o, t, rfl, h⟩ | ⟨cd, xs1, rfl, h⟩⟩
      · exact h.imp id (·.2)
      · cases hd.symm.trans hi
    · intro h
      refine ⟨_, hd, show a < 0x1000 from ?_, .inl ⟨true, true, rfl, h.imp id fun h => ⟨rfl, h⟩⟩⟩
      unfold Within at h
      omega
  · constructor
    · rintro ⟨i, hi, ha, ⟨t, rfl, h⟩ | ⟨t, rfl, h⟩ | ⟨rfl, h⟩ | ⟨rfl, h⟩ | ⟨cs2, xs1, rfl, h⟩⟩
      · exact h
      all_goals cases hd.symm.trans hi
    · intro h
      refine ⟨_, hd, show a < 0x1000 from ?_, .inl ⟨true, rfl, h⟩⟩
      unfold Within at h
      omega

/-- Host accesses at the ends of F_R and F_W of the pending FFT.TO and just outside them; a byte outside F_W that is
unwritten (0x600) and one that is written (0); a pending word that is illegal. -/
theorem witness_HostPortWhileBusy (v : Word64) (rest : List Turn) :
    (HostNext (pending 1 0x30000003 (.host (.memWrite 0x408 8 v) :: rest)) (.memWrite 0x408 8 v) rest ∧
      PendingWrites (pending 1 0x30000003 (.host (.memWrite 0x408 8 v) :: rest)) (0x408 + 7)) ∧
    PendingReads (pending 1 0x30000003 (.host (.memWrite 0x008 8 v) :: rest)) (0x008 + 7) ∧
    PendingReads (pending 1 0x30000003 (.host (.memWrite 0x200 8 v) :: rest)) (0x200 + 3) ∧
    (∀ k, k < 8 → ¬ PendingReads (pending 1 0x30000003 (.host (.memWrite 0x410 8 v) :: rest)) (0x410 + k) ∧
      ¬ PendingWrites (pending 1 0x30000003 (.host (.memWrite 0x410 8 v) :: rest)) (0x410 + k)) ∧
    (¬ PendingWrites (pending 1 0x30000003 (.host (.memRead 0 8) :: rest)) 0 ∧ (buffers 1).mem.byte 0 ≠ none) ∧
    (¬ PendingWrites (pending 1 0x30000003 (.host (.memRead 0x600 1) :: rest)) 0x600 ∧
      (buffers 1).mem.byte 0x600 = none) ∧
    (∃ e, decode (pending 1 0 (.host (.memWrite 0x408 8 v) :: rest)).lastCmd = .error e) := by
  simp only [footprint_of_pending]
  unfold Within
  refine ⟨⟨rfl, by decide⟩, by decide, by decide, fun k hk => ⟨by omega, by omega⟩, ⟨by decide, by decide⟩,
    ⟨by decide, by decide⟩, ⟨.unassignedOpcode, show decode 0 = .error .unassignedOpcode by decide⟩⟩

/-- Reset asserted on a pending command and on a pending illegal word, then deasserted. -/
theorem witness_ResetDiscardsPendingCommand (rest : List Turn) :
    (HostNext (pending 1 0x30000003 (.host .assertReset :: .host .deassertReset :: rest)) .assertReset
        (.host .deassertReset :: rest) ∧
      (pending 1 0x30000003 (.host .assertReset :: .host .deassertReset :: rest)).status.busy = true ∧
      decode 0x30000003 = .ok (.fft true true)) ∧
    (HostNext (pending 1 0 (.host .assertReset :: rest)) .assertReset rest ∧
      (pending 1 0 (.host .assertReset :: rest)).status.busy = true ∧ decode 0 = .error .unassignedOpcode) :=
  ⟨⟨rfl, rfl, by decide⟩, rfl, rfl, by decide⟩

theorem witness_ResetValues (rest : List Turn) :
    (scripted (.host .assertReset :: .host .deassertReset :: rest)).script =
      .host .assertReset :: .host .deassertReset :: rest ∧
    (scripted (.host .assertReset :: .host .deassertReset :: rest)).status.busy = false ∧
    (scripted (.host .assertReset :: .host .deassertReset :: rest)).raced = [] := ⟨rfl, rfl, rfl⟩

/-- An FFT whose input byte 0 the host has written while it was pending; byte 0x500 lies outside all it writes. -/
theorem witness_RacedCommandOutcome :
    EngineReady { pending 1 0x30000003 [] with raced := [0] } ∧
    decode { pending 1 0x30000003 [] with raced := [0] }.lastCmd = .ok (.fft true true) ∧ [0] ≠ [] ∧
    ¬ InWriteSet { pending 1 0x30000003 [] with raced := [0] } (.fft true true) 0x500 ∧ 0x500 ∉ [0] ∧
    (∀ r, r ∉ complexDests (.fft true true)) ∧ ∀ r, r ∉ integerDests (.fft true true) := by
  refine ⟨⟨rfl, rfl, .inl rfl⟩, show decode 0x30000003 = .ok (.fft true true) by decide, by decide, ?_, by decide,
    fun _ h => (nomatch h), fun _ h => (nomatch h)⟩
  rintro ⟨-, ⟨t, -, h⟩ | ⟨t, h, -⟩ | ⟨h, -⟩ | ⟨h, -⟩ | ⟨cs2, xs1, h, -⟩⟩
  · exact absurd h.2 (show ¬ 0x500 < 0x410 by decide)
  all_goals cases h

/-- A state with a pending, raced command and a memory that is not empty meets the invariant, and steps. -/
theorem witness_StepKeepsInvariant :
    Invariant { pending 1 0x30000003 [.wait] with raced := [0] } ∧
    ∃ t, step { pending 1 0x30000003 [.wait] with raced := [0] } = .next t :=
  ⟨⟨by decide, by decide, by decide, fun _ => ⟨rfl, _, rfl⟩, by decide⟩, _, rfl⟩

/-- Two states that differ in unwritten registers, the engine about to run a command that reads none of them. -/
theorem witness_UnwrittenValuesUnobservable :
    SameWritten (State.reset.withFetchWord 32 0x30000000)
      { State.reset.withFetchWord 32 0x30000000 with xr := Vector.replicate 8 5 } ∧
    readsOnlyWritten (State.reset.withFetchWord 32 0x30000000) = true :=
  ⟨⟨by decide, by decide, by decide, rfl⟩, by decide⟩

end Sys2Proof.Tests
end

section
/-!
PROOFS of the statements on 00_scope.md. A pattern is read and packed on the grid of its last place (views), a value
is rounded to the nearest point of that grid (`NearestOnGrid`), and `RoundsTo` follows once for every operation
(`NearestOnGrid.roundsTo`); each primitive then only has to show which grid point it packs.
-/

namespace Sys2Proof.Machine

open Sys2Proof.Claims

/-! ### Fields of a pattern -/

theorem fexponent_eq_extract (a : F64) : fexponent a = (a.extractLsb' 52 11).toNat := by
  rw [fexponent, BitVec.extractLsb'_toNat, Nat.shiftRight_eq_div_pow]

theorem ffraction_eq_extract (a : F64) : ffraction a = (a.extractLsb' 0 52).toNat := by
  rw [ffraction, BitVec.extractLsb'_toNat, Nat.shiftRight_zero]

theorem fexponent_fneg (a : F64) : fexponent (fneg a) = fexponent a := by
  have h : (0x8000000000000000 : F64).extractLsb' 52 11 = 0#11 := by decide
  rw [fexponent_eq_extract, fexponent_eq_extract, fneg, BitVec.extractLsb'_xor, h, BitVec.xor_zero]

theorem ffraction_fneg (a : F64) : ffraction (fneg a) = ffraction a := by
  have h : (0x8000000000000000 : F64).extractLsb' 0 52 = 0#52 := by decide
  rw [ffraction_eq_extract, ffraction_eq_extract, fneg, BitVec.extractLsb'_xor, h, BitVec.xor_zero]

theorem fsign_fneg (a : F64) : fsign (fneg a) = !fsign a := by
  simp [fsign, fneg]

/-- Every pattern is its sign, exponent and fraction packed together. -/
theorem fpack_of_fields (a : F64) : fpack (fsign a) (fexponent a * 2 ^ 52 + ffraction a) = a := by
  have hlt := a.isLt
  have hs : (fsign a).toNat = a.toNat / 2 ^ 63 := by
    rw [fsign, BitVec.getLsbD, Nat.testBit_eq_decide_div_mod_eq, Nat.mod_eq_of_lt (by omega)]
    rcases Nat.lt_or_ge a.toNat (2 ^ 63) with h | h
    · rw [Nat.div_eq_of_lt h]; rfl
    · rw [show a.toNat / 2 ^ 63 = 1 by omega]; rfl
  have hf : fexponent a * 2 ^ 52 + ffraction a < 2 ^ 63 := by unfold fexponent ffraction; omega
  apply BitVec.eq_of_toNat_eq
  rw [fpack_toNat hf, hs]
  unfold fexponent ffraction
  omega

/-! ### Views of packed patterns, and the patterns of a view -/

@[simp] theorem fview_cnan : fview cnan = .nan := by decide +kernel

@[simp] theorem fview_finf (neg : Bool) : fview (finf neg) = .inf neg := by
  obtain ⟨hs, he, hf⟩ := fpack_fields (neg := neg) (bits := infBits) (by decide)
  rw [finf, fview, hs, he, hf]
  rfl

/-- Bits 62:0 below those of an infinity give a finite value: `n` units of the last place `2^k`. -/
theorem fview_fpack_grid {neg : Bool} {k n : Nat} (hn : n ≤ 2 ^ 53) (hk : k = 0 ∨ 2 ^ 52 ≤ n)
    (hb : k * 2 ^ 52 + n < infBits) : fview (fpack neg (k * 2 ^ 52 + n)) = .fin neg (n * 2 ^ k) := by
  unfold infBits at hb
  obtain ⟨hs, he, hf⟩ := fpack_fields (neg := neg) (bits := k * 2 ^ 52 + n) (by omega)
  rw [fview, hs, he, hf, if_neg (by omega)]
  by_cases hsub : n < 2 ^ 52
  · obtain rfl : k = 0 := by omega
    rw [if_pos (by omega)]
    congr 1
    omega
  · rw [if_neg (by omega)]
    congr 1
    rcases Nat.lt_or_ge n (2 ^ 53) with h | h
    · rw [show (k * 2 ^ 52 + n) / 2 ^ 52 - 1 = k by omega, show 2 ^ 52 + (k * 2 ^ 52 + n) % 2 ^ 52 = n by omega]
    · rw [show (k * 2 ^ 52 + n) / 2 ^ 52 - 1 = k + 1 by omega,
        show 2 ^ 52 + (k * 2 ^ 52 + n) % 2 ^ 52 = 2 ^ 52 by omega, show n = 2 ^ 52 * 2 by omega, pow_succ]
      ring

/-- An even magnitude pattern has bit 0 clear. -/
theorem fpack_even {neg : Bool} {bits : Nat} (h : bits < 2 ^ 63) (he : bits % 2 = 0) :
    (fpack neg bits).getLsbD 0 = false := by
  rw [BitVec.getLsbD, Nat.testBit_zero, fpack_toNat h, decide_eq_false_iff_not]
  omega

@[simp] theorem fview_fzero (neg : Bool) : fview (fzero neg) = .fin neg 0 := by
  simpa [fzero] using fview_fpack_grid (neg := neg) (k := 0) (n := 0) (by omega) (.inl rfl) (by decide)

/-- No magnitude up to an infinity's is a NaN. -/
theorem fview_fpack_ne_nan {neg : Bool} {bits : Nat} (h : bits ≤ infBits) : fview (fpack neg bits) ≠ .nan := by
  unfold infBits at h
  obtain ⟨hs, he, hf⟩ := fpack_fields (neg := neg) (bits := bits) (by omega)
  rw [fview, hs, he, hf]
  split
  · rw [if_pos (by omega)]; simp
  · split <;> simp

/-- A finite value is a significand below 2^53 times a power of two, and its pattern is determined. -/
theorem fview_fin_grid {a : F64} {p : Bool} {m : Nat} (h : fview a = .fin p m) :
    ∃ k n, n < 2 ^ 53 ∧ (k = 0 ∨ 2 ^ 52 ≤ n) ∧ k ≤ 2045 ∧ m = n * 2 ^ k ∧ a = fpack p (k * 2 ^ 52 + n) := by
  have hf : ffraction a < 2 ^ 52 := Nat.mod_lt _ (by omega)
  have he : fexponent a < 2 ^ 11 := Nat.mod_lt _ (by omega)
  have ha := fpack_of_fields a
  unfold fview at h
  split at h
  · split at h <;> cases h
  · split at h
    · next h0 =>
      cases h
      exact ⟨0, ffraction a, by omega, .inl rfl, by omega, by omega, by rw [h0] at ha; exact ha.symm⟩
    · cases h
      refine ⟨fexponent a - 1, 2 ^ 52 + ffraction a, by omega, .inr (by omega), by omega, rfl, ?_⟩
      rw [show (fexponent a - 1) * 2 ^ 52 + (2 ^ 52 + ffraction a) = fexponent a * 2 ^ 52 + ffraction a by omega, ha]

theorem significand_mul_pow_lt {n k e : Nat} (hn : n < 2 ^ 53) (hk : 53 + k ≤ e) : n * 2 ^ k < 2 ^ e :=
  calc n * 2 ^ k < 2 ^ 53 * 2 ^ k := Nat.mul_lt_mul_of_pos_right hn (by positivity)
    _ = 2 ^ (53 + k) := (pow_add 2 53 k).symm
    _ ≤ 2 ^ e := Nat.pow_le_pow_right (by omega) hk

/-- Every finite value is below 2^2098 units. -/
theorem fview_fin_lt {a : F64} {p : Bool} {m : Nat} (h : fview a = .fin p m) : m < 2 ^ 2098 := by
  obtain ⟨k, n, hn, -, hk, rfl, -⟩ := fview_fin_grid h
  exact significand_mul_pow_lt hn (by omega)

/-- An infinity has one pattern for each sign. -/
theorem eq_finf_of_fview {a : F64} {p : Bool} (h : fview a = .inf p) : a = finf p := by
  have ha := fpack_of_fields a
  unfold fview at h
  split at h
  · next he =>
    split at h
    · next hf => cases h; rw [he, hf] at ha; exact ha.symm
    · cases h
  · split at h <;> cases h

/-- The view of a negated value. -/
theorem fview_fneg (a : F64) : fview (fneg a) =
    match fview a with
    | .nan => .nan
    | .inf p => .inf (!p)
    | .fin p m => .fin (!p) m := by
  simp only [fview, fexponent_fneg, ffraction_fneg, fsign_fneg]
  split <;> split <;> rfl

theorem fview_fneg_nan {a : F64} (h : fview a = .nan) : fview (fneg a) = .nan := by rw [fview_fneg, h]

theorem fview_fneg_inf {a : F64} {p : Bool} (h : fview a = .inf p) : fview (fneg a) = .inf (!p) := by
  rw [fview_fneg, h]

theorem fview_fneg_fin {a : F64} {p : Bool} {m : Nat} (h : fview a = .fin p m) : fview (fneg a) = .fin (!p) m := by
  rw [fview_fneg, h]

/-! ### The nearest point of a grid -/

/-- A magnitude `y` with the sign `neg`. -/
noncomputable def applySign (neg : Bool) (y : ℝ) : ℝ := if neg then -y else y

theorem unitsOf_eq_applySign (neg : Bool) (m : Nat) : unitsOf neg m = applySign neg m := rfl

theorem abs_applySign (neg : Bool) (y : ℝ) : |applySign neg y| = |y| := by
  cases neg <;> simp [applySign]

theorem applySign_mul (p q : Bool) (y z : ℝ) : applySign p y * applySign q z = applySign (p ^^ q) (y * z) := by
  cases p <;> cases q <;> simp [applySign]

theorem applySign_div (p q : Bool) (y z : ℝ) : applySign p y / applySign q z = applySign (p ^^ q) (y / z) := by
  cases p <;> cases q <;> simp [applySign, neg_div, div_neg]

/-- The distance of a signed magnitude from a value is that of the magnitude from the value with its sign turned. -/
theorem abs_applySign_sub (neg u : Bool) (y : ℝ) (m : Nat) :
    |applySign neg y - unitsOf u m| = |y - unitsOf (u ^^ neg) m| := by
  cases neg with
  | false => simp [applySign]
  | true => rw [← abs_neg]; cases u <;> simp [applySign, unitsOf, ← sub_eq_add_neg, add_comm]

theorem unitsOf_eq_iff (neg u : Bool) (m n : Nat) :
    unitsOf u m = unitsOf neg n ↔ unitsOf (u ^^ neg) m = n := by
  cases neg <;> cases u <;> simp [unitsOf, neg_eq_iff_eq_neg]

/-! ### Rounding -/

/-- Half a last place above the largest finite value, as `RoundsTo` writes it. -/
theorem overflow_threshold : (2 : ℝ) ^ 2098 - 2 ^ 2044 = (2 ^ 54 - 1) * 2 ^ 2044 := by
  rw [show 2098 = 54 + 2044 from rfl, pow_add, sub_mul, one_mul]


theorem roundsTo_of_inf {x : ℝ} {r : F64} {neg : Bool} (hv : fview r = .inf neg)
    (hx : (2 ^ 54 - 1) * 2 ^ 2044 ≤ |x|) (hs : neg = true ↔ x < 0) : RoundsTo x r := by
  rw [← overflow_threshold] at hx
  rw [RoundsTo, hv]
  exact ⟨hx, hs⟩

theorem roundsTo_of_fin {x : ℝ} {r : F64} {neg : Bool} {mag : Nat} (hv : fview r = .fin neg mag)
    (hx : |x| < (2 ^ 54 - 1) * 2 ^ 2044)
    (hn : ∀ (c : F64) (u : Bool) (k : Nat), fview c = .fin u k →
      |x - unitsOf neg mag| ≤ |x - unitsOf u k| ∧
      (|x - unitsOf neg mag| = |x - unitsOf u k| → unitsOf u k ≠ unitsOf neg mag → r.getLsbD 0 = false)) :
    RoundsTo x r := by
  rw [← overflow_threshold] at hx
  rw [RoundsTo, hv]
  exact ⟨hx, hn⟩
/-- `n` is the multiple of the last place `2^k` nearest to `y`, ties to even, where `2^k` is the last place of `y`'s
binade or, for `k = 0`, of the subnormals. -/
structure NearestOnGrid (y : ℝ) (k n : Nat) : Prop where
  nonneg : 0 ≤ y
  low : k = 0 ∨ (2 : ℝ) ^ 52 * 2 ^ k ≤ y
  high : y < (2 : ℝ) ^ 53 * 2 ^ k
  near : |y - n * 2 ^ k| ≤ 2 ^ k / 2
  even : |y - n * 2 ^ k| = 2 ^ k / 2 → n % 2 = 0

namespace NearestOnGrid
variable {y : ℝ} {k n : Nat}

theorem le_pow (h : NearestOnGrid y k n) : n ≤ 2 ^ 53 := by
  have hg : (0 : ℝ) < 2 ^ k := by positivity
  have hlt : (n : ℝ) * 2 ^ k < (2 ^ 53 + 1) * 2 ^ k := by linarith [(abs_le.1 h.near).1, h.high]
  have hn : (n : ℝ) < 2 ^ 53 + 1 := lt_of_mul_lt_mul_right hlt hg.le
  exact Nat.lt_succ_iff.1 (by exact_mod_cast hn)

theorem pow_le (h : NearestOnGrid y k n) : k = 0 ∨ 2 ^ 52 ≤ n := by
  refine h.low.imp_right fun hl => ?_
  have hg : (0 : ℝ) < 2 ^ k := by positivity
  have hlt : (2 : ℝ) ^ 52 * 2 ^ k < (n + 1) * 2 ^ k := by linarith [(abs_le.1 h.near).2]
  have hn : (2 : ℝ) ^ 52 < n + 1 := lt_of_mul_lt_mul_right hlt hg.le
  exact Nat.lt_succ_iff.1 (by exact_mod_cast hn)

/-- No multiple of the last place is nearer, and one as near leaves `n` even. -/
theorem le_multiple (h : NearestOnGrid y k n) (j : Nat) :
    |y - n * 2 ^ k| ≤ |y - j * 2 ^ k| ∧ (|y - n * 2 ^ k| = |y - j * 2 ^ k| → j ≠ n → n % 2 = 0) := by
  rcases eq_or_ne j n with rfl | hne
  · exact ⟨le_rfl, fun _ hc => absurd rfl hc⟩
  have hg : (0 : ℝ) < 2 ^ k := by positivity
  have hgap : (2 : ℝ) ^ k ≤ |(n : ℝ) * 2 ^ k - j * 2 ^ k| := by
    have h1 : (1 : ℝ) ≤ |(n : ℝ) - j| := by
      have : (1 : ℤ) ≤ |(n : ℤ) - j| := Int.one_le_abs (by omega)
      exact_mod_cast this
    rw [← sub_mul, abs_mul, abs_of_pos hg]
    exact le_mul_of_one_le_left hg.le h1
  have htri := abs_sub_le ((n : ℝ) * 2 ^ k) y (j * 2 ^ k)
  rw [abs_sub_comm _ y] at htri
  have hnear := h.near
  refine ⟨by linarith, fun heq _ => h.even (by linarith)⟩

/-- For every finite value there is a multiple of the last place at most as far from `y`, and equally far only when it
is that value. -/
theorem exists_multiple (h : NearestOnGrid y k n) (u : Bool) {c i : Nat} (hc : c < 2 ^ 53) :
    ∃ j : Nat, |y - j * 2 ^ k| ≤ |y - unitsOf u (c * 2 ^ i)| ∧
      (|y - j * 2 ^ k| = |y - unitsOf u (c * 2 ^ i)| → unitsOf u (c * 2 ^ i) = j * 2 ^ k) := by
  have hm : (0 : ℝ) ≤ ((c * 2 ^ i : Nat) : ℝ) := Nat.cast_nonneg _
  have hy := h.nonneg
  cases u with
  | true =>
    refine ⟨0, ?_⟩
    simp only [unitsOf, if_true, sub_neg_eq_add, Nat.cast_zero, zero_mul, sub_zero]
    rw [abs_of_nonneg hy, abs_of_nonneg (by linarith)]
    exact ⟨by linarith, fun heq => by linarith⟩
  | false =>
    simp only [unitsOf, Bool.false_eq_true, if_false]
    rcases Nat.lt_or_ge i k with hik | hki
    · have hl := h.low.resolve_left (by omega)
      have hlt : ((c * 2 ^ i : Nat) : ℝ) < (2 : ℝ) ^ 52 * 2 ^ k := by
        have hN : c * 2 ^ i < 2 ^ 52 * 2 ^ k :=
          calc c * 2 ^ i < 2 ^ 53 * 2 ^ i := Nat.mul_lt_mul_of_pos_right hc (by positivity)
            _ = 2 ^ 52 * 2 ^ (i + 1) := by rw [pow_succ 2 i, pow_succ 2 52]; ring
            _ ≤ 2 ^ 52 * 2 ^ k := Nat.mul_le_mul_left _ (Nat.pow_le_pow_right (by omega) hik)
        exact_mod_cast hN
      refine ⟨2 ^ 52, ?_⟩
      push_cast at hlt ⊢
      rw [abs_of_nonneg (by linarith), abs_of_nonneg (by linarith)]
      exact ⟨by linarith, fun heq => by linarith⟩
    · have he : ((c * 2 ^ i : Nat) : ℝ) = ((c * 2 ^ (i - k) : Nat) : ℝ) * 2 ^ k := by
        rw [show i = (i - k) + k by omega, pow_add, ← mul_assoc, Nat.add_sub_cancel]
        push_cast
        rfl
      exact ⟨c * 2 ^ (i - k), by rw [he], fun _ => he⟩

/-- A result below exponent field `e + 3` comes from a value below half a last place past the largest of field
`e + 2`; `e = 2044` is the overflow threshold. -/
theorem lt_threshold (h : NearestOnGrid y k n) {e : Nat} (hb : k * 2 ^ 52 + n < (e + 3) * 2 ^ 52) :
    y < (2 ^ 54 - 1) * 2 ^ e := by
  have hpos : (0 : ℝ) < 2 ^ e := by positivity
  have hk := h.pow_le
  rcases Nat.lt_or_ge e k with hk' | hk'
  · obtain rfl : k = e + 1 := by omega
    have hn : (n : ℝ) ≤ 2 ^ 53 - 1 := by
      have : n + 1 ≤ 2 ^ 53 := by omega
      exact le_sub_iff_add_le.2 (by exact_mod_cast this)
    have hnear := h.near
    have heven := h.even
    rw [pow_succ' 2 e, mul_div_cancel_left₀ _ two_ne_zero] at hnear heven
    generalize (2 : ℝ) ^ e = g at *
    have hmul : (n : ℝ) * g ≤ (2 ^ 53 - 1) * g := mul_le_mul_of_nonneg_right hn hpos.le
    refine lt_of_le_of_ne (by linarith [(abs_le.1 hnear).2]) fun heq => ?_
    have hodd := heven (by rw [abs_of_nonneg] <;> linarith [(abs_le.1 hnear).2])
    have hlast : (2 ^ 53 - 1 : ℝ) ≤ n := le_of_mul_le_mul_right (by linarith [(abs_le.1 hnear).2]) hpos
    have : 2 ^ 53 ≤ n + 1 := by exact_mod_cast sub_le_iff_le_add.1 hlast
    omega
  · have hg : (2 : ℝ) ^ k ≤ 2 ^ e := pow_le_pow_right₀ one_le_two hk'
    have := h.high
    generalize (2 : ℝ) ^ e = g at *
    linarith

/-- A result from exponent field `e + 3` on comes from a value at or above the threshold. -/
theorem threshold_le (h : NearestOnGrid y k n) {e : Nat} (hb : (e + 3) * 2 ^ 52 ≤ k * 2 ^ 52 + n) :
    (2 ^ 54 - 1) * 2 ^ e ≤ y := by
  have hn := h.le_pow
  have hpos : (0 : ℝ) < 2 ^ e := by positivity
  rcases Nat.lt_or_ge (e + 1) k with hk | hk
  · have hg : 2 ^ 2 * (2 : ℝ) ^ e ≤ 2 ^ k := by
      rw [← pow_add]; exact pow_le_pow_right₀ one_le_two (by omega)
    have := h.low.resolve_left (by omega)
    generalize (2 : ℝ) ^ e = g at *
    linarith
  · obtain rfl : k = e + 1 := by omega
    obtain rfl : n = 2 ^ 53 := by omega
    have hnear := (abs_le.1 h.near).1
    rw [pow_succ' 2 e] at hnear
    generalize (2 : ℝ) ^ e = g at *
    push_cast at hnear
    linarith

/-- The magnitude pattern of a nearest multiple, cut off at an infinity, is the correctly rounded value. -/
theorem roundsTo (h : NearestOnGrid y k n) (neg : Bool) :
    RoundsTo (applySign neg y) (fpack neg (min (k * 2 ^ 52 + n) infBits)) := by
  have habs : |applySign neg y| = y := by rw [abs_applySign, abs_of_nonneg h.nonneg]
  rcases Nat.lt_or_ge (k * 2 ^ 52 + n) infBits with hb | hb
  · rw [min_eq_left hb.le]
    unfold infBits at hb
    refine roundsTo_of_fin (fview_fpack_grid h.le_pow h.pow_le hb)
      (by rw [habs]; exact h.lt_threshold (by omega)) fun c u m hc => ?_
    obtain ⟨i, d, hd, -, -, rfl, -⟩ := fview_fin_grid hc
    obtain ⟨j, hle, heq⟩ := h.exists_multiple (u ^^ neg) (i := i) hd
    obtain ⟨hnj, htie⟩ := h.le_multiple j
    have hself : |applySign neg y - unitsOf neg (n * 2 ^ k)| = |y - n * 2 ^ k| := by
      rw [abs_applySign_sub, Bool.xor_self]; simp [unitsOf]
    rw [hself, abs_applySign_sub, Ne, unitsOf_eq_iff]
    refine ⟨hnj.trans hle, fun he hne => ?_⟩
    have hj := heq (le_antisymm hle (he.ge.trans hnj))
    have hn : n % 2 = 0 := htie (le_antisymm hnj (hle.trans he.ge)) fun hjn => hne (by rw [hj, hjn]; push_cast; rfl)
    exact fpack_even (by omega) (by omega)
  · rw [min_eq_right hb]
    unfold infBits at hb
    have hy := h.threshold_le (e := 2044) (by omega)
    have hpos : 0 < y := lt_of_lt_of_le (mul_pos (by norm_num) (pow_pos two_pos _)) hy
    refine roundsTo_of_inf (fview_finf neg) (by rwa [habs]) ?_
    cases neg with
    | false => simp [applySign, hpos.le]
    | true => simp [applySign, hpos]

end NearestOnGrid

/-! ### Rounding a quotient -/

/-- `roundMag` picks the last place of the quotient's binade, and `divRne` the nearest multiple of it. -/
theorem nearestOnGrid_divRne (num : Nat) {den : Nat} (hden : 0 < den) :
    NearestOnGrid ((num : ℝ) / den) (Nat.log2 (num / den) - 52)
      (divRne num (den * 2 ^ (Nat.log2 (num / den) - 52))) := by
  generalize hk : Nat.log2 (num / den) - 52 = k
  have hd : (0 : ℝ) < den := Nat.cast_pos.2 hden
  obtain ⟨hup, hdown, hupEven, hdownEven⟩ := divRne_nearest num (den := den * 2 ^ k) (by positivity)
  generalize divRne num (den * 2 ^ k) = n at *
  have hquot : ((num : ℝ) / den) * den = num := div_mul_cancel₀ _ hd.ne'
  generalize (num : ℝ) / den = y at hquot
  have hle : y - n * 2 ^ k ≤ 2 ^ k / 2 := by
    have : (2 : ℝ) * num ≤ (2 * n + 1) * (den * 2 ^ k) := by exact_mod_cast hup
    exact le_of_mul_le_mul_right (by linarith) hd
  have hge : -(2 ^ k / 2) ≤ y - n * 2 ^ k := by
    have : (2 : ℝ) * n * (den * 2 ^ k) ≤ 2 * num + den * 2 ^ k := by exact_mod_cast hdown
    exact le_of_mul_le_mul_right (by linarith) hd
  refine ⟨nonneg_of_mul_nonneg_left (hquot ▸ Nat.cast_nonneg num) hd, ?_, ?_, abs_le.2 ⟨hge, hle⟩, fun htie => ?_⟩
  · rcases Nat.eq_zero_or_pos k with h0 | hpos
    · exact .inl h0
    · have hq : num / den ≠ 0 := fun h0 => by rw [h0] at hk; simp at hk; omega
      have hlow : 2 ^ 52 * 2 ^ k * den ≤ num := by
        rw [← pow_add, show 52 + k = Nat.log2 (num / den) by omega]
        exact (Nat.le_div_iff_mul_le hden).1 (Nat.log2_self_le hq)
      exact .inr (le_of_mul_le_mul_right (by rw [hquot]; exact_mod_cast hlow) hd)
  · have hhigh : num < 2 ^ 53 * 2 ^ k * den := by
      rw [← pow_add]
      exact (Nat.div_lt_iff_lt_mul hden).1
        (Nat.lt_log2_self.trans_le (Nat.pow_le_pow_right (by omega) (by omega)))
    exact lt_of_mul_lt_mul_right (by rw [hquot]; exact_mod_cast hhigh) hd.le
  · rcases abs_eq (by positivity) |>.1 htie with heq | heq
    · refine hupEven ?_
      have : (2 : ℝ) * num = (2 * n + 1) * (den * 2 ^ k) := by rw [← hquot]; linear_combination 2 * den * heq
      exact_mod_cast this
    · refine hdownEven ?_
      have : (2 : ℝ) * n * (den * 2 ^ k) = 2 * num + den * 2 ^ k := by
        rw [← hquot]; linear_combination -2 * den * heq
      exact_mod_cast this

/-- `fround64` rounds correctly (00_scope.md R16). -/
theorem roundsTo_fround64 (neg : Bool) (num : Nat) {den : Nat} (hden : 0 < den) :
    RoundsTo (applySign neg (num / den)) (fround64 neg num den) :=
  (nearestOnGrid_divRne num hden).roundsTo neg

@[simp] theorem fsign_fpack {neg : Bool} {bits : Nat} (h : bits ≤ infBits) : fsign (fpack neg bits) = neg :=
  (fpack_fields (h.trans_lt (by decide))).1

@[simp] theorem fsign_fround64 (neg : Bool) (num den : Nat) : fsign (fround64 neg num den) = neg :=
  fsign_fpack (roundMag_le num den)

@[simp] theorem fsign_fzero (neg : Bool) : fsign (fzero neg) = neg := fsign_fpack (Nat.zero_le _)

theorem nearestOnGrid_zero : NearestOnGrid 0 0 0 := by
  constructor <;> simp

theorem roundsTo_fzero (neg : Bool) : RoundsTo 0 (fzero neg) := by
  simpa [applySign, fzero] using nearestOnGrid_zero.roundsTo neg

/-! ### Sums, products and quotients of finite values -/

theorem cast_signedMag (p : Bool) (m : Nat) : ((signedMag p m : Int) : ℝ) = unitsOf p m := by
  cases p <;> simp [signedMag, unitsOf]

theorem applySign_natAbs (z : Int) : applySign (decide (z < 0)) z.natAbs = z := by
  rw [Nat.cast_natAbs, Int.cast_abs]
  by_cases hz : z < 0
  · simp [applySign, hz, abs_of_neg (Int.cast_lt_zero.2 hz)]
  · simp [applySign, hz, not_lt.1 hz]

theorem applySign_mul_const (p : Bool) (y c : ℝ) : applySign p y * c = applySign p (y * c) := by
  cases p <;> simp [applySign]

section
variable {a b : F64} {p q : Bool} {m n : Nat} (ha : fview a = .fin p m) (hb : fview b = .fin q n)
include ha hb

theorem fadd_fin : fadd a b =
    if signedMag p m + signedMag q n = 0 then fzero (p && q)
    else fround64 (decide (signedMag p m + signedMag q n < 0)) (signedMag p m + signedMag q n).natAbs 1 := by
  simp only [fadd, ha, hb]

/-- The sum of finite values: correctly rounded, and the sign of an exact zero. -/
theorem fadd_rounds : RoundsTo (unitsOf p m + unitsOf q n) (fadd a b) ∧
    (unitsOf p m + unitsOf q n = 0 → fsign (fadd a b) = (p && q)) := by
  rw [fadd_fin ha hb, ← cast_signedMag, ← cast_signedMag, ← Int.cast_add]
  generalize signedMag p m + signedMag q n = z
  by_cases hz : z = 0
  · rw [if_pos hz, hz, Int.cast_zero]
    exact ⟨roundsTo_fzero _, fun _ => fsign_fzero _⟩
  · rw [if_neg hz]
    refine ⟨?_, fun h => absurd (Int.cast_eq_zero.1 h) hz⟩
    have h := roundsTo_fround64 (decide (z < 0)) z.natAbs one_pos
    rwa [Nat.cast_one, div_one, applySign_natAbs] at h

theorem fmul_fin : fmul a b = fround64 (p ^^ q) (m * n) (2 ^ 1074) := by
  simp only [fmul, ha, hb]

theorem fmul_rounds : RoundsTo (unitsOf p m * unitsOf q n / 2 ^ 1074) (fmul a b) := by
  have h := roundsTo_fround64 (p ^^ q) (m * n) (den := 2 ^ 1074) (by positivity)
  rw [Nat.cast_mul, Nat.cast_pow, Nat.cast_ofNat, div_eq_mul_inv, ← applySign_mul_const, ← applySign_mul,
    ← div_eq_mul_inv] at h
  rwa [fmul_fin ha hb]

theorem fdiv_fin (hn : n ≠ 0) : fdiv a b = fround64 (p ^^ q) (m * 2 ^ 1074) n := by
  simp only [fdiv, ha, hb, if_neg hn]

theorem fdiv_rounds (hn : n ≠ 0) : RoundsTo (unitsOf p m / unitsOf q n * 2 ^ 1074) (fdiv a b) := by
  have h := roundsTo_fround64 (p ^^ q) (m * 2 ^ 1074) (Nat.pos_of_ne_zero hn)
  rw [Nat.cast_mul, Nat.cast_pow, Nat.cast_ofNat, mul_div_right_comm, ← applySign_mul_const, ← applySign_div] at h
  rwa [fdiv_fin ha hb hn]

end

/-- A difference of finite values is the sum with the second sign turned (00_scope.md R16). -/
theorem unitsOf_sub (p q : Bool) (m n : Nat) : unitsOf p m - unitsOf q n = unitsOf p m + unitsOf (!q) n := by
  cases q <;> simp [unitsOf, sub_eq_add_neg]

/-! ### Square root -/

/-- The bit-by-bit root is the whole part of the square root, when that is within reach of the fuel. -/
theorem isqrtFrom_spec (x fuel acc : Nat) (hlo : acc * acc ≤ x) (hhi : x < (acc + 2 ^ fuel) * (acc + 2 ^ fuel)) :
    isqrtFrom x fuel acc * isqrtFrom x fuel acc ≤ x ∧
      x < (isqrtFrom x fuel acc + 1) * (isqrtFrom x fuel acc + 1) := by
  induction fuel generalizing acc with
  | zero => exact ⟨hlo, hhi⟩
  | succ fuel ih =>
    rw [isqrtFrom]
    split
    · next h => exact ih _ h (by rwa [add_assoc, ← mul_two, ← pow_succ])
    · next h => exact ih _ hlo (not_le.1 h)

/-- The last place `2^k` that `sqrtMag` takes for the root of `x`: the root lies in its binade. -/
theorem sqrt_binade {x : Nat} (hx : 2 ^ 104 ≤ x) {k : Nat} (hk : k = (Nat.log2 x + 2) / 2 - 53) :
    (2 ^ 52 * 2 ^ k) ^ 2 ≤ x ∧ x < (2 ^ 53 * 2 ^ k) ^ 2 := by
  have hx0 : x ≠ 0 := by omega
  have hlog : 104 ≤ Nat.log2 x := (Nat.le_log2 hx0).2 hx
  rw [← pow_add, ← pow_add, ← pow_mul, ← pow_mul]
  exact ⟨(Nat.le_log2 hx0).1 (by omega), (Nat.log2_lt hx0).1 (by omega)⟩

/-- Rounding half to even, for a value given by its whole part `q` in units of `g`. -/
theorem near_of_whole {y g : ℝ} {q : Nat} (hlo : q * g ≤ y) (hhi : y < (q + 1) * g) {up : Prop} [Decidable up]
    (hup : up ↔ (2 * q + 1) * g < 2 * y ∨ ((2 * q + 1) * g = 2 * y ∧ q % 2 = 1)) :
    |y - (if up then q + 1 else q : Nat) * g| ≤ g / 2 ∧
      (|y - (if up then q + 1 else q : Nat) * g| = g / 2 → (if up then q + 1 else q) % 2 = 0) := by
  by_cases h : up
  · simp only [if_pos h]
    have hle : (2 * q + 1) * g ≤ 2 * y := (hup.1 h).elim le_of_lt fun h => h.1.le
    push_cast
    rw [abs_sub_comm, abs_of_pos (by linarith)]
    refine ⟨by linarith, fun htie => ?_⟩
    rcases hup.1 h with hlt | ⟨-, hodd⟩
    · linarith
    · omega
  · simp only [if_neg h]
    rw [hup] at h
    push Not at h
    rw [abs_of_nonneg (by linarith)]
    refine ⟨by linarith, fun htie => ?_⟩
    have := h.2 (by linarith)
    omega

/-- Comparing `h` with twice a root is comparing the squares. -/
theorem compare_two_sqrt (h x : Nat) :
    (h * h < 4 * x ↔ (h : ℝ) < 2 * Real.sqrt x) ∧ (h * h = 4 * x ↔ (h : ℝ) = 2 * Real.sqrt x) := by
  have hr : (0 : ℝ) ≤ 2 * Real.sqrt x := by positivity
  have hsq : 2 * Real.sqrt x * (2 * Real.sqrt x) = 4 * x := by
    rw [mul_mul_mul_comm, Real.mul_self_sqrt (Nat.cast_nonneg x)]; norm_num
  constructor
  · rw [mul_self_lt_mul_self_iff (Nat.cast_nonneg h) hr, hsq]; norm_cast
  · rw [← mul_self_inj (Nat.cast_nonneg h) hr, hsq]; norm_cast

/-- The whole part of a root in units of `2^k`, from that of `x / 4^k`. -/
theorem whole_sqrt {x k q : Nat} (hlo : q * q ≤ x / 4 ^ k) (hhi : x / 4 ^ k < (q + 1) * (q + 1)) :
    (q : ℝ) * 2 ^ k ≤ Real.sqrt x ∧ Real.sqrt x < (q + 1) * 2 ^ k := by
  have h4 : 4 ^ k = 2 ^ k * 2 ^ k := by rw [← mul_pow]; rfl
  have hpos : 0 < 4 ^ k := by positivity
  rw [Nat.le_div_iff_mul_le hpos, h4] at hlo
  rw [Nat.div_lt_iff_lt_mul hpos, h4] at hhi
  constructor
  · refine Real.le_sqrt_of_sq_le ?_
    have : (q : ℝ) * q * (2 ^ k * 2 ^ k) ≤ x := by exact_mod_cast hlo
    linarith
  · rw [Real.sqrt_lt' (by positivity)]
    have : (x : ℝ) < (q + 1) * (q + 1) * (2 ^ k * 2 ^ k) := by exact_mod_cast hhi
    linarith

/-- The root `q` of whole units of `2^k`, rounded half to even against the root of `x`, as `sqrtMag` does it. -/
def rootHalfEven (x k q : Nat) : Nat :=
  if (2 * q + 1) * 2 ^ k * ((2 * q + 1) * 2 ^ k) < 4 * x ∨
    ((2 * q + 1) * 2 ^ k * ((2 * q + 1) * 2 ^ k) = 4 * x ∧ q % 2 = 1) then q + 1 else q

theorem sqrtMag_eq {mag x k : Nat} (hx : x = mag * 2 ^ 1074) (hk : k = (Nat.log2 x + 2) / 2 - 53) :
    sqrtMag mag = k * 2 ^ 52 + rootHalfEven x k (isqrtFrom (x / 4 ^ k) 53 0) := by
  rw [hk, hx]; rfl

theorem rootHalfEven_nearest {x k : Nat} (hx : 2 ^ 104 ≤ x) (hk : k = (Nat.log2 x + 2) / 2 - 53) :
    NearestOnGrid (Real.sqrt x) k (rootHalfEven x k (isqrtFrom (x / 4 ^ k) 53 0)) := by
  obtain ⟨hlow, hhigh⟩ := sqrt_binade hx hk
  have hfuel : x / 4 ^ k < (0 + 2 ^ 53) * (0 + 2 ^ 53) := by
    rw [Nat.div_lt_iff_lt_mul (by positivity), show 4 = 2 ^ 2 from rfl, ← pow_mul]
    calc x < (2 ^ 53 * 2 ^ k) ^ 2 := hhigh
      _ = _ := by ring
  obtain ⟨hqlo, hqhi⟩ := isqrtFrom_spec _ 53 0 (Nat.zero_le _) hfuel
  generalize isqrtFrom (x / 4 ^ k) 53 0 = q at *
  obtain ⟨hlo, hhi⟩ := whole_sqrt hqlo hqhi
  obtain ⟨hlt, heq⟩ := compare_two_sqrt ((2 * q + 1) * 2 ^ k) x
  push_cast at hlt heq
  obtain ⟨hnear, heven⟩ := near_of_whole hlo hhi (or_congr hlt (and_congr_left' heq))
  exact ⟨Real.sqrt_nonneg _, .inr (Real.le_sqrt_of_sq_le (by exact_mod_cast hlow)),
    (Real.sqrt_lt' (by positivity)).2 (by exact_mod_cast hhigh), hnear, heven⟩

/-- Bounds on a finite magnitude scaled by `2^e`, as `sqrtMag` scales it. -/
theorem scaled_bounds {a : F64} {p : Bool} {m e : Nat} (ha : fview a = .fin p m) (hm : m ≠ 0) :
    2 ^ e ≤ m * 2 ^ e ∧ Nat.log2 (m * 2 ^ e) < 2098 + e := by
  have hpos : 0 < m * 2 ^ e := Nat.mul_pos (by omega) (by positivity)
  refine ⟨Nat.le_mul_of_pos_left _ (by omega), (Nat.log2_lt hpos.ne').2 ?_⟩
  rw [pow_add]
  exact Nat.mul_lt_mul_of_pos_right (fview_fin_lt ha) (by positivity)

/-- `sqrtMag` rounds correctly, and no root overflows (00_scope.md R17). -/
theorem sqrtMag_rounds {a : F64} {p : Bool} {m : Nat} (ha : fview a = .fin p m) (hm : m ≠ 0) :
    sqrtMag m ≤ infBits ∧ RoundsTo (Real.sqrt (m * 2 ^ 1074)) (fpack false (sqrtMag m)) := by
  obtain ⟨hlow, hlog⟩ := scaled_bounds (e := 1074) ha hm
  obtain ⟨x, hx⟩ : ∃ x, x = m * 2 ^ 1074 := ⟨_, rfl⟩
  obtain ⟨k, hk⟩ : ∃ k, k = (Nat.log2 x + 2) / 2 - 53 := ⟨_, rfl⟩
  have hcast : (m : ℝ) * 2 ^ 1074 = x := by rw [hx, Nat.cast_mul, Nat.cast_pow, Nat.cast_ofNat]
  rw [sqrtMag_eq hx hk, hcast]
  rw [← hx] at hlow hlog
  have h := rootHalfEven_nearest ((Nat.pow_le_pow_right (by omega) (by omega)).trans hlow) hk
  have hle : k * 2 ^ 52 + rootHalfEven x k (isqrtFrom (x / 4 ^ k) 53 0) ≤ infBits := by
    have := h.le_pow
    unfold infBits
    omega
  exact ⟨hle, min_eq_left hle ▸ h.roundsTo false⟩

section
variable {a : F64} {m : Nat}

theorem fsqrt_fin {p : Bool} (ha : fview a = .fin p m) :
    fsqrt a = if m = 0 then fzero p else if p then cnan else fpack false (sqrtMag m) := by
  simp only [fsqrt, ha]

theorem fsqrt_inf {p : Bool} (ha : fview a = .inf p) : fsqrt a = if p then cnan else finf false := by
  simp only [fsqrt, ha]

theorem fsqrt_nan (ha : fview a = .nan) : fsqrt a = cnan := by
  simp only [fsqrt, ha]

end

/-! ### NaN results -/

/-- A pattern that is the canonical NaN or no NaN (00_scope.md R16, R18). -/
def CanonicalNaN (r : F64) : Prop := fview r = .nan → r = cnan

@[simp] theorem canonicalNaN_cnan : CanonicalNaN cnan := fun _ => rfl

theorem canonicalNaN_fpack {neg : Bool} {bits : Nat} (h : bits ≤ infBits) : CanonicalNaN (fpack neg bits) :=
  fun hn => absurd hn (fview_fpack_ne_nan h)

@[simp] theorem canonicalNaN_finf (neg : Bool) : CanonicalNaN (finf neg) := canonicalNaN_fpack le_rfl

@[simp] theorem canonicalNaN_fzero (neg : Bool) : CanonicalNaN (fzero neg) := canonicalNaN_fpack (Nat.zero_le _)

@[simp] theorem canonicalNaN_fround64 (neg : Bool) (num den : Nat) : CanonicalNaN (fround64 neg num den) :=
  canonicalNaN_fpack (roundMag_le num den)

theorem canonicalNaN_ite {P : Prop} [Decidable P] {r r' : F64} (h : CanonicalNaN r) (h' : CanonicalNaN r') :
    CanonicalNaN (if P then r else r') := by
  split
  · exact h
  · exact h'

theorem canonicalNaN_fadd (a b : F64) : CanonicalNaN (fadd a b) := by
  unfold fadd
  split <;> simp only [canonicalNaN_cnan, canonicalNaN_finf, canonicalNaN_fzero, canonicalNaN_fround64, canonicalNaN_ite]

theorem canonicalNaN_fmul (a b : F64) : CanonicalNaN (fmul a b) := by
  unfold fmul
  split <;> simp only [canonicalNaN_cnan, canonicalNaN_finf, canonicalNaN_fround64, canonicalNaN_ite]

theorem canonicalNaN_fdiv (a b : F64) : CanonicalNaN (fdiv a b) := by
  unfold fdiv
  split <;> simp only [canonicalNaN_cnan, canonicalNaN_finf, canonicalNaN_fzero, canonicalNaN_fround64, canonicalNaN_ite]

theorem canonicalNaN_fround (a : F64) : CanonicalNaN (fround a) := by
  unfold fround
  split <;> simp only [canonicalNaN_cnan, canonicalNaN_finf, canonicalNaN_fround64]

theorem canonicalNaN_fsqrt (a : F64) : CanonicalNaN (fsqrt a) := by
  cases ha : fview a with
  | nan => rw [fsqrt_nan ha]; exact canonicalNaN_cnan
  | inf p => rw [fsqrt_inf ha]; exact canonicalNaN_ite canonicalNaN_cnan (canonicalNaN_finf _)
  | fin p m =>
    rw [fsqrt_fin ha]
    by_cases hm : m = 0
    · rw [if_pos hm]; exact canonicalNaN_fzero p
    · rw [if_neg hm]
      exact canonicalNaN_ite canonicalNaN_cnan (canonicalNaN_fpack (sqrtMag_rounds ha hm).1)

theorem canonicalNaN_canon (a : F64) : CanonicalNaN (canon a) := by
  unfold canon
  split
  · exact canonicalNaN_cnan
  · next h => exact fun hn => absurd hn h

/-! ### Rounding to an integral value -/

/-- A value that is in range and has at most 53 significant bits is not rounded. -/
theorem fview_fround64_exact (neg : Bool) {n i : Nat} (hn : n < 2 ^ 53) (hi : i ≤ 2045) :
    fview (fround64 neg (n * 2 ^ i) 1) = .fin neg (n * 2 ^ i) := by
  obtain ⟨k, hk⟩ : ∃ k, k = Nat.log2 (n * 2 ^ i) - 52 := ⟨_, rfl⟩
  have hki : k ≤ i := by
    rcases Nat.eq_zero_or_pos (n * 2 ^ i) with h0 | hpos
    · rw [hk, h0]; simp
    · have := (Nat.log2_lt hpos.ne').2 (significand_mul_pow_lt (k := i) hn le_rfl)
      omega
  have hsplit : n * 2 ^ (i - k) * 2 ^ k = n * 2 ^ i := by rw [mul_assoc, ← pow_add, Nat.sub_add_cancel hki]
  have hround : divRne (n * 2 ^ i) (1 * 2 ^ k) = n * 2 ^ (i - k) := by
    rw [one_mul, ← hsplit, divRne_exact _ (by positivity)]
  have hgrid := nearestOnGrid_divRne (n * 2 ^ i) one_pos
  rw [Nat.div_one, ← hk, hround] at hgrid
  have hlt : n * 2 ^ (i - k) < 2 ^ 53 := by
    refine Nat.lt_of_mul_lt_mul_right (a := 2 ^ k) ?_
    rw [hsplit, ← pow_add]
    exact Nat.lt_log2_self.trans_le (Nat.pow_le_pow_right (by omega) (by omega))
  have hb : k * 2 ^ 52 + n * 2 ^ (i - k) < infBits := by unfold infBits; omega
  have hmag : roundMag (n * 2 ^ i) 1 = k * 2 ^ 52 + n * 2 ^ (i - k) := by
    rw [roundMag, Nat.div_one, ← hk, hround, min_eq_left hb.le]
  rw [fround64, hmag, fview_fpack_grid hgrid.le_pow hgrid.pow_le hb, hsplit]

/-- Rounding a value of at most 53 significant bits to a multiple of `2^(e + 1)` leaves at most 53 significant bits. -/
theorem exists_significand_of_rounded {c : Nat} (hc : c < 2 ^ 53) (i e : Nat) :
    ∃ d j, d < 2 ^ 53 ∧ j ≤ max i (e + 1) ∧ (c * 2 ^ i + 2 ^ e) / 2 ^ (e + 1) * 2 ^ (e + 1) = d * 2 ^ j := by
  have hpos : 0 < 2 ^ e := by positivity
  rcases Nat.lt_or_ge e i with hei | hie
  · have hmul : c * 2 ^ i = 2 ^ (e + 1) * (c * 2 ^ (i - (e + 1))) := by
      rw [mul_left_comm, ← pow_add, Nat.add_sub_cancel' hei]
    refine ⟨c, i, hc, le_max_left _ _, ?_⟩
    rw [hmul, Nat.mul_add_div (by positivity), Nat.div_eq_of_lt (Nat.pow_lt_pow_right one_lt_two (by omega)), add_zero,
      mul_comm]
  · refine ⟨_, e + 1, ?_, le_max_right _ _, rfl⟩
    rw [Nat.div_lt_iff_lt_mul (by positivity), pow_succ 2 e]
    have : c * 2 ^ i ≤ c * 2 ^ e := Nat.mul_le_mul_left c (Nat.pow_le_pow_right (by omega) hie)
    have : c * 2 ^ e ≤ (2 ^ 53 - 1) * 2 ^ e := Nat.mul_le_mul_right _ (by omega)
    omega

theorem fround_fin {a : F64} {p : Bool} {m : Nat} (ha : fview a = .fin p m) :
    fround a = fround64 p ((m + 2 ^ 1073) / 2 ^ 1074 * 2 ^ 1074) 1 := by
  simp only [fround, ha]

/-- `fround` is exact (00_scope.md R20). -/
theorem fview_fround_fin {a : F64} {p : Bool} {m : Nat} (ha : fview a = .fin p m) :
    fview (fround a) = .fin p ((m + 2 ^ 1073) / 2 ^ 1074 * 2 ^ 1074) := by
  obtain ⟨i, c, hc, -, hi, rfl, -⟩ := fview_fin_grid ha
  obtain ⟨d, j, hd, hj, he⟩ := exists_significand_of_rounded hc i 1073
  rw [fround_fin ha, he, fview_fround64_exact p hd (hj.trans (max_le hi (by omega)))]

/-- A zero has one pattern for each sign. -/
theorem eq_fzero_of_fview {a : F64} {p : Bool} (h : fview a = .fin p 0) : a = fzero p := by
  obtain ⟨k, n, -, hk, -, hm, rfl⟩ := fview_fin_grid h
  obtain rfl : n = 0 := (Nat.mul_eq_zero.1 hm.symm).resolve_right (by positivity)
  obtain rfl : k = 0 := by omega
  rfl

theorem exists_floor (x : Nat) {D : Nat} (hD : 0 < D) : ∃ n, x / D = n ∧ n * D ≤ x ∧ x < (n + 1) * D :=
  ⟨x / D, rfl, Nat.div_mul_le_self x D, by rw [mul_comm]; exact Nat.lt_mul_div_succ x hD⟩

/-- `fround` of a finite value, halves away from zero (00_scope.md R20). -/
theorem exists_fround {a : F64} {p : Bool} {m : Nat} (ha : fview a = .fin p m) :
    ∃ n, fview (fround a) = .fin p (n * 2 ^ 1074) ∧ n * 2 ^ 1074 ≤ m + 2 ^ 1073 ∧
      m + 2 ^ 1073 < (n + 1) * 2 ^ 1074 := by
  obtain ⟨n, hn, hlo, hhi⟩ := exists_floor (m + 2 ^ 1073) (D := 2 ^ 1074) (by positivity)
  exact ⟨n, hn ▸ fview_fround_fin ha, hlo, hhi⟩

theorem floor_half_eq_zero (e d : Nat) (h : e < d) : (0 + 2 ^ e) / 2 ^ d * 2 ^ d = 0 := by
  rw [Nat.zero_add, Nat.div_eq_of_lt (Nat.pow_lt_pow_right one_lt_two h), Nat.zero_mul]

theorem fround_fzero (p : Bool) : fround (fzero p) = fzero p := by
  have hv := fview_fround_fin (fview_fzero p)
  rw [floor_half_eq_zero 1073 1074 (by omega)] at hv
  exact eq_fzero_of_fview hv

theorem fround_inf {a : F64} {p : Bool} (ha : fview a = .inf p) : fround a = finf p := by
  simp only [fround, ha]

theorem fround_nan {a : F64} (ha : fview a = .nan) : fround a = cnan := by
  simp only [fround, ha]

/-! ### Operands that are not finite -/

section
variable {a b : F64}

theorem ops_nan (h : fview a = .nan ∨ fview b = .nan) :
    fadd a b = cnan ∧ fmul a b = cnan ∧ fdiv a b = cnan := by
  rcases h with ha | hb
  · simp only [fadd, fmul, fdiv, ha, and_self]
  · cases ha : fview a <;> simp only [fadd, fmul, fdiv, ha, hb, and_self]

theorem fview_ops_inf_inf {p q : Bool} (ha : fview a = .inf p) (hb : fview b = .inf q) :
    fview (fadd a b) = (if p = q then .inf p else .nan) ∧ fview (fmul a b) = .inf (p ^^ q) ∧
      fview (fdiv a b) = .nan := by
  simp only [fadd, fmul, fdiv, ha, hb, apply_ite fview, fview_finf, fview_cnan, and_self]

theorem fview_ops_inf_fin {p q : Bool} {n : Nat} (ha : fview a = .inf p) (hb : fview b = .fin q n) :
    fview (fadd a b) = .inf p ∧ fview (fmul a b) = (if n = 0 then .nan else .inf (p ^^ q)) ∧
      fview (fdiv a b) = .inf (p ^^ q) ∧ fview (fdiv b a) = .fin (p ^^ q) 0 := by
  simp only [fadd, fmul, fdiv, ha, hb, apply_ite fview, fview_finf, fview_fzero, fview_cnan, Bool.xor_comm q p, and_self]

theorem fview_fdiv_zero {p q : Bool} {m : Nat} (ha : fview a = .fin p m) (hb : fview b = .fin q 0) :
    fview (fdiv a b) = if m = 0 then .nan else .inf (p ^^ q) := by
  simp only [fdiv, ha, hb, if_true, apply_ite fview, fview_finf, fview_cnan]

end

/-! ### The obligations -/

/-- Settles O18: the sum is rounded by `fround64`, and `fsub` adds the negated operand. -/
theorem sumRoundsToNearest : Obligations.SumRoundsToNearest := by
  intro a b p q m n ha hb
  obtain ⟨hadd, haddSign⟩ := fadd_rounds ha hb
  obtain ⟨hsub, hsubSign⟩ := fadd_rounds ha (fview_fneg_fin hb)
  rw [← unitsOf_sub] at hsub hsubSign
  exact ⟨hadd, hsub, haddSign, hsubSign⟩

/-- Settles O19: the product is one `fround64` of the exact product. -/
theorem productRoundsToNearest : Obligations.ProductRoundsToNearest := fun _ _ _ _ _ _ ha hb =>
  ⟨fmul_rounds ha hb, by rw [fmul_fin ha hb, fsign_fround64]⟩

/-- Settles O20: the quotient is one `fround64` of the exact quotient. -/
theorem quotientRoundsToNearest : Obligations.QuotientRoundsToNearest := fun _ _ _ _ _ _ ha hb hn =>
  ⟨fdiv_rounds ha hb hn, by rw [fdiv_fin ha hb hn, fsign_fround64]⟩

/-- Settles O21: the special values are those of `fsqrt` on each view, and `sqrtMag` rounds correctly. -/
theorem squareRootRoundsToNearest : Obligations.SquareRootRoundsToNearest := by
  refine ⟨fun a m ha hm => ?_, ?_, ?_, ?_, ?_, fun a m ha hm => ?_, fun a ha => fsqrt_nan ha⟩
  · rw [fsqrt_fin ha, if_neg hm]
    exact (sqrtMag_rounds ha hm).2
  · exact fsqrt_fin (fview_fzero false)
  · exact fsqrt_fin (fview_fzero true)
  · exact fsqrt_inf (fview_finf false)
  · exact fsqrt_inf (fview_finf true)
  · rw [fsqrt_fin ha, if_neg hm, if_pos rfl]; rfl

/-- Settles O22: the layout of a pattern, then each kind of operand by its own lemma. -/
theorem nonFiniteOperands : Obligations.NonFiniteOperands := by
  refine ⟨fun a => ?_, fun a b h => ?_, fun a b p q ha hb => ?_, fun a b p q n ha hb => ?_,
    fun a b p q m ha hb => fview_fdiv_zero ha hb⟩
  · simp only [← fexponent_eq_extract, ← ffraction_eq_extract]
    rfl
  · obtain ⟨hadd, hmul, hdiv⟩ := ops_nan h
    exact ⟨hadd, (ops_nan (h.imp_right fview_fneg_nan)).1, hmul, hdiv⟩
  · obtain ⟨hadd, hmul, hdiv⟩ := fview_ops_inf_inf ha hb
    obtain ⟨hsub, -⟩ := fview_ops_inf_inf ha (fview_fneg_inf hb)
    refine ⟨hadd, hsub.trans ?_, hmul, hdiv⟩
    cases p <;> cases q <;> rfl
  · obtain ⟨hadd, hmul, hdiv, hdiv'⟩ := fview_ops_inf_fin ha hb
    obtain ⟨hsub, -⟩ := fview_ops_inf_fin ha (fview_fneg_fin hb)
    obtain ⟨hsub', -⟩ := fview_ops_inf_fin (fview_fneg_inf ha) hb
    exact ⟨hadd, fadd_comm b a ▸ hadd, hsub, (fadd_comm b (fneg a) ▸ hsub' :), hmul, fmul_comm b a ▸ hmul, hdiv, hdiv'⟩

/-- Settles O23: every branch of a primitive is `cnan` or packs a magnitude that is no NaN. -/
theorem naNResultsAreCanonical : Obligations.NaNResultsAreCanonical :=
  ⟨fun a b => ⟨canonicalNaN_fadd a b, canonicalNaN_fadd a (fneg b), canonicalNaN_fmul a b, canonicalNaN_fdiv a b⟩,
    fun a => ⟨canonicalNaN_fsqrt a, canonicalNaN_fround a, canonicalNaN_canon a, fun h => if_neg h⟩⟩

/-- Settles O24: the rounded value has at most 53 significant bits, so `fround` is exact. -/
theorem roundsHalvesAway : Obligations.RoundsHalvesAway := by
  refine ⟨fun a p m ha => exists_fround ha, fun a ha => ?_, fun a p ha => ?_, fun a ha => fround_nan ha⟩
  · rw [eq_fzero_of_fview ha, fround_fzero]
  · rw [fround_inf ha, eq_finf_of_fview ha]

/-- Settles O43: a command that ends with a code has gone through `raise`, not through its effect. -/
theorem errorsHaveNoPartialEffects : Obligations.ErrorsHaveNoPartialEffects := by
  intro i s t h herr
  rcases exec_next h with ⟨u, -, rfl⟩ | ⟨c, rfl⟩
  · exact absurd rfl herr
  · rfl

end Sys2Proof.Machine
end

section
/-!
PROOFS of the statements on 10_state.md. An aligned offset names one register (`hostReg_…`); a host write of an idle
register is `regStore` and a host read answers `regValue`, so each clause of the register map is read off at the
register its offset names.
-/

namespace Sys2Proof.Machine

open Sys2Proof.Claims

/-! ### The engine's turn -/

theorem step_of_engineReady {s : State} (h : EngineReady s) : step s = engineTurn (turned s) := by
  obtain ⟨-, -, hs | ⟨rest, hs⟩⟩ := h
  · have hturned : turned s = s := by rw [turned, hs, List.tail_nil, ← hs]
    rw [step_script_nil hs, hturned]
  · rw [step_script_engine hs, turned, hs, List.tail_cons]

theorem engineTurn_idle {s : State} (hb : s.status.busy = false) : engineTurn s = .next s := by
  simp [engineTurn, hb]

theorem engineTurn_command {s : State} {i : Instr} (hr : s.resetAsserted = false) (hb : s.status.busy = true)
    (hraced : s.raced = []) (hd : decode s.lastCmd = .ok i) : engineTurn s = exec i s := by
  simp [engineTurn, hr, hb, hraced, hd]

theorem decode_of_decodeTableWord {nbits w : Nat} {i : Instr} (h : decodeTableWord nbits w = some i) :
    decode (tableWord nbits w) = .ok i := by
  rw [decodeTableWord] at h
  cases hd : decode (tableWord nbits w) with
  | error e => rw [hd] at h; cases h
  | ok j => rw [hd] at h; cases h; rfl

/-! ### Which register an offset names (R45) -/

theorem hostReg_word32 {offset : BitVec 12} (h8 : offset.toNat % 8 = 0)
    (h : 0x020 ≤ offset.toNat ∧ offset.toNat ≤ 0x040) :
    hostReg offset ∈ [HostReg.size, .inBase, .outBase, .tblBase, .tblLen] := by
  obtain hk | hk | hk | hk | hk : offset.toNat / 8 = 4 ∨ offset.toNat / 8 = 5 ∨ offset.toNat / 8 = 6 ∨
      offset.toNat / 8 = 7 ∨ offset.toNat / 8 = 8 := by omega
  all_goals simp [hostReg, hk]

theorem hostReg_pool {offset : BitVec 12} (h8 : offset.toNat % 8 = 0)
    (h : 0x050 ≤ offset.toNat ∧ offset.toNat ≤ 0x060) :
    hostReg offset ∈ [HostReg.poolBase, .poolLimit, .allocPtr] := by
  obtain hk | hk | hk : offset.toNat / 8 = 10 ∨ offset.toNat / 8 = 11 ∨ offset.toNat / 8 = 12 := by omega
  all_goals simp [hostReg, hk]

theorem exists_hostReg_x {offset : BitVec 12} (h8 : offset.toNat % 8 = 0)
    (h : 0x080 ≤ offset.toNat ∧ offset.toNat < 0x0C0) : ∃ n, hostReg offset = .x n :=
  ⟨⟨(offset.toNat - 0x080) / 8, by omega⟩, hostReg_x _ _ (by simp only; omega)⟩

theorem exists_hostReg_c {offset : BitVec 12} (h8 : offset.toNat % 8 = 0)
    (h : 0x100 ≤ offset.toNat ∧ offset.toNat < 0x180) : ∃ n, hostReg offset = .cRe n ∨ hostReg offset = .cIm n := by
  refine ⟨⟨(offset.toNat - 0x100) / 16, by omega⟩, ?_⟩
  obtain hm | hm : offset.toNat % 16 = 0 ∨ offset.toNat % 16 = 8 := by omega
  · exact .inl (hostReg_cRe _ _ (by simp only; omega))
  · exact .inr (hostReg_cIm _ _ (by simp only; omega))

theorem eq_of_hostReg_cmd {offset : BitVec 12} (h8 : offset.toNat % 8 = 0) (h : hostReg offset = .cmd) :
    offset = 0x018 := by
  have hk : offset.toNat / 8 = 3 := by
    unfold hostReg at h
    grind
  bv_omega

/-! ### Host reads -/

@[simp] theorem regValue_setScript (s : State) (rest : List Turn) (r : HostReg) :
    regValue { s with script := rest } r = regValue s r := by
  cases r <;> rfl

/-- Any register read returns some value and takes some draws, and does nothing else. -/
theorem exists_hostRegRead_eq_returned (s : State) (offset : BitVec 12) (width : Nat) :
    ∃ v k, hostRegRead s offset width = s.returned v k := by
  rw [hostRegRead]
  split
  · exact ⟨_, _, rfl⟩
  · exact ⟨_, _, rfl⟩

theorem step_regRead {s : State} {offset : BitVec 12} {width : Nat} {rest : List Turn}
    (hnext : HostNext s (.regRead offset width) rest) :
    ∃ (v : Word64) (k : Nat), step s = .next { s with script := rest, readData := v, draws := s.draws + k } := by
  obtain ⟨v, k, h⟩ := exists_hostRegRead_eq_returned { s with script := rest } offset width
  exact ⟨v, k, (step_script_host hnext).trans (congrArg _ h)⟩

/-- A supported read of a register that is idle, or readable while BUSY, returns its value. -/
theorem hostRegRead_supported {s : State} {offset : BitVec 12} (hr : s.resetAsserted = false)
    (h8 : offset.toNat % 8 = 0) (hread : s.status.busy = false ∨ readableBusy (hostReg offset) = true) :
    hostRegRead s offset 8 = s.returned (regValue s (hostReg offset)) 0 := by
  have hcond : (s.resetAsserted || !regAccessOk offset 8 || (s.status.busy && !readableBusy (hostReg offset))) = false := by
    rcases hread with h | h <;> simp [hr, regAccessOk, h8, h]
  rw [hostRegRead, hcond]
  rfl

theorem step_regRead_supported {s : State} {offset : BitVec 12} {rest : List Turn}
    (hnext : HostNext s (.regRead offset 8) rest) (hr : s.resetAsserted = false) (h8 : offset.toNat % 8 = 0)
    (hread : s.status.busy = false ∨ readableBusy (hostReg offset) = true) :
    step s = .next { s with script := rest, readData := regValue s (hostReg offset) } := by
  rw [step_script_host hnext, hostAct, hostRegRead_supported (s := { s with script := rest }) hr h8 hread,
    regValue_setScript]
  rfl

theorem toNat_ofNat_poolAddr (r : BitVec 28) : (BitVec.ofNat 64 (poolAddr r)).toNat = 16 * r.toNat := by
  have := r.isLt
  rw [BitVec.toNat_ofNat, poolAddr, Nat.mod_eq_of_lt (by omega)]

theorem toNat_zeroExtend64 (w : Word32) : (w.zeroExtend 64).toNat = w.toNat :=
  BitVec.toNat_setWidth_of_le (by decide)

theorem alwaysReads_regValue (s : State) (offset : BitVec 12) :
    AlwaysReads s offset (regValue s (hostReg offset)).toNat := by
  refine ⟨?_, ?_, ?_⟩ <;> rintro rfl
  · rfl
  · cases hie : s.ie <;> simp [hostReg, regValue, hie]
  · exact toNat_zeroExtend64 s.lastCmd

theorem idleReads_regValue (s : State) {offset : BitVec 12} (h8 : offset.toNat % 8 = 0) :
    IdleReads s offset (regValue s (hostReg offset)).toNat := by
  refine ⟨?size, ?inBase, ?outBase, ?tblBase, ?tblLen, ?resBase, ?poolBase, ?poolLimit, ?allocPtr,
    fun h => ?reserved, fun n h => ?x, fun n h => ?cRe, fun n h => ?cIm⟩
  case reserved => rw [hostReg_reserved offset h8 h]; rfl
  case x => rw [hostReg_x offset n h]; rfl
  case cRe => rw [hostReg_cRe offset n h]; rfl
  case cIm => rw [hostReg_cIm offset n h]; rfl
  case poolBase | poolLimit | allocPtr => rintro rfl; exact toNat_ofNat_poolAddr _
  all_goals rintro rfl; exact toNat_zeroExtend64 _

/-! ### Host writes -/

theorem hostRegWrite_supported {s : State} {offset : BitVec 12} (v : Word64) (hr : s.resetAsserted = false)
    (h8 : offset.toNat % 8 = 0) : hostRegWrite s offset 8 v = regStore s (hostReg offset) v := by
  simp [hostRegWrite, hr, regAccessOk, h8]

theorem step_regWrite_supported {s : State} {offset : BitVec 12} {v : Word64} {rest : List Turn}
    (hnext : HostNext s (.regWrite offset 8 v) rest) (hr : s.resetAsserted = false) (h8 : offset.toNat % 8 = 0) :
    step s = .next (regStore { s with script := rest } (hostReg offset) v) := by
  rw [step_script_host hnext, hostAct, hostRegWrite_supported (s := { s with script := rest }) v hr h8]

theorem hostRegWrite_ignored {s : State} {offset : BitVec 12} {width : Nat} (v : Word64)
    (h : s.resetAsserted = true ∨ width ≠ 8 ∨ offset.toNat % 8 ≠ 0) : hostRegWrite s offset width v = s := by
  rw [hostRegWrite, if_pos]
  rcases h with h | h | h <;> simp [regAccessOk, h]

theorem hostMemWrite_ignored {s : State} {addr width : Nat} (v : Word64)
    (h : s.resetAsserted = true ∨ (width ≠ 1 ∧ width ≠ 2 ∧ width ≠ 4 ∧ width ≠ 8) ∨ addr % width ≠ 0 ∨
      s.bmemBytes < addr + width) : hostMemWrite s addr width v = s := by
  rw [hostMemWrite, if_pos]
  rcases h with h | h | h | h <;> simp [portAccessOk, h]

theorem unlessBusy_idle {s : State} (hb : s.status.busy = false) (t : State) : unlessBusy s t = t := by
  simp [unlessBusy, hb]

theorem busy_regStore {s : State} {r : HostReg} (v : Word64) (hb : s.status.busy = false) (hr : r ≠ .cmd) :
    (regStore s r v).status.busy = false := by
  cases r <;> simp_all [regStore, unlessBusy_idle, Status.hostWrite]

theorem truncate_eq_extractLsb' (v : Word64) : v.truncate 32 = v.extractLsb' 0 32 :=
  BitVec.setWidth_eq_extractLsb' (by decide)

theorem registerWritten_regStore {s : State} {offset : BitVec 12} (v : Word64) (hb : s.status.busy = false)
    (h8 : offset.toNat % 8 = 0) : RegisterWritten s (regStore s (hostReg offset) v) offset v := by
  refine ⟨?ignored, ?ctrl, ?size, ?inBase, ?outBase, ?tblBase, ?tblLen, ?poolBase, ?poolLimit, ?allocPtr,
    fun n h => ?x, fun n h => ?cRe, fun n h => ?cIm⟩
  case ignored =>
    rintro (rfl | rfl | h)
    · rfl
    · rfl
    · rw [hostReg_reserved offset h8 h]; rfl
  case ctrl => rintro rfl; rfl
  case x => rw [hostReg_x offset n h]; exact unlessBusy_idle hb _
  case cRe => rw [hostReg_cRe offset n h]; exact unlessBusy_idle hb _
  case cIm => rw [hostReg_cIm offset n h]; exact unlessBusy_idle hb _
  case poolBase | poolLimit | allocPtr => rintro rfl; exact unlessBusy_idle hb _
  all_goals rintro rfl; rw [← truncate_eq_extractLsb']; exact unlessBusy_idle hb _

/-! ### What a written register reads as -/

section ReadBack

variable {s : State} (v : Word64) (hb : s.status.busy = false)
include hb

theorem regValue_regStore_word32 {r : HostReg} (hr : r ∈ [HostReg.size, .inBase, .outBase, .tblBase, .tblLen]) :
    (regValue (regStore s r v) r).toNat = v.toNat % 2 ^ 32 := by
  have hv : ((v.truncate 32).zeroExtend 64).toNat = v.toNat % 2 ^ 32 := by
    rw [toNat_zeroExtend64]
    exact BitVec.toNat_setWidth 32 v
  simp only [List.mem_cons, List.not_mem_nil, or_false] at hr
  obtain rfl | rfl | rfl | rfl | rfl := hr <;> simpa only [regStore, unlessBusy_idle hb, regValue] using hv

theorem regValue_regStore_pool {r : HostReg} (hr : r ∈ [HostReg.poolBase, .poolLimit, .allocPtr]) :
    (regValue (regStore s r v) r).toNat = v.toNat % 2 ^ 32 / 16 * 16 := by
  have hv : 16 * (v.extractLsb' 4 28).toNat = v.toNat % 2 ^ 32 / 16 * 16 := by
    rw [BitVec.extractLsb'_toNat, Nat.shiftRight_eq_div_pow]
    omega
  simp only [List.mem_cons, List.not_mem_nil, or_false] at hr
  obtain rfl | rfl | rfl := hr <;>
    simpa only [regStore, unlessBusy_idle hb, regValue, toNat_ofNat_poolAddr] using hv

theorem regValue_regStore_x (n : RegIdx) : regValue (regStore s (.x n) v) (.x n) = v := by
  simp [regStore, unlessBusy_idle hb, regValue]

theorem regValue_regStore_c {r : HostReg} {n : RegIdx} (hr : r = .cRe n ∨ r = .cIm n) :
    regValue (regStore s r v) r = v := by
  obtain rfl | rfl := hr <;> simp [regStore, unlessBusy_idle hb, regValue]

end ReadBack

theorem regValue_regStore_ctrl (s : State) (v : Word64) :
    (regValue (regStore s .ctrl v) .ctrl).toNat = v.toNat % 2 := by
  have hbit : (v.getLsbD 0).toNat = v.toNat % 2 := by
    rw [BitVec.getLsbD, Nat.testBit_zero]
    rcases Nat.mod_two_eq_zero_or_one v.toNat with h | h <;> rw [h] <;> rfl
  rw [regStore, regValue, BitVec.toNat_ofNat, hbit]
  omega

theorem toNat_regValue_regStore {s : State} {offset : BitVec 12} (v : Word64) (hb : s.status.busy = false)
    (h8 : offset.toNat % 8 = 0) (hstatus : offset ≠ 0x008) (hcmd : offset ≠ 0x018) :
    (regValue (regStore s (hostReg offset) v) (hostReg offset)).toNat =
      if offset = 0x000 then 0x0000000757415645
      else if offset = 0x010 then v.toNat % 2
      else if 0x020 ≤ offset.toNat ∧ offset.toNat ≤ 0x040 then v.toNat % 2 ^ 32
      else if offset = 0x048 then s.resBase.toNat
      else if 0x050 ≤ offset.toNat ∧ offset.toNat ≤ 0x060 then v.toNat % 2 ^ 32 / 16 * 16
      else if 0x080 ≤ offset.toNat ∧ offset.toNat < 0x0C0 then v.toNat
      else if 0x100 ≤ offset.toNat ∧ offset.toNat < 0x180 then v.toNat
      else 0 := by
  split_ifs with hid hctrl hword hres hpool hx hc
  · subst hid; rfl
  · subst hctrl; exact regValue_regStore_ctrl s v
  · exact regValue_regStore_word32 v hb (hostReg_word32 h8 hword)
  · subst hres; exact toNat_zeroExtend64 s.resBase
  · exact regValue_regStore_pool v hb (hostReg_pool h8 hpool)
  · obtain ⟨n, hn⟩ := exists_hostReg_x h8 hx
    rw [hn, regValue_regStore_x v hb]
  · obtain ⟨n, hn⟩ := exists_hostReg_c h8 hc
    rw [regValue_regStore_c v hb hn]
  · have hreserved : ReservedOffset offset := by
      unfold ReservedOffset
      bv_omega
    rw [hostReg_reserved offset h8 hreserved]
    rfl

/-! ### The word of STATUS (R47) -/

theorem code_le_six (e : ErrCode) : e.code ≤ 6 := by
  cases e <;> decide

theorem toNat_statusWord (st : Status) : st.word.toNat =
    st.busy.toNat + 2 * st.done.toNat + 16 * st.err.code + 512 * st.alloc.toNat + 1024 * st.hz.toNat := by
  have hcode := code_le_six st.err
  have hbusy := st.busy.toNat_le
  have hdone := st.done.toNat_le
  have halloc := st.alloc.toNat_le
  have hhz := st.hz.toNat_le
  rw [Status.word, BitVec.toNat_ofNat, Nat.mod_eq_of_lt (by omega)]

theorem getLsbD_eq_of_toNat {v : Word64} {i : Nat} {b : Bool} (h : v.toNat / 2 ^ i % 2 = b.toNat) :
    v.getLsbD i = b := by
  rw [BitVec.getLsbD, Nat.testBit_eq_decide_div_mod_eq, h]
  cases b <;> rfl

theorem statusWord_fields (st : Status) :
    st.word.getLsbD 0 = st.busy ∧ st.word.getLsbD 1 = st.done ∧ st.word.extractLsb' 2 2 = 0 ∧
    (st.word.extractLsb' 4 4).toNat = st.err.code ∧ st.word.getLsbD 8 = false ∧ st.word.getLsbD 9 = st.alloc ∧
    st.word.getLsbD 10 = st.hz ∧ st.word.extractLsb' 11 53 = 0 := by
  have hword := toNat_statusWord st
  have hcode := code_le_six st.err
  have hbusy := st.busy.toNat_le
  have hdone := st.done.toNat_le
  have halloc := st.alloc.toNat_le
  have hhz := st.hz.toNat_le
  have hextract (i k : Nat) : (st.word.extractLsb' i k).toNat = st.word.toNat / 2 ^ i % 2 ^ k := by
    rw [BitVec.extractLsb'_toNat, Nat.shiftRight_eq_div_pow]
  refine ⟨getLsbD_eq_of_toNat ?_, getLsbD_eq_of_toNat ?_, BitVec.eq_of_toNat_eq ?_, ?_, getLsbD_eq_of_toNat ?_,
    getLsbD_eq_of_toNat ?_, getLsbD_eq_of_toNat ?_, BitVec.eq_of_toNat_eq ?_⟩
  all_goals simp only [hextract, hword, Bool.toNat_false, BitVec.ofNat_eq_ofNat, BitVec.toNat_ofNat]; omega

/-! ### The obligations -/

/-- Settles O47: a STATUS write is `Status.hostWrite`, with no regard to BUSY. -/
theorem statusWriteOneClears : Obligations.StatusWriteOneClears :=
  fun _ _ _ hnext hr => ⟨_, step_regWrite_supported hnext hr (by decide), rfl, rfl⟩

/-- Settles O50: the write is `regStore`, the read `regValue`, both at the register the offset names. -/
theorem registerMapReadsBack : Obligations.RegisterMapReadsBack := by
  intro s offset v rest hscript ⟨hr, hb⟩ h8 hstatus hcmd
  have hreg : hostReg offset ≠ .cmd := fun h => hcmd (eq_of_hostReg_cmd h8 h)
  obtain ⟨-, -, -, hreset, -, hnext, -⟩ :=
    regStore_frame { s with script := .host (.regRead offset 8) :: rest } (hostReg offset) v
  exact ⟨_, _, step_regWrite_supported hscript hr h8, registerWritten_regStore v hb h8,
    step_regRead_supported hnext (hreset.trans hr) h8 (.inl (busy_regStore v hb hreg)), rfl,
    toNat_regValue_regStore v hb h8 hstatus hcmd⟩

/-- Settles O51: every read is `State.returned` of some value, and of `regValue` where the register can be read. -/
theorem registerReadsHaveNoSideEffect : Obligations.RegisterReadsHaveNoSideEffect := by
  refine ⟨fun _ _ _ _ => step_regRead, fun s offset rest hnext hr h8 => ?_⟩
  by_cases hread : s.status.busy = false ∨ readableBusy (hostReg offset) = true
  · exact ⟨_, 0, step_regRead_supported hnext hr h8 hread, alwaysReads_regValue s offset,
      fun _ => idleReads_regValue s h8⟩
  · obtain ⟨hbusy, hunreadable⟩ := not_or.mp hread
    obtain ⟨v, k, h⟩ := step_regRead hnext
    refine ⟨v, k, h, ⟨?_, ?_, ?_⟩, fun hidle => absurd hidle hbusy⟩ <;>
      exact fun hoffset => absurd (by rw [hoffset]; rfl) hunreadable

/-- Settles O52: the access checks fail, so neither write function changes its state. -/
theorem unsupportedWritesIgnored : Obligations.UnsupportedWritesIgnored :=
  ⟨fun s _ _ v rest hnext h => (step_script_host hnext).trans
      (congrArg _ (hostRegWrite_ignored (s := { s with script := rest }) v h)),
    fun s _ _ v rest hnext h => (step_script_host hnext).trans
      (congrArg _ (hostMemWrite_ignored (s := { s with script := rest }) v h))⟩

/-- Settles O5: the engine's turn is `exec` of the decoded command; `withFetchWord` sets up such a turn. -/
theorem stepRunsDecodedCommand : Obligations.StepRunsDecodedCommand := by
  refine ⟨fun s i hready hraced hd => ?_, fun s w i h => ?_, fun s hscript hb => ?_⟩
  · rw [step_of_engineReady hready]
    obtain ⟨hr, hb, -⟩ := hready
    exact engineTurn_command hr hb hraced hd
  · rw [step_script_nil rfl]
    exact engineTurn_command rfl rfl rfl (decode_of_decodeTableWord h)
  · rw [step_script_nil hscript, engineTurn_idle hb]

/-- Settles O46: STATUS is readable while BUSY, and its word holds each field in its place. -/
theorem statusReadsItsFields : Obligations.StatusReadsItsFields := fun s _ hnext hr =>
  ⟨s.status.word, step_regRead_supported hnext hr (by decide) (.inr rfl), statusWord_fields s.status⟩

end Sys2Proof.Machine
end

section
/-!
PROOFS of the statements on 20_memory.md. Every reader of BMEM either meets written bytes only or faults on one that
is not (`ReadsRange`); every writer keeps memory canonical and inside BMEM (`Memory.FitsIn`), from which the invariant
of the machine follows move by move.
-/

namespace Sys2Proof.Machine

open Sys2Proof.Claims

/-! ### Memory canonical and inside BMEM (R80) -/

/-- Memory in canonical form, every address below `bytes`. -/
def Memory.FitsIn (m : Memory) (bytes : Nat) : Prop := m.wf ∧ ∀ p ∈ m, p.1 < bytes

section Writers

variable {m : Memory} {bytes a : Nat} (h : m.FitsIn bytes)
include h

theorem fitsIn_memWrite {n : Nat} (v : Nat) (hin : a + n ≤ bytes) : (memWrite m a n v).FitsIn bytes :=
  ⟨memWrite_wf h.1 _ _ _, fun p hp => (mem_memWrite hp).elim (fun hr => by omega) (h.2 p)⟩

theorem fitsIn_writeC (z : Cplx) (hin : a + 16 ≤ bytes) : (writeC m a z).FitsIn bytes :=
  ⟨writeC_wf h.1 _ _, fun p hp => (mem_writeC hp).elim (fun hr => by omega) (h.2 p)⟩

theorem fitsIn_writeElements (zs : List Cplx) (hin : a + 16 * zs.length ≤ bytes) :
    (writeElements m a zs).FitsIn bytes :=
  ⟨writeElements_wf h.1 _ _, fun p hp => (mem_writeElements hp).elim (fun hr => by omega) (h.2 p)⟩

theorem fitsIn_writeEntries (es : List Nat) (hin : a + 4 * es.length ≤ bytes) : (writeEntries m a es).FitsIn bytes :=
  ⟨writeEntries_wf h.1 _ _, fun p hp => (mem_writeEntries hp).elim (fun hr => by omega) (h.2 p)⟩

end Writers

theorem fitsIn_havocBytes {s : State} {as : List Nat} {bytes : Nat} (h : s.mem.FitsIn bytes)
    (has : ∀ a ∈ as, a < bytes) : (havocBytes s as).mem.FitsIn bytes :=
  ⟨havocBytes_wf h.1 _, fun p hp => (mem_havocBytes hp).elim (has p.1) (h.2 p)⟩

/-- Drawing a write set stays inside BMEM: ranges are clipped to it, and the taint lies in it. -/
theorem fitsIn_havocWrites {s : State} (fp : Footprint) (h : s.mem.FitsIn s.bmemBytes)
    (hraced : ∀ a ∈ s.raced, a < s.bmemBytes) : (havocWrites fp s).mem.FitsIn s.bmemBytes := by
  rw [havocWrites_frame]
  refine fitsIn_havocBytes h fun a ha => ?_
  rcases List.mem_append.1 ha with ha | ha
  · obtain ⟨l, hl, hal⟩ := List.mem_flatten.1 ha
    obtain ⟨r, -, rfl⟩ := List.mem_map.1 hl
    exact (rangeBytes_inside hal).2.2
  · exact hraced a ha

theorem havocWrites_bmemBytes (fp : Footprint) (s : State) : (havocWrites fp s).bmemBytes = s.bmemBytes := by
  rw [havocWrites_frame]
  rfl

/-! ### The invariant along the engine's moves -/

namespace Invariant

theorem fitsIn {s : State} (h : Invariant s) : s.mem.FitsIn s.bmemBytes := ⟨h.memCanonical, h.memInside⟩

/-- While nothing is pending, or the pending word is illegal, there is no taint. -/
theorem raced_eq_nil {s : State} (h : Invariant s)
    (hno : ¬ (s.status.busy = true ∧ ∃ i, decode s.lastCmd = .ok i)) : s.raced = [] :=
  Decidable.byContradiction fun hr => hno (h.tainted hr)

theorem of_untainted {t : State} (hmem : t.mem.FitsIn t.bmemBytes)
    (hstatus : ¬ (t.status.busy = true ∧ t.status.done = true)) (hraced : t.raced = []) : Invariant t where
  memCanonical := hmem.1
  memInside := hmem.2
  notBusyAndDone := hstatus
  tainted h := absurd hraced h
  racedInside a ha := by simp [hraced] at ha

theorem setScript {s : State} (h : Invariant s) (rest : List Turn) : Invariant { s with script := rest } :=
  ⟨h.memCanonical, h.memInside, h.notBusyAndDone, h.tainted, h.racedInside⟩

theorem returned {s : State} (h : Invariant s) (v : Word64) (k : Nat) : Invariant (s.returned v k) :=
  ⟨h.memCanonical, h.memInside, h.notBusyAndDone, h.tainted, h.racedInside⟩

theorem deassertReset {s : State} (h : Invariant s) : Invariant (deassertReset s) :=
  ⟨h.memCanonical, h.memInside, h.notBusyAndDone, h.tainted, h.racedInside⟩

theorem assertReset {s : State} (h : Invariant s) : Invariant (assertReset s) := by
  refine of_untainted ?_ (by simp [Machine.assertReset, Status.reset]) rfl
  have hbytes : (Machine.assertReset s).bmemBytes = s.bmemBytes := havocWrites_bmemBytes _ s
  rw [hbytes]
  exact fitsIn_havocWrites _ h.fitsIn h.racedInside

end Invariant

theorem invariant_complete {u : State} (hmem : u.mem.FitsIn u.bmemBytes) (hraced : u.raced = []) (c : ErrCode) :
    Invariant (complete u c) :=
  .of_untainted hmem (by simp [complete]) hraced

theorem CmdEffect.raced_eq {s u : State} (h : CmdEffect s u) : u.raced = s.raced := by
  cases h <;> rfl

theorem CmdEffect.fitsIn {s u : State} (h : CmdEffect s u) (hs : s.mem.FitsIn s.bmemBytes) :
    u.mem.FitsIn u.bmemBytes := by
  cases h with
  | complexResult | drawnResult | integerResult | butterfly => exact hs
  | table p hin =>
    have hlen : p.base + 4 * (tableOf s.size.toNat).length ≤ s.bmemBytes := by rwa [tableOf_length]
    exact fitsIn_writeEntries hs _ hlen
  | spectrum p zs hlen hin => exact fitsIn_writeElements hs _ (hlen ▸ hin)
  | element ea z hin => simpa using fitsIn_writeC hs z hin

theorem invariant_exec {i : Instr} {s t : State} (h : Invariant s) (hraced : s.raced = [])
    (hexec : exec i s = .next t) : Invariant t := by
  rcases exec_next hexec with ⟨u, hu, rfl⟩ | ⟨c, rfl⟩
  · exact invariant_complete (hu.fitsIn h.fitsIn) (hu.raced_eq.trans hraced) _
  · exact invariant_complete h.fitsIn hraced _

theorem havocResultRegs_mem (i : Instr) (s : State) : (havocResultRegs i s).mem = s.mem := by
  cases i <;> rfl

theorem havocResultRegs_bmemBytes (i : Instr) (s : State) : (havocResultRegs i s).bmemBytes = s.bmemBytes := by
  cases i <;> rfl

theorem raceOutcome_mem (i : Instr) (s : State) : (raceOutcome i s).mem = (havocWrites (footprint i s) s).mem :=
  havocResultRegs_mem i _

theorem raceOutcome_bmemBytes (i : Instr) (s : State) : (raceOutcome i s).bmemBytes = s.bmemBytes :=
  (havocResultRegs_bmemBytes i _).trans (havocWrites_bmemBytes _ s)

theorem invariant_raceOutcome {s : State} (h : Invariant s) (i : Instr) : Invariant (raceOutcome i s) := by
  refine .of_untainted ?_ (by simp [raceOutcome, complete]) rfl
  rw [raceOutcome_mem, raceOutcome_bmemBytes]
  exact fitsIn_havocWrites _ h.fitsIn h.racedInside

theorem invariant_engineTurn {s t : State} (h : Invariant s) (ht : engineTurn s = .next t) : Invariant t := by
  rcases engineTurn_cases s with ⟨-, he⟩ | ⟨-, -, ⟨e, hd, he⟩ | ⟨i, -, hraced, he⟩ | ⟨i, -, -, he⟩⟩ <;> rw [he] at ht
  · cases ht
    exact h
  · cases ht
    exact invariant_complete h.fitsIn (h.raced_eq_nil fun ⟨_, _, hok⟩ => by simp [hd] at hok) _
  · exact invariant_exec h hraced ht
  · cases ht
    exact invariant_raceOutcome h i

/-! ### The invariant along the host's moves -/

/-- A register write keeps the pending command and can only clear DONE, or issues a command while idle. -/
theorem regStore_command (s : State) (r : HostReg) (v : Word64) :
    ((regStore s r v).status.busy = s.status.busy ∧ (regStore s r v).lastCmd = s.lastCmd ∧
      ((regStore s r v).status.done = true → s.status.done = true)) ∨
    (s.status.busy = false ∧ (regStore s r v).status.done = false) := by
  cases hb : s.status.busy with
  | true => exact .inl (by cases r <;> simp_all [regStore, unlessBusy, Status.hostWrite])
  | false =>
    by_cases hr : r = .cmd
    · exact .inr ⟨rfl, by simp [hr, regStore, unlessBusy, hb]⟩
    · exact .inl (by cases r <;> simp_all [regStore, unlessBusy, Status.hostWrite])

theorem invariant_regStore {s : State} (h : Invariant s) (r : HostReg) (v : Word64) : Invariant (regStore s r v) := by
  obtain ⟨hmem, hraced, hblocks, -⟩ := regStore_frame s r v
  have hfits : (regStore s r v).mem.FitsIn (regStore s r v).bmemBytes := by
    rw [hmem, State.bmemBytes, hblocks]
    exact h.fitsIn
  rcases regStore_command s r v with ⟨hbusy, hcmd, hdone⟩ | ⟨hidle, hdone⟩
  · refine ⟨hfits.1, hfits.2, fun ⟨hb, hd⟩ => h.notBusyAndDone ⟨hbusy ▸ hb, hdone hd⟩, ?_, ?_⟩
    · rw [hraced, hbusy, hcmd]
      exact h.tainted
    · rw [hraced, State.bmemBytes, hblocks]
      exact h.racedInside
  · exact .of_untainted hfits (by simp [hdone]) (hraced.trans (h.raced_eq_nil (by simp [hidle])))

theorem invariant_hostRegWrite {s : State} (h : Invariant s) (offset : BitVec 12) (width : Nat) (v : Word64) :
    Invariant (hostRegWrite s offset width v) := by
  rw [hostRegWrite]
  split
  · exact h
  · exact invariant_regStore h _ v

theorem invariant_hostRegRead {s : State} (h : Invariant s) (offset : BitVec 12) (width : Nat) :
    Invariant (hostRegRead s offset width) := by
  obtain ⟨v, k, hread⟩ := exists_hostRegRead_eq_returned s offset width
  exact hread ▸ h.returned v k

theorem portAccessOk_iff {s : State} {addr width : Nat} :
    portAccessOk s addr width = true ↔ width ∈ [1, 2, 4, 8] ∧ addr % width = 0 ∧ addr + width ≤ s.bmemBytes := by
  simp [portAccessOk, and_assoc]

theorem pendingFootprint_idle {s : State} (hb : s.status.busy = false) : pendingFootprint s = ⟨[], [], [], []⟩ := by
  simp [pendingFootprint, hb]

@[simp] theorem inRanges_nil (s : State) (a : Nat) : inRanges s [] a = false := by simp [inRanges]

/-- Only a pending command that decodes has a footprint to race with (R289). -/
theorem pending_of_racesPending {s : State} {addr width : Nat} (h : racesPending s addr width = true) :
    s.status.busy = true ∧ ∃ i, decode s.lastCmd = .ok i := by
  obtain ⟨k, -, hk⟩ := racesPending_iff.1 h
  cases hb : s.status.busy with
  | false => simp [pendingFootprint_idle hb] at hk
  | true =>
    cases hd : decode s.lastCmd with
    | error e => simp [pendingFootprint_error hd] at hk
    | ok i => exact ⟨rfl, i, rfl⟩

theorem invariant_hostMemWrite {s : State} (h : Invariant s) (addr width : Nat) (v : Word64) :
    Invariant (hostMemWrite s addr width v) := by
  rw [hostMemWrite]
  split
  · exact h
  · next hok =>
    obtain ⟨-, hport⟩ : s.resetAsserted = false ∧ portAccessOk s addr width = true := by simpa using hok
    obtain ⟨-, -, hin⟩ := portAccessOk_iff.1 hport
    have hmem := fitsIn_memWrite h.fitsIn v.toNat hin
    refine ⟨hmem.1, hmem.2, h.notBusyAndDone, ?_, ?_⟩
    · dsimp only
      split
      · next hrace => exact fun _ => pending_of_racesPending hrace
      · exact h.tainted
    · intro a ha
      dsimp only at ha
      split at ha
      · rcases List.mem_append.1 ha with ha | ha
        · exact h.racedInside a ha
        · obtain ⟨k, hk, rfl⟩ := List.mem_map.1 ha
          have := List.mem_range.1 hk
          show addr + k < s.bmemBytes
          omega
      · exact h.racedInside a ha

theorem invariant_hostMemRead {s t : State} (h : Invariant s) {addr width : Nat}
    (ht : hostMemRead s addr width = .next t) : Invariant t := by
  rw [hostMemRead] at ht
  split at ht
  · cases ht
    exact h.returned _ _
  · split at ht
    · cases ht
    · cases ht
      exact h.returned _ _

theorem invariant_hostAct {a : HostAct} {s t : State} (h : Invariant s) (ht : hostAct a s = .next t) :
    Invariant t := by
  cases a with
  | memRead addr width => exact invariant_hostMemRead h ht
  | regWrite offset width v => cases ht; exact invariant_hostRegWrite h offset width v
  | regRead offset width => cases ht; exact invariant_hostRegRead h offset width
  | memWrite addr width v => cases ht; exact invariant_hostMemWrite h addr width v
  | assertReset => cases ht; exact h.assertReset
  | deassertReset => cases ht; exact h.deassertReset

/-- Settles O58, by the next entry of the script. -/
theorem stepKeepsInvariant : Obligations.StepKeepsInvariant := by
  intro s t h ht
  match hs : s.script with
  | [] => exact invariant_engineTurn h (step_script_nil hs ▸ ht)
  | .engine :: rest => exact invariant_engineTurn (h.setScript rest) (step_script_engine hs ▸ ht)
  | .host a :: rest => exact invariant_hostAct (h.setScript rest) (step_script_host hs ▸ ht)
  | .wait :: rest =>
    rw [step_script_wait hs] at ht
    cases ht
    exact (invariant_hostRegRead h 0x008 8).setScript _

/-! ### The port while idle (R89) -/

/-- With no write set to hide a byte, the port reads memory as the engine does. -/
theorem portBytes_nil (s : State) (k a n : Nat) : portBytes s [] k a n = readBytes s.mem a n := by
  induction n generalizing k a with
  | zero => rfl
  | succ n ih =>
    rw [portBytes, readBytes, inRanges_nil, ih]
    rfl

section IdlePort

variable {s : State} {addr width : Nat}

theorem hostMemWrite_idle (hidle : Idle s) (hok : portAccessOk s addr width = true) (v : Word64) :
    hostMemWrite s addr width v = { s with mem := memWrite s.mem addr width v.toNat } := by
  obtain ⟨hr, hb⟩ := hidle
  have hrace : racesPending s addr width = false := by simp [racesPending, pendingFootprint_idle hb]
  rw [hostMemWrite_supported v hr hok, hrace]
  rfl

theorem hostMemRead_idle_ok {v : Nat} (hidle : Idle s) (hok : portAccessOk s addr width = true)
    (hread : memRead s.mem addr width = .ok v) :
    hostMemRead s addr width = .next (s.returned (BitVec.ofNat 64 v) width) := by
  obtain ⟨hr, hb⟩ := hidle
  rw [hostMemRead_supported hr hok, pendingFootprint_idle hb, portBytes_nil]
  cases hbytes : readBytes s.mem addr width with
  | error f => simp [memRead, hbytes, Except.map] at hread
  | ok bs =>
    obtain rfl : leValue bs = v := by simpa [memRead, hbytes, Except.map] using hread
    rfl

theorem hostMemRead_idle_error {f : Fault} (hidle : Idle s) (hok : portAccessOk s addr width = true)
    (hread : memRead s.mem addr width = .error f) : hostMemRead s addr width = .fault f := by
  obtain ⟨hr, hb⟩ := hidle
  rw [hostMemRead_supported hr hok, pendingFootprint_idle hb, portBytes_nil]
  cases hbytes : readBytes s.mem addr width with
  | error g =>
    obtain rfl : g = f := by simpa [memRead, hbytes, Except.map] using hread
    rfl
  | ok bs => simp [memRead, hbytes, Except.map] at hread

variable {rest : List Turn}

theorem step_memWrite_idle {v : Word64} (hnext : HostNext s (.memWrite addr width v) rest) (hidle : Idle s)
    (hok : portAccessOk s addr width = true) :
    step s = .next { s with script := rest, mem := memWrite s.mem addr width v.toNat } := by
  rw [step_script_host hnext, hostAct, hostMemWrite_idle (s := { s with script := rest }) hidle hok]

theorem step_memRead_idle_ok {v : Nat} (hnext : HostNext s (.memRead addr width) rest) (hidle : Idle s)
    (hok : portAccessOk s addr width = true) (hread : memRead s.mem addr width = .ok v) :
    step s = .next ({ s with script := rest }.returned (BitVec.ofNat 64 v) width) :=
  (step_script_host hnext).trans (hostMemRead_idle_ok (s := { s with script := rest }) hidle hok hread)

theorem step_memRead_idle_error {f : Fault} (hnext : HostNext s (.memRead addr width) rest) (hidle : Idle s)
    (hok : portAccessOk s addr width = true) (hread : memRead s.mem addr width = .error f) :
    step s = .fault f :=
  (step_script_host hnext).trans (hostMemRead_idle_error (s := { s with script := rest }) hidle hok hread)

end IdlePort

theorem extractLsb'_byte (v : Word64) (k : Nat) : v.extractLsb' (8 * k) 8 = BitVec.ofNat 8 (v.toNat / 256 ^ k) := by
  apply BitVec.eq_of_toNat_eq
  rw [BitVec.extractLsb'_toNat, BitVec.toNat_ofNat, Nat.shiftRight_eq_div_pow, pow_mul]
  rfl

/-- Settles O53: idle, the port is `memWrite` and then `memRead` of the same range. -/
theorem portReadsBackWrites : Obligations.PortReadsBackWrites := by
  intro s addr width v rest hscript hidle hwidth halign hin
  have hok : portAccessOk s addr width = true := portAccessOk_iff.2 ⟨hwidth, halign, hin⟩
  refine ⟨_, _, step_memWrite_idle hscript hidle hok,
    step_memRead_idle_ok rfl hidle hok (memRead_memWrite_same s.mem addr width v.toNat), ?_,
    fun a ha => byte_memWrite_outside _ ha, fun k hk => ?_, rfl, rfl⟩
  · have hle := Nat.mod_le v.toNat (256 ^ width)
    have hlt := v.isLt
    rw [returned_readData, BitVec.toNat_ofNat, Nat.mod_eq_of_lt (by omega)]
  · show (memWrite s.mem addr width v.toNat).byte (addr + k) = _
    rw [byte_memWrite, if_pos (by omega), extractLsb'_byte, Nat.add_sub_cancel_left]

/-! ### Blocks of the pool (R92, R93) -/

theorem outputPlace_ne_raise_none (s : State) (o : Bool) (align base len : Nat) :
    outputPlace s o align base len ≠ .error (.raise .none) := by
  intro h
  rcases outputPlace_error h with ⟨-, he⟩ | ⟨-, he⟩ <;> cases he

theorem buildTable_ne_raise_none (o : Bool) (s : State) : buildTable o s ≠ .error (.raise .none) := by
  intro h
  rcases buildTable_error h with ⟨-, he⟩ | ⟨-, he⟩
  · cases he
  · exact outputPlace_ne_raise_none _ _ _ _ _ he

/-- The ways FFT's checks can stop it: a code of their own, or that of the output place. -/
theorem fftPlace_error {o t : Bool} {s : State} {e : Stop} (h : fftPlace o t s = .error e) :
    e ∈ [.raise .invalidSize, .raise .addressError, .raise .overlap] ∨
      outputPlace s o 8 s.outBase.toNat (16 * s.size.toNat) = .error e := by
  simp only [fftPlace] at h
  split at h
  · cases h; simp
  split at h
  · cases h; simp
  split at h
  · cases h; simp
  split at h
  · cases h; simp
  split at h
  · next d hd => cases h; exact .inr hd
  split at h
  · cases h; simp
  split at h
  · cases h; simp
  · cases h

theorem fftPlace_ne_raise_none (o t : Bool) (s : State) : fftPlace o t s ≠ .error (.raise .none) := by
  intro h
  rcases fftPlace_error h with hcode | hplace
  · simp at hcode
  · exact outputPlace_ne_raise_none _ _ _ _ _ hplace

theorem fftPermutation_ne_raise_none (t : Bool) (s : State) : fftPermutation t s ≠ .error (.raise .none) := by
  rw [fftPermutation]
  split
  · split
    · next e he =>
      obtain ⟨f, -, rfl⟩ := orFault_eq_error he
      simp
    · split <;> simp
  · simp

theorem fftCommand_ne_raise_none (o t : Bool) (s : State) : fftCommand o t s ≠ .error (.raise .none) := by
  intro h
  rcases fftCommand_error h with hplace | ⟨_, -, hperm | ⟨_, _, -, -, he⟩⟩
  · exact fftPlace_ne_raise_none o t s hplace
  · exact fftPermutation_ne_raise_none t s hperm
  · cases he

/-- A command that never raises code 0 and ended with it has succeeded. -/
theorem ok_of_finish_err_none {s t : State} {r : Except Stop State} (h : finish s r = .next t)
    (herr : t.status.err = .none) (hr : r ≠ .error (.raise .none)) : ∃ u, r = .ok u ∧ t = complete u .none := by
  rcases finish_next h with hu | ⟨c, hc, rfl⟩
  · exact hu
  · obtain rfl : c = .none := herr
    exact absurd hc hr

/-- What an engine-allocated command leaves for the next one: its block lies below the new ALLOC_PTR. -/
theorem resBase_add_le_of_commitPlace {s u : State} {align callerBase len : Nat} {p : Place}
    (hp : outputPlace s false align callerBase len = .ok p) (hres : u.resBase = (commitPlace s p).resBase)
    (hptr : u.allocPtr = (commitPlace s p).allocPtr) : u.resBase.toNat + len ≤ poolAddr u.allocPtr := by
  obtain ⟨hin, ⟨h, -⟩ | ⟨-, halloc, hnew⟩⟩ := outputPlace_ok hp
  · cases h
  · obtain ⟨hbase, -, -, -, hstop⟩ := alloc_some halloc
    obtain ⟨-, -, hbytes⟩ := bmemBytes_legal s
    obtain ⟨hlen, -, hround⟩ := le_roundup16 len
    have haligned := poolAddr_aligned s.allocPtr
    have hptr' : u.allocPtr = BitVec.ofNat 28 ((p.base + roundup16 len) / 16) := by
      rw [hptr, commitPlace, hnew]
    have hres' : u.resBase = BitVec.ofNat 32 p.base := hres
    rw [poolAddr, hptr', hres', BitVec.toNat_ofNat, BitVec.toNat_ofNat, Nat.mod_eq_of_lt (by omega),
      Nat.mod_eq_of_lt (by omega)]
    omega

theorem resBase_add_le_of_buildtbl {s u : State} (h : exec (.buildtbl false) s = .next u)
    (herr : u.status.err = .none) : u.resBase.toNat + 4 * sizeN s ≤ poolAddr u.allocPtr := by
  obtain ⟨_, hok, rfl⟩ := ok_of_finish_err_none h herr (buildTable_ne_raise_none _ _)
  obtain ⟨-, p, hp, rfl⟩ := buildTable_ok hok
  exact resBase_add_le_of_commitPlace hp rfl rfl

theorem resBase_add_le_of_fft {s u : State} {t : Bool} (h : exec (.fft false t) s = .next u)
    (herr : u.status.err = .none) : u.resBase.toNat + 16 * sizeN s ≤ poolAddr u.allocPtr := by
  obtain ⟨_, hok, rfl⟩ := ok_of_finish_err_none h herr (fftCommand_ne_raise_none _ _ _)
  obtain ⟨p, perm, input, hplace, -, -, rfl⟩ := fftCommand_ok hok
  obtain ⟨-, -, -, -, hp, -⟩ := fftPlace_ok hplace
  exact resBase_add_le_of_commitPlace hp rfl rfl

/-- Settles O39: a block starts at ALLOC_PTR, and a successful command moves ALLOC_PTR past its block. -/
theorem poolBlocksAreDisjoint : Obligations.PoolBlocksAreDisjoint := by
  refine ⟨fun s size base stop h => ?_, fun s u i len size base stop hi hexec herr h => ?_⟩
  · obtain ⟨rfl, rfl, hlo, hhi, hin⟩ := alloc_some h
    obtain ⟨hsize, -, hround⟩ := le_roundup16 size
    have haligned := poolAddr_aligned s.allocPtr
    exact ⟨hlo, hhi, hin, haligned, by omega, by omega⟩
  · obtain ⟨rfl, -⟩ := alloc_some h
    rcases hi with ⟨rfl, rfl⟩ | ⟨t, rfl, rfl⟩
    · exact resBase_add_le_of_buildtbl hexec herr
    · exact resBase_add_le_of_fft hexec herr

/-! ### Reads of bytes never written (R91) -/

/-- `r` is a read of `n` bytes from `a` on: it succeeds only where all are written, and otherwise faults at one that
is not. -/
def ReadsRange {α : Type} (m : Memory) (a n : Nat) : Except Fault α → Prop
  | .ok _ => ∀ c, a ≤ c → c < a + n → m.byte c ≠ none
  | .error f => ∃ c, f = .unwrittenByte c ∧ a ≤ c ∧ c < a + n ∧ m.byte c = none

namespace ReadsRange

variable {α β : Type} {m : Memory} {a n : Nat} {r : Except Fault α}

theorem exists_fault (h : ReadsRange m a n r) (hnone : ∃ k, k < n ∧ m.byte (a + k) = none) :
    ∃ c, r = .error (.unwrittenByte c) ∧ a ≤ c ∧ c < a + n ∧ m.byte c = none := by
  cases r with
  | ok x =>
    obtain ⟨k, hk, hbyte⟩ := hnone
    exact absurd hbyte (h (a + k) (by omega) (by omega))
  | error f =>
    obtain ⟨c, rfl, hc⟩ := h
    exact ⟨c, rfl, hc⟩

theorem map (h : ReadsRange m a n r) (f : α → β) : ReadsRange m a n (r.map f) := by
  cases r <;> exact h

theorem bind {k : Nat} (h : ReadsRange m a n r) {f : α → Except Fault β}
    (hf : ∀ x, ReadsRange m (a + n) k (f x)) : ReadsRange m a (n + k) (r.bind f) := by
  cases r with
  | error e =>
    obtain ⟨c, he, hlo, hhi, hnone⟩ := h
    exact ⟨c, he, hlo, by omega, hnone⟩
  | ok x =>
    have hx := hf x
    show ReadsRange m a (n + k) (f x)
    cases hfx : f x with
    | error e =>
      rw [hfx] at hx
      obtain ⟨c, he, hlo, hhi, hnone⟩ := hx
      exact ⟨c, he, by omega, by omega, hnone⟩
    | ok y =>
      rw [hfx] at hx
      intro c hlo hhi
      by_cases hc : c < a + n
      · exact h c hlo hc
      · exact hx c (by omega) (by omega)

end ReadsRange

/-- A read of nothing. -/
theorem readsRange_zero {α : Type} (m : Memory) (a : Nat) (x : α) : ReadsRange m a 0 (.ok x) :=
  fun _ _ _ => by omega

theorem readBytes_succ_of_written {m : Memory} {a : Nat} {b : Byte} (h : m.byte a = some b) (n : Nat) :
    readBytes m a (n + 1) = (Except.ok b).bind fun b => (readBytes m (a + 1) n).map (b :: ·) := by
  simp only [readBytes, h]
  rfl

theorem readsRange_readBytes (m : Memory) (a n : Nat) : ReadsRange m a n (readBytes m a n) := by
  induction n generalizing a with
  | zero => exact readsRange_zero m a []
  | succ n ih =>
    cases hb : m.byte a with
    | none =>
      simp only [readBytes, hb]
      exact ⟨a, rfl, Nat.le_refl a, by omega, hb⟩
    | some b =>
      have hhead : ReadsRange m a 1 (.ok b : Except Fault Byte) := fun c hlo hhi => by
        obtain rfl : c = a := by omega
        simp [hb]
      rw [readBytes_succ_of_written hb, Nat.add_comm]
      exact hhead.bind fun b => (ih (a + 1)).map _

theorem readsRange_memRead (m : Memory) (a n : Nat) : ReadsRange m a n (memRead m a n) :=
  (readsRange_readBytes m a n).map leValue

theorem readC_eq_bind (m : Memory) (a : Nat) :
    readC m a = (memRead m a 8).bind fun re =>
      (memRead m (a + 8) 8).map fun im => ⟨BitVec.ofNat 64 re, BitVec.ofNat 64 im⟩ := by
  rw [readC]
  cases memRead m a 8 with
  | error f => rfl
  | ok re => cases memRead m (a + 8) 8 <;> rfl

theorem readsRange_readC (m : Memory) (a : Nat) : ReadsRange m a 16 (readC m a) := by
  rw [readC_eq_bind]
  exact (readsRange_memRead m a 8).bind fun re => (readsRange_memRead m (a + 8) 8).map _

theorem readEntries_succ (m : Memory) (b n : Nat) :
    readEntries m b (n + 1) = (memRead m b 4).bind fun e => (readEntries m (b + 4) n).map (e :: ·) := by
  rw [readEntries]
  cases memRead m b 4 <;> rfl

theorem readsRange_readEntries (m : Memory) (b n : Nat) : ReadsRange m b (4 * n) (readEntries m b n) := by
  induction n generalizing b with
  | zero => exact readsRange_zero m b []
  | succ n ih =>
    rw [readEntries_succ, Nat.mul_succ, Nat.add_comm (4 * n)]
    exact (readsRange_memRead m b 4).bind fun e => (ih (b + 4)).map _

theorem readElements_succ (m : Memory) (b n : Nat) :
    readElements m b (n + 1) = (readC m b).bind fun z => (readElements m (b + 16) n).map (z :: ·) := by
  rw [readElements]
  cases readC m b <;> rfl

theorem readsRange_readElements (m : Memory) (b n : Nat) : ReadsRange m b (16 * n) (readElements m b n) := by
  induction n generalizing b with
  | zero => exact readsRange_zero m b []
  | succ n ih =>
    rw [readElements_succ, Nat.mul_succ, Nat.add_comm (16 * n)]
    exact (readsRange_readC m b).bind fun z => (ih (b + 16)).map _

/-! ### What FFT's checks let through (R214) -/

theorem isPow2_of_pow2 {n : Nat} (h : Pow2 n) : isPow2 n = true := by
  obtain ⟨k, rfl⟩ := h
  rw [isPow2_iff, Nat.log2_two_pow]
  exact ⟨(Nat.two_pow_pos k).ne', rfl⟩

theorem exists_alloc_of_poolRoom {s : State} {len : Nat} (h : PoolRoom s len) :
    ∃ stop, alloc s len = some (16 * s.allocPtr.toNat, stop) := by
  cases ha : alloc s len with
  | none =>
    have hfail := alloc_none.1 ha
    obtain ⟨hlo, hhi, hin⟩ := h
    simp only [poolAddr, roundup16] at hfail
    omega
  | some block =>
    obtain ⟨hbase, -⟩ := alloc_some ha
    exact ⟨block.2, by rw [← poolAddr, ← hbase]⟩

theorem overlap_eq_false_iff {a la b lb : Nat} : overlap a la b lb = false ↔ Apart a la b lb := by
  simp [overlap, Apart]
  omega

theorem exists_outputPlace {s : State} {o : Bool} {len : Nat} (hcaller : o = true → Placed s 8 s.outBase.toNat len)
    (hpool : o = false → PoolRoom s len) :
    ∃ p, outputPlace s o 8 s.outBase.toNat len = .ok p ∧ p.base = outBaseOf s o := by
  cases o with
  | true => exact ⟨_, if_pos (rangeOk_iff.2 (hcaller rfl)), rfl⟩
  | false =>
    obtain ⟨stop, ha⟩ := exists_alloc_of_poolRoom (hpool rfl)
    exact ⟨⟨_, some stop⟩, by simp [outputPlace, ha], rfl⟩

theorem exists_fftPlace {s : State} {o t : Bool} (h : FftPlaced s o t) : ∃ p, fftPlace o t s = .ok p := by
  obtain ⟨hpow, hlen, hinput, htable, hcaller, hpool, hapart, htapart⟩ := h
  obtain ⟨p, hp, hbase⟩ := exists_outputPlace hcaller hpool
  rw [← hbase, ← overlap_eq_false_iff] at hapart htapart
  have hpow' := isPow2_of_pow2 hpow
  have hinput' := rangeOk_iff.2 hinput
  refine ⟨p, ?_⟩
  unfold sizeN at *
  cases t with
  | false => simp [fftPlace, hpow', hinput', hp, hapart]
  | true =>
    have htable' := rangeOk_iff.2 (htable rfl)
    simp [fftPlace, hpow', hlen rfl, hinput', htable', hp, hapart, htapart rfl]

theorem fftPermutation_of_fftPermutes {s : State} {t : Bool} {perm : List Nat} (h : FftPermutes s t perm) :
    fftPermutation t s = .ok perm := by
  obtain ⟨htable, hnone⟩ := h
  cases t with
  | false => exact congrArg _ (hnone rfl).symm
  | true =>
    obtain ⟨hread, hlt, hnodup⟩ := htable rfl
    have hperm : isPermutation perm (sizeN s) = true := by simpa [isPermutation, hnodup] using hlt
    unfold sizeN at *
    simp [fftPermutation, hread, hperm]

theorem exec_fft_input_fault {s : State} {o t : Bool} {p : Place} {perm : List Nat} {f : Fault}
    (hplace : fftPlace o t s = .ok p) (hperm : fftPermutation t s = .ok perm)
    (hread : readElements s.mem s.inBase.toNat s.size.toNat = .error f) : exec (.fft o t) s = .fault f := by
  simp [exec, execFft, fftCommand, hplace, hperm, hread]

theorem exec_fft_table_fault {s : State} {o : Bool} {p : Place} {f : Fault} (hplace : fftPlace o true s = .ok p)
    (hread : readEntries s.mem s.tblBase.toNat s.size.toNat = .error f) : exec (.fft o true) s = .fault f := by
  simp [exec, execFft, fftCommand, hplace, fftPermutation, hread]

theorem exec_ldc_fault {s : State} {cd xs1 : RegIdx} {f : Fault} (hplaced : Placed s 8 (s.x xs1).toNat 16)
    (hread : readC s.mem (s.x xs1).toNat = .error f) : exec (.ldc cd xs1) s = .fault f := by
  have haddr : elementAddr s xs1 = .ok (s.x xs1).toNat := if_pos (rangeOk_iff.2 hplaced)
  simp [exec, execLdc, haddr, hread]

/-- Settles O42: each reader is a `ReadsRange` of its range, and its fault ends the command or the access. -/
theorem unwrittenByteFaults : Obligations.UnwrittenByteFaults := by
  refine ⟨fun s cd xs1 hplaced hnone => ?ldc, fun s o t perm hplaced hperm hnone => ?input,
    fun s o hplaced hnone => ?table, fun s addr width rest hnext hidle hok hnone => ?port⟩
  case ldc =>
    obtain ⟨a, hread, ha⟩ := (readsRange_readC s.mem (s.x xs1).toNat).exists_fault hnone
    exact ⟨a, exec_ldc_fault hplaced hread, ha⟩
  case input =>
    obtain ⟨p, hplace⟩ := exists_fftPlace hplaced
    obtain ⟨a, hread, ha⟩ := (readsRange_readElements s.mem s.inBase.toNat (sizeN s)).exists_fault hnone
    exact ⟨a, exec_fft_input_fault hplace (fftPermutation_of_fftPermutes hperm) hread, ha⟩
  case table =>
    obtain ⟨p, hplace⟩ := exists_fftPlace hplaced
    obtain ⟨a, hread, ha⟩ := (readsRange_readEntries s.mem s.tblBase.toNat (sizeN s)).exists_fault hnone
    exact ⟨a, exec_fft_table_fault hplace hread, ha⟩
  case port =>
    obtain ⟨a, hread, ha⟩ := (readsRange_memRead s.mem addr width).exists_fault hnone
    exact ⟨a, step_memRead_idle_error hnext hidle hok hread, ha⟩

end Sys2Proof.Machine
end

section
/-!
PROOFS of the statements on 30_encoding.md. A word is its fields side by side (`encR_toNat`, `encR_of_fields`), the
encoder's word matches its row of the opcode map (Laws/MaskMatch), and a row's mask and pattern fix every field its
command does not use (`extract_of_row`).
-/

namespace Sys2Proof.Machine

open Sys2Proof.Claims

/-! ### The words of R121 as numbers -/

/-- Setting an `n`-bit field at `k` in a word that is 0 up to the end of the field adds the field's value. -/
theorem or_field_toNat {w : Word32} {b : Nat} (k n : Nat) (hn : k + n ≤ 32) (hw : w.toNat % 2 ^ (k + n) = 0)
    (hb : b < 2 ^ n) : (w ||| BitVec.ofNat 32 b <<< k).toNat = w.toNat + b * 2 ^ k := by
  have hfield : b * 2 ^ k < 2 ^ (k + n) := by
    rw [Nat.pow_add, Nat.mul_comm]
    exact Nat.mul_lt_mul_of_pos_left hb (Nat.two_pow_pos k)
  have hword : 2 ^ (k + n) ≤ 2 ^ 32 := Nat.pow_le_pow_right (by decide) hn
  have hb32 : b < 2 ^ 32 := hb.trans_le (Nat.pow_le_pow_right (by decide) (by omega))
  have hsplit : w.toNat = 2 ^ (k + n) * (w.toNat / 2 ^ (k + n)) :=
    (Nat.mul_div_cancel' (Nat.dvd_of_mod_eq_zero hw)).symm
  rw [BitVec.toNat_or, BitVec.toNat_shiftLeft, BitVec.toNat_ofNat, Nat.mod_eq_of_lt hb32, Nat.shiftLeft_eq,
    Nat.mod_eq_of_lt (hfield.trans_le hword), hsplit, Nat.two_pow_add_eq_or_of_lt hfield]

theorem opcode_toNat {opc : Nat} (h : opc < 256) : (BitVec.ofNat 32 opc <<< 24).toNat = opc * 2 ^ 24 := by
  rw [BitVec.toNat_shiftLeft, BitVec.toNat_ofNat, Nat.shiftLeft_eq]
  omega

theorem encR_toNat {opc : Nat} (h : opc < 256) (rd rs1 rs2 : RegIdx) :
    (encR opc rd rs1 rs2).toNat = opc * 2 ^ 24 + rd.val * 2 ^ 21 + rs1.val * 2 ^ 18 + rs2.val * 2 ^ 15 := by
  have hopc := opcode_toNat h
  have hrd := or_field_toNat 21 3 (by decide) (by omega) rd.isLt (w := BitVec.ofNat 32 opc <<< 24)
  have hrs1 := or_field_toNat 18 3 (by decide) (by omega) rs1.isLt
    (w := BitVec.ofNat 32 opc <<< 24 ||| BitVec.ofNat 32 rd.val <<< 21)
  have hrs2 := or_field_toNat 15 3 (by decide) (by omega) rs2.isLt
    (w := BitVec.ofNat 32 opc <<< 24 ||| BitVec.ofNat 32 rd.val <<< 21 ||| BitVec.ofNat 32 rs1.val <<< 18)
  rw [encR, hrs2, hrs1, hrd, hopc]

theorem encB_toNat {opc : Nat} (h : opc < 256) (o t : Bool) :
    (encB opc o t).toNat = opc * 2 ^ 24 + o.toNat * 2 + t.toNat := by
  have hopc := opcode_toNat h
  have ho := or_field_toNat 1 1 (by decide) (by omega) o.toNat_lt (w := BitVec.ofNat 32 opc <<< 24)
  have ht := or_field_toNat 0 1 (by decide) (by omega) t.toNat_lt
    (w := BitVec.ofNat 32 opc <<< 24 ||| BitVec.ofNat 32 o.toNat <<< 1)
  rw [BitVec.shiftLeft_zero] at ht
  rw [encB, ht, ho, hopc]
  omega

/-! ### The fields of a word (R111) as numbers -/

theorem fieldOpc_eq (w : Word32) : fieldOpc w = w.toNat / 2 ^ 24 := by
  rw [fieldOpc, BitVec.extractLsb'_toNat, Nat.shiftRight_eq_div_pow]
  omega

theorem fieldRd_val (w : Word32) : (fieldRd w).val = w.toNat / 2 ^ 21 % 8 := by
  rw [fieldRd, BitVec.val_toFin, BitVec.extractLsb'_toNat, Nat.shiftRight_eq_div_pow]

theorem fieldRs1_val (w : Word32) : (fieldRs1 w).val = w.toNat / 2 ^ 18 % 8 := by
  rw [fieldRs1, BitVec.val_toFin, BitVec.extractLsb'_toNat, Nat.shiftRight_eq_div_pow]

theorem fieldRs2_val (w : Word32) : (fieldRs2 w).val = w.toNat / 2 ^ 15 % 8 := by
  rw [fieldRs2, BitVec.val_toFin, BitVec.extractLsb'_toNat, Nat.shiftRight_eq_div_pow]

theorem fieldO_toNat (w : Word32) : (fieldO w).toNat = w.toNat / 2 % 2 := Nat.toNat_testBit _ 1

theorem fieldT_toNat (w : Word32) : (fieldT w).toNat = w.toNat % 2 := by
  rw [fieldT, BitVec.getLsbD, Nat.toNat_testBit, Nat.pow_zero, Nat.div_one]

theorem boolToNat_injective : Function.Injective Bool.toNat := Function.LeftInverse.injective Bool.ofNat_toNat

/-! ### The fields of an encoder's word -/

section EncoderFields

variable {opc : Nat} (h : opc < 256)
include h

theorem fieldOpc_encR (rd rs1 rs2 : RegIdx) : fieldOpc (encR opc rd rs1 rs2) = opc := by
  rw [fieldOpc_eq, encR_toNat h]
  omega

theorem fieldRd_encR (rd rs1 rs2 : RegIdx) : fieldRd (encR opc rd rs1 rs2) = rd := by
  apply Fin.ext
  rw [fieldRd_val, encR_toNat h]
  omega

theorem fieldRs1_encR (rd rs1 rs2 : RegIdx) : fieldRs1 (encR opc rd rs1 rs2) = rs1 := by
  apply Fin.ext
  rw [fieldRs1_val, encR_toNat h]
  omega

theorem fieldRs2_encR (rd rs1 rs2 : RegIdx) : fieldRs2 (encR opc rd rs1 rs2) = rs2 := by
  apply Fin.ext
  rw [fieldRs2_val, encR_toNat h]
  omega

theorem fieldOpc_encB (o t : Bool) : fieldOpc (encB opc o t) = opc := by
  have ho := o.toNat_lt
  have ht := t.toNat_lt
  rw [fieldOpc_eq, encB_toNat h]
  omega

theorem fieldO_encB (o t : Bool) : fieldO (encB opc o t) = o := by
  have ho := o.toNat_lt
  have ht := t.toNat_lt
  apply boolToNat_injective
  rw [fieldO_toNat, encB_toNat h]
  omega

theorem fieldT_encB (o t : Bool) : fieldT (encB opc o t) = t := by
  have ht := t.toNat_lt
  apply boolToNat_injective
  rw [fieldT_toNat, encB_toNat h]
  omega

end EncoderFields

/-! ### A word from its fields -/

theorem encR_of_fields {w : Word32} {opc : Nat} {rd rs1 rs2 : RegIdx} (hopc : fieldOpc w = opc) (hrd : fieldRd w = rd)
    (hrs1 : fieldRs1 w = rs1) (hrs2 : fieldRs2 w = rs2) (hlow : w.extractLsb' 0 15 = 0) :
    encR opc rd rs1 rs2 = w := by
  subst hopc hrd hrs1 hrs2
  have hlow' : w.toNat % 2 ^ 15 = 0 := congrArg BitVec.toNat hlow
  have hopc256 : fieldOpc w < 256 := (w.extractLsb' 24 8).isLt
  apply BitVec.eq_of_toNat_eq
  rw [encR_toNat hopc256, fieldOpc_eq, fieldRd_val, fieldRs1_val, fieldRs2_val]
  omega

theorem encB_of_fields {w : Word32} {opc : Nat} {o t : Bool} (hopc : fieldOpc w = opc) (ho : fieldO w = o)
    (ht : fieldT w = t) (hmid : w.extractLsb' 2 22 = 0) : encB opc o t = w := by
  subst hopc ho ht
  have hmid' : w.toNat >>> 2 % 2 ^ 22 = 0 := congrArg BitVec.toNat hmid
  rw [Nat.shiftRight_eq_div_pow] at hmid'
  have hopc256 : fieldOpc w < 256 := (w.extractLsb' 24 8).isLt
  apply BitVec.eq_of_toNat_eq
  rw [encB_toNat hopc256, fieldOpc_eq, fieldO_toNat, fieldT_toNat]
  omega

/-! ### The decode procedure (R120), read forwards and backwards -/

theorem decode_unassigned {w : Word32} (h : opMap (fieldOpc w) = none) : decode w = .error .unassignedOpcode := by
  rw [decode, h]

theorem decode_row {w : Word32} {row : OpRow} (h : opMap (fieldOpc w) = some row) :
    decode w = if w &&& row.mask ≠ row.pattern then .error .mustBeZero else buildInstr (fieldOpc w) w := by
  rw [decode, h]

theorem decode_ok_iff {w : Word32} {i : Instr} :
    decode w = .ok i ↔
      ∃ row, opMap (fieldOpc w) = some row ∧ w &&& row.mask = row.pattern ∧ buildInstr (fieldOpc w) w = .ok i := by
  cases hrow : opMap (fieldOpc w) with
  | none => simp [decode_unassigned hrow]
  | some row =>
    rw [decode_row hrow]
    by_cases hmask : w &&& row.mask = row.pattern <;> simp [hmask]

/-! ### Encode, then decode -/

theorem maskMatch (i : Instr) : Laws.MaskMatch.Statement i := by
  cases i with
  | cmk a b c => exact Laws.MaskMatch.cmk a b c
  | cmkre a b => exact Laws.MaskMatch.cmkre a b
  | cmkim a b => exact Laws.MaskMatch.cmkim a b
  | ceq a b c => exact Laws.MaskMatch.ceq a b c
  | ceqr a b c => exact Laws.MaskMatch.ceqr a b c
  | cadd a b c => exact Laws.MaskMatch.cadd a b c
  | csub a b c => exact Laws.MaskMatch.csub a b c
  | cmul a b c => exact Laws.MaskMatch.cmul a b c
  | cdiv a b c => exact Laws.MaskMatch.cdiv a b c
  | cmod a b => exact Laws.MaskMatch.cmod a b
  | carg a b => exact Laws.MaskMatch.carg a b
  | cexp a b => exact Laws.MaskMatch.cexp a b
  | cconj a b => exact Laws.MaskMatch.cconj a b
  | crecip a b => exact Laws.MaskMatch.crecip a b
  | crand a => exact Laws.MaskMatch.crand a
  | log2f a b => exact Laws.MaskMatch.log2f a b
  | brev a b c => exact Laws.MaskMatch.brev a b c
  | buildtbl o => exact Laws.MaskMatch.buildtbl o
  | fft o t => exact Laws.MaskMatch.fft o t
  | bfly a b c => exact Laws.MaskMatch.bfly a b c
  | ldc a b => exact Laws.MaskMatch.ldc a b
  | stc a b => exact Laws.MaskMatch.stc a b

theorem encode_matches_row (i : Instr) :
    ∃ row, opMap (fieldOpc (encode i)) = some row ∧ encode i &&& row.mask = row.pattern := by
  obtain ⟨row, hrow, hmask⟩ := (Option.any_eq_true _ _).1 (maskMatch i)
  exact ⟨row, hrow, beq_iff_eq.1 hmask⟩

/-- Each field the command uses is read back where `encode` put it. -/
theorem buildInstr_encode {i : Instr} (h : i.wellFormed = true) :
    buildInstr (fieldOpc (encode i)) (encode i) = .ok i := by
  cases i with
  | bfly cd cs1 cs2 =>
    have hne : cd ≠ cs1 := by simpa [Instr.wellFormed] using h
    simp [encode, fieldOpc_encR, fieldRd_encR, fieldRs1_encR, fieldRs2_encR, buildInstr, hne]
  | buildtbl o => simp [encode, fieldOpc_encB, fieldO_encB, buildInstr]
  | fft o t => simp [encode, fieldOpc_encB, fieldO_encB, fieldT_encB, buildInstr]
  | _ => simp [encode, fieldOpc_encR, fieldRd_encR, fieldRs1_encR, fieldRs2_encR, buildInstr]

/-- Settles O1: the encoder's word passes the mask of its row, and every field is read back. -/
theorem decodeInvertsEncode : Obligations.DecodeInvertsEncode := by
  intro i hwf
  obtain ⟨row, hrow, hmask⟩ := encode_matches_row i
  exact decode_ok_iff.2 ⟨row, hrow, hmask, buildInstr_encode hwf⟩

/-! ### Decode, then encode -/

/-- Where the mask has only ones, a word that passes has the pattern's bits. -/
theorem extract_of_row {w mask pattern : Word32} (start len : Nat) (h : w &&& mask = pattern)
    (hmask : mask.extractLsb' start len = BitVec.allOnes len) :
    w.extractLsb' start len = pattern.extractLsb' start len := by
  rw [← h, BitVec.extractLsb'_and, hmask, BitVec.and_allOnes]

section RowFields

variable {w mask pattern : Word32} (h : w &&& mask = pattern)
include h

theorem fieldRd_of_row (hmask : fieldRd mask = 7) : fieldRd w = fieldRd pattern :=
  congrArg BitVec.toFin (extract_of_row 21 3 h (BitVec.toFin_inj.1 hmask))

theorem fieldRs1_of_row (hmask : fieldRs1 mask = 7) : fieldRs1 w = fieldRs1 pattern :=
  congrArg BitVec.toFin (extract_of_row 18 3 h (BitVec.toFin_inj.1 hmask))

theorem fieldRs2_of_row (hmask : fieldRs2 mask = 7) : fieldRs2 w = fieldRs2 pattern :=
  congrArg BitVec.toFin (extract_of_row 15 3 h (BitVec.toFin_inj.1 hmask))

theorem fieldT_of_row (hmask : fieldT mask = true) : fieldT w = fieldT pattern := by
  rw [← h, fieldT, fieldT, BitVec.getLsbD_and, ← fieldT, ← fieldT, hmask, Bool.and_true]

end RowFields

/-- The fields a command does not use are 0 in every word of its row, so the word is the encoder's. -/
theorem encode_of_buildInstr {w : Word32} {row : OpRow} {i : Instr} (hrow : opMap (fieldOpc w) = some row)
    (hmask : w &&& row.mask = row.pattern) (hi : buildInstr (fieldOpc w) w = .ok i) :
    encode i = w ∧ i.wellFormed = true := by
  generalize hopc : fieldOpc w = opc at hrow hi
  unfold opMap at hrow
  split at hrow
  case h_23 => cases hrow
  all_goals
    cases hrow
    simp only [buildInstr, Except.ok.injEq] at hi
  -- BFLY: RD, RS1 and RS2 are operands, RD and RS1 differ
  case h_20 =>
    split at hi
    · cases hi
    · next hne =>
      cases hi
      exact ⟨encR_of_fields hopc rfl rfl rfl (extract_of_row 0 15 hmask rfl), bne_iff_ne.2 hne⟩
  all_goals subst hi
  -- CMK, CEQ, CEQR, CADD, CSUB, CMUL, CDIV, BREV: RD, RS1 and RS2 are operands
  case h_1 | h_4 | h_5 | h_6 | h_7 | h_8 | h_9 | h_17 =>
    exact ⟨encR_of_fields hopc rfl rfl rfl (extract_of_row 0 15 hmask rfl), rfl⟩
  -- CMKRE, CMKIM, CMOD, CARG, CEXP, CCONJ, CRECIP, LOG2F, LDC: RD and RS1 are operands
  case h_2 | h_3 | h_10 | h_11 | h_12 | h_13 | h_14 | h_16 | h_21 =>
    exact ⟨encR_of_fields hopc rfl rfl (fieldRs2_of_row hmask rfl) (extract_of_row 0 15 hmask rfl), rfl⟩
  -- CRAND: RD is the operand
  case h_15 =>
    exact ⟨encR_of_fields hopc rfl (fieldRs1_of_row hmask rfl) (fieldRs2_of_row hmask rfl)
      (extract_of_row 0 15 hmask rfl), rfl⟩
  -- STC: RS1 and RS2 are operands
  case h_22 =>
    exact ⟨encR_of_fields hopc (fieldRd_of_row hmask rfl) rfl rfl (extract_of_row 0 15 hmask rfl), rfl⟩
  -- BUILDTBL: O is the operand
  case h_18 => exact ⟨encB_of_fields hopc rfl (fieldT_of_row hmask rfl) (extract_of_row 2 22 hmask rfl), rfl⟩
  -- FFT: O and T are operands
  case h_19 => exact ⟨encB_of_fields hopc rfl rfl (extract_of_row 2 22 hmask rfl), rfl⟩

/-- Settles O2: a row's mask and pattern fix each field that its command does not use. -/
theorem encodeInvertsDecode : Obligations.EncodeInvertsDecode := by
  intro w i hdec
  obtain ⟨row, hrow, hmask, hi⟩ := decode_ok_iff.1 hdec
  exact encode_of_buildInstr hrow hmask hi

/-! ### Illegal words -/

/-- No opcode of R118's ranges has a row in the opcode map. -/
theorem opMap_assigned {opc : Nat} {row : OpRow} (h : opMap opc = some row) :
    0x10 ≤ opc ∧ opc ≠ 0x1F ∧ ¬ (0x23 ≤ opc ∧ opc ≤ 0x2F) ∧ ¬ (0x32 ≤ opc ∧ opc ≤ 0x3F) ∧ opc < 0x42 := by
  unfold opMap at h
  split at h
  case h_23 => cases h
  all_goals decide

theorem buildInstr_bfly_same {w : Word32} (h : fieldRd w = fieldRs1 w) :
    buildInstr 0x31 w = .error .bflySameRegister := by
  rw [buildInstr, if_pos h]

theorem step_of_decode_error {s : State} {e : DecodeError} (hready : EngineReady s) (hd : decode s.lastCmd = .error e) :
    step s = .next (raised (turned s) .illegalCommand) := by
  rw [step_of_engineReady hready]
  obtain ⟨hreset, hbusy, -⟩ := hready
  simp [engineTurn, turned, hreset, hbusy, hd, raised, complete]

/-- Settles O4: a word that decodes has a row, matches it, and is no BFLY with RD = RS1. -/
theorem illegalWordsOnlyComplete : Obligations.IllegalWordsOnlyComplete := by
  intro s hready hill
  cases hd : decode s.lastCmd with
  | error e => exact step_of_decode_error hready hd
  | ok i =>
    exfalso
    obtain ⟨row, hrow, hmask, hi⟩ := decode_ok_iff.1 hd
    have hassigned := opMap_assigned hrow
    rcases hill with h | h | h | h | h | ⟨row', hrow', hne⟩ | ⟨hopc, hreg⟩
    · omega
    · omega
    · omega
    · omega
    · omega
    · cases hrow.symm.trans hrow'
      exact hne hmask
    · rw [hopc, buildInstr_bfly_same hreg] at hi
      cases hi

/-! ### CCOPY (R123) -/

/-- A complex register written and the command completed: nothing else changes. -/
theorem onlyC_complete_setC (s : State) (rd : RegIdx) (z : Cplx) : OnlyC s (complete (s.setC rd z) .none) rd z 0 :=
  ⟨setC_c_same s rd z, fun r hr => setC_c_other s rd r z hr, rfl, ⟨fun _ => rfl, rfl⟩, fun _ => rfl,
    ⟨rfl, rfl, rfl, rfl, rfl, rfl, rfl, rfl, rfl, rfl, rfl, rfl⟩, ⟨rfl, rfl, rfl, rfl⟩, rfl, rfl⟩

theorem setC_complete (s : State) (rd : RegIdx) (z : Cplx) (code : ErrCode) :
    (complete s code).setC rd z = complete (s.setC rd z) code := rfl

theorem setC_setC (s : State) (rd : RegIdx) (z w : Cplx) : (s.setC rd z).setC rd w = s.setC rd w := by
  simp [State.setC]

theorem complete_complete (s : State) (c d : ErrCode) : complete (complete s c) d = complete s d := rfl

/-- Conjugating twice restores every bit (R164). -/
theorem cconj_cconj (z : Cplx) : cconj (cconj z) = z := by
  rw [cconj, cconj, fneg_fneg]

theorem exec_cconj (cd cs1 : RegIdx) (s : State) :
    exec (.cconj cd cs1) s = .next (complete (s.setC cd (cconj (s.c cs1))) .none) := rfl

/-- The second command of the expansion leaves the state that one write of the operand would have left. -/
theorem exec_cconj_again (cd : RegIdx) (z : Cplx) (s : State) :
    exec (.cconj cd cd) (complete (s.setC cd (cconj z)) .none) = .next (complete (s.setC cd z) .none) := by
  rw [exec_cconj, complete_c, setC_c_same, cconj_cconj, setC_complete, setC_setC, complete_complete]

/-- Settles O14: CCONJ flips a sign bit, so twice restores it, and both commands write `cd` alone. -/
theorem copyPseudoCopies : Obligations.CopyPseudoCopies := fun cd cs1 s =>
  ⟨_, _, rfl, exec_cconj cd cs1 s, exec_cconj_again cd (s.c cs1) s, onlyC_complete_setC s cd (s.c cs1)⟩

/-! ### Worked examples -/

/-- Settles O3: the words as sums of fields, and each example evaluated. -/
theorem decodesWorkedExamples : Obligations.DecodesWorkedExamples := by
  refine ⟨fun opc rd rs1 rs2 => encR_toNat opc.isLt rd rs1 rs2, fun opc o t => encB_toNat opc.isLt o t, ?_⟩
  decide

end Sys2Proof.Machine
end

section
/-!
PROOFS of the statements on 40_complex.md. A command of the unit is one register write and a completion
(`writesC_of_exec`, `writesX_of_exec`), its word is the encoder's (`decodeInvertsEncode`), and a must-be-zero bit fails
the mask of its row (`illegalWhen_of_row`). Below the commands: what `feq` compares, the sign of a modulus, and a zero
divisor.
-/

namespace Sys2Proof.Machine

open Sys2Proof.Claims

/-! ### Commands that write one register -/

theorem writesC_of_exec {i : Instr} {rd : RegIdx} {f : State → Cplx} (h : ∀ s, exec i s = writesC s rd (f s)) :
    WritesC i rd f := fun s =>
  ⟨_, (h s).trans (writesC_eq s rd (f s)), onlyC_complete_setC s rd (f s)⟩

/-- An integer register written and the command completed: nothing else changes. -/
theorem onlyX_complete_setX (s : State) (rd : RegIdx) (v : Word64) : OnlyX s (complete (s.setX rd v) .none) rd v :=
  ⟨setX_x_same s rd v, fun r hr => setX_x_other s rd r v hr, rfl, ⟨fun _ => rfl, rfl⟩, fun _ => rfl,
    ⟨rfl, rfl, rfl, rfl, rfl, rfl, rfl, rfl, rfl, rfl, rfl, rfl⟩, ⟨rfl, rfl, rfl, rfl⟩, rfl, rfl⟩

theorem writesX_of_exec {i : Instr} {rd : RegIdx} {f : State → Word64} (h : ∀ s, exec i s = writesX s rd (f s)) :
    WritesX i rd f := fun s =>
  ⟨_, (h s).trans (writesX_eq s rd (f s)), onlyX_complete_setX s rd (f s)⟩

/-- Draws taken before the write are the only other change. -/
theorem onlyC_of_drawn {s t : State} {rd : RegIdx} {z : Cplx} {k : Nat} (h : OnlyC (s.drawn k) t rd z 0) :
    OnlyC s t rd z k := h

theorem exists_next_of_writesC {i : Instr} {rd : RegIdx} {f : State → Cplx} (h : WritesC i rd f) (s : State) :
    ∃ t, exec i s = .next t ∧ t.c rd = f s ∧ t.status.err = .none := by
  obtain ⟨t, ht, hc, -, -, -, -, -, -, -, hcompleted⟩ := h s
  exact ⟨t, ht, hc, congrArg Status.err hcompleted⟩

theorem writesC_cdiv (cd cs1 cs2 : RegIdx) : WritesC (.cdiv cd cs1 cs2) cd (fun s => cdiv (s.c cs1) (s.c cs2)) :=
  writesC_of_exec fun _ => rfl

theorem writesC_crecip (cd cs1 : RegIdx) : WritesC (.crecip cd cs1) cd (fun s => cdiv cone (s.c cs1)) :=
  writesC_of_exec fun _ => rfl

theorem boolWord_and (p q : Bool) : boolWord (p && q) = if p = true ∧ q = true then 1 else 0 := by
  simp only [boolWord, Bool.and_eq_true]

/-! ### Must-be-zero bits (R117) -/

/-- A word that matches the row has the pattern's zeros in every bit of the field. -/
theorem illegalWhen_of_row {opc : Nat} {bits : Word32} {row : OpRow} (hrow : opMap opc = some row)
    (hmask : row.mask &&& bits = bits) (hpattern : row.pattern &&& bits = 0) : IllegalWhen opc bits := by
  intro w hopc hbits
  rw [decode_row (hopc ▸ hrow), if_pos]
  intro hmatch
  refine hbits ?_
  rw [← hmask, ← BitVec.and_assoc, hmatch, hpattern]

/-! ### The comparison under CEQ (R21) -/

section
variable {a b : F64} {p q : Bool}

theorem feq_nan (h : fview a = .nan ∨ fview b = .nan) : feq a b = false := by
  rcases h with ha | hb
  · simp only [feq, ha]
  · cases ha : fview a <;> simp only [feq, ha, hb]

theorem feq_fin {m n : Nat} (ha : fview a = .fin p m) (hb : fview b = .fin q n) :
    feq a b = true ↔ m = n ∧ (p = q ∨ m = 0) := by
  simp [feq, ha, hb]

theorem feq_inf (ha : fview a = .inf p) (hb : fview b = .inf q) : feq a b = true ↔ p = q := by
  simp [feq, ha, hb]

theorem feq_inf_fin {n : Nat} (ha : fview a = .inf p) (hb : fview b = .fin q n) :
    feq a b = false ∧ feq b a = false := by
  simp only [feq, ha, hb, and_self]

end

/-! ### The product (R143) -/

theorem cmul_comm (z w : Cplx) : cmul z w = cmul w z := by
  rw [cmul, cmul, fmul_comm z.re w.re, fmul_comm z.im w.im, fmul_comm z.re w.im, fmul_comm z.im w.re, fadd_comm]

/-! ### The sign of a modulus (R145) -/

theorem fsign_of_fview_inf {a : F64} {p : Bool} (h : fview a = .inf p) : fsign a = p := by
  rw [eq_finf_of_fview h]
  exact fsign_fpack le_rfl

theorem fsign_of_fview_fin {a : F64} {p : Bool} {m : Nat} (h : fview a = .fin p m) : fsign a = p := by
  unfold fview at h
  split at h
  · split at h <;> cases h
  · split at h <;> (cases h; rfl)

theorem fsign_cnan : fsign cnan = false := by decide

theorem fsign_finf (neg : Bool) : fsign (finf neg) = neg := fsign_fpack le_rfl

/-- The signs of the factors cancel in a square, and a NaN result is the positive one. -/
theorem fsign_fmul_self (a : F64) : fsign (fmul a a) = false := by
  cases ha : fview a with
  | nan => rw [(ops_nan (.inl ha)).2.1, fsign_cnan]
  | inf p => simp only [fmul, ha, fsign_finf, Bool.xor_self]
  | fin p m => rw [fmul_fin ha ha, fsign_fround64, Bool.xor_self]

theorem fsign_fadd {a b : F64} (ha : fsign a = false) (hb : fsign b = false) : fsign (fadd a b) = false := by
  cases hva : fview a with
  | nan => rw [(ops_nan (.inl hva)).1, fsign_cnan]
  | inf p =>
    obtain rfl : p = false := (fsign_of_fview_inf hva).symm.trans ha
    cases hvb : fview b with
    | nan => rw [(ops_nan (.inr hvb)).1, fsign_cnan]
    | inf q =>
      obtain rfl : q = false := (fsign_of_fview_inf hvb).symm.trans hb
      simp only [fadd, hva, hvb, if_true, fsign_finf]
    | fin q n => simp only [fadd, hva, hvb, fsign_finf]
  | fin p m =>
    obtain rfl : p = false := (fsign_of_fview_fin hva).symm.trans ha
    cases hvb : fview b with
    | nan => rw [(ops_nan (.inr hvb)).1, fsign_cnan]
    | inf q =>
      obtain rfl : q = false := (fsign_of_fview_inf hvb).symm.trans hb
      simp only [fadd, hva, hvb, fsign_finf]
    | fin q n =>
      obtain rfl : q = false := (fsign_of_fview_fin hvb).symm.trans hb
      have hnonneg : ¬ signedMag false m + signedMag false n < 0 :=
        not_lt.2 (add_nonneg (Int.natCast_nonneg m) (Int.natCast_nonneg n))
      rw [fadd_fin hva hvb, apply_ite fsign, fsign_fzero, fsign_fround64, decide_eq_false hnonneg]
      exact ite_self _

theorem fsign_fsqrt {a : F64} (ha : fsign a = false) : fsign (fsqrt a) = false := by
  cases hv : fview a with
  | nan => rw [fsqrt_nan hv, fsign_cnan]
  | inf p =>
    obtain rfl : p = false := (fsign_of_fview_inf hv).symm.trans ha
    exact (congrArg fsign (fsqrt_inf hv)).trans (fsign_finf false)
  | fin p m =>
    obtain rfl : p = false := (fsign_of_fview_fin hv).symm.trans ha
    rw [fsqrt_fin hv]
    by_cases hm : m = 0
    · rw [if_pos hm, fsign_fzero]
    · rw [if_neg hm]
      exact fsign_fpack (sqrtMag_rounds hv hm).1

theorem fsign_cmod (z : Cplx) : fsign (cmod z) = false :=
  fsign_fsqrt (fsign_fadd (fsign_fmul_self z.re) (fsign_fmul_self z.im))

theorem cmod_nan {z : Cplx} (h : fview z.re = .nan ∨ fview z.im = .nan) : cmod z = cnan := by
  have hsquare {a : F64} (ha : fview a = .nan) : fview (fmul a a) = .nan := by rw [(ops_nan (.inl ha)).2.1, fview_cnan]
  rw [cmod, cnorm2, (ops_nan (h.imp hsquare hsquare)).1, fsqrt_nan fview_cnan]

/-! ### Division by zero (R144) -/

/-- A NaN or a zero: what every product with a zero is. -/
def NaNOrZero (a : F64) : Prop := fview a = .nan ∨ ∃ p, fview a = .fin p 0

theorem fround64_zero (neg : Bool) (den : Nat) : fround64 neg 0 den = fzero neg := by
  simp [fround64, fzero, roundMag, divRne]

theorem naNOrZero_fmul {b : F64} {q : Bool} (hb : fview b = .fin q 0) (a : F64) : NaNOrZero (fmul a b) := by
  cases ha : fview a with
  | nan => exact .inl (by rw [(ops_nan (.inl ha)).2.1, fview_cnan])
  | inf p => exact .inl (fview_ops_inf_fin ha hb).2.1
  | fin p m => exact .inr ⟨p ^^ q, by rw [fmul_fin ha hb, Nat.mul_zero, fround64_zero, fview_fzero]⟩

theorem fadd_zeros {a b : F64} {p q : Bool} (ha : fview a = .fin p 0) (hb : fview b = .fin q 0) :
    fadd a b = fzero (p && q) := by
  rw [fadd_fin ha hb, if_pos (by cases p <;> cases q <;> rfl)]

theorem naNOrZero_fadd {a b : F64} (ha : NaNOrZero a) (hb : NaNOrZero b) : NaNOrZero (fadd a b) := by
  have hnan (h : fview a = .nan ∨ fview b = .nan) : NaNOrZero (fadd a b) := .inl (by rw [(ops_nan h).1, fview_cnan])
  rcases ha with ha | ⟨p, ha⟩
  · exact hnan (.inl ha)
  · rcases hb with hb | ⟨q, hb⟩
    · exact hnan (.inr hb)
    · exact .inr ⟨p && q, by rw [fadd_zeros ha hb, fview_fzero]⟩

theorem naNOrZero_fneg {a : F64} (ha : NaNOrZero a) : NaNOrZero (fneg a) :=
  ha.imp fview_fneg_nan fun ⟨p, hp⟩ => ⟨!p, fview_fneg_fin hp⟩

theorem fdiv_naNOrZero {a b : F64} {q : Bool} (ha : NaNOrZero a) (hb : fview b = .fin q 0) : fdiv a b = cnan := by
  rcases ha with ha | ⟨p, ha⟩
  · exact (ops_nan (.inl ha)).2.2
  · exact canonicalNaN_fdiv a b (fview_fdiv_zero ha hb)

section
variable {z : Cplx} {p q : Bool} (hre : fview z.re = .fin p 0) (him : fview z.im = .fin q 0)
include hre him

theorem fview_cnorm2_zero : fview (cnorm2 z) = .fin false 0 := by
  have hsquare {a : F64} {r : Bool} (ha : fview a = .fin r 0) : fview (fmul a a) = .fin false 0 := by
    rw [fmul_fin ha ha, Bool.xor_self, Nat.mul_zero, fround64_zero, fview_fzero]
  rw [cnorm2, fadd_zeros (hsquare hre) (hsquare him), fview_fzero, Bool.and_self]

/-- Both numerators are sums of products with a zero, and a NaN or a zero over zero is the canonical NaN. -/
theorem cdiv_zero (w : Cplx) : cdiv w z = ⟨cnan, cnan⟩ := by
  have hden := fview_cnorm2_zero hre him
  have hnumRe : NaNOrZero (fadd (fmul w.re z.re) (fmul w.im z.im)) :=
    naNOrZero_fadd (naNOrZero_fmul hre w.re) (naNOrZero_fmul him w.im)
  have hnumIm : NaNOrZero (fsub (fmul w.im z.re) (fmul w.re z.im)) :=
    naNOrZero_fadd (naNOrZero_fmul hre w.im) (naNOrZero_fneg (naNOrZero_fmul him w.re))
  rw [cdiv, fdiv_naNOrZero hnumRe hden, fdiv_naNOrZero hnumIm hden]

end

/-! ### Draws from U (R25) -/

theorem unitDraw_toNat (b : Word64) : (unitDraw b).toNat = b.toNat % (0x3FF0000000000000 + 1) := by
  rw [unitDraw, BitVec.toNat_ofNat]
  exact Nat.mod_eq_of_lt ((Nat.mod_lt _ (Nat.succ_pos _)).trans (by decide))

/-! ### The obligations -/

/-- Settles O7: each command is one write of `c[cd]`. -/
theorem constructCommands : Obligations.ConstructCommands :=
  ⟨fun cd xs1 xs2 => ⟨decodeInvertsEncode (.cmk cd xs1 xs2) rfl, writesC_of_exec fun _ => rfl⟩,
    illegalWhen_of_row rfl rfl rfl,
    fun cd xs1 => ⟨decodeInvertsEncode (.cmkre cd xs1) rfl, writesC_of_exec fun _ => rfl⟩,
    illegalWhen_of_row rfl rfl rfl,
    fun cd xs1 => ⟨decodeInvertsEncode (.cmkim cd xs1) rfl, writesC_of_exec fun _ => rfl⟩,
    illegalWhen_of_row rfl rfl rfl⟩

/-- Settles O8: each command is one write of `x[xd]`, and `feq` by the kinds of its operands. -/
theorem equalityCommands : Obligations.EqualityCommands := by
  refine ⟨fun xd cs1 cs2 => ⟨decodeInvertsEncode (.ceq xd cs1 cs2) rfl, writesX_of_exec fun s => ?_⟩,
    illegalWhen_of_row rfl rfl rfl,
    fun xd cs1 cs2 => ⟨decodeInvertsEncode (.ceqr xd cs1 cs2) rfl, writesX_of_exec fun s => ?_⟩,
    illegalWhen_of_row rfl rfl rfl, fun a b h => feq_nan h, fun a b p q ha hb => ?_,
    fun a b p q m n ha hb hne => ?_, fun a b p q ha hb => feq_inf ha hb, fun a b p q n ha hb => feq_inf_fin ha hb⟩
  · rw [← boolWord_and]; rfl
  · rw [← boolWord_and]; rfl
  · exact (feq_fin ha hb).2 ⟨rfl, .inr rfl⟩
  · rw [feq_fin ha hb]
    constructor
    · rintro ⟨rfl, hsign⟩
      exact ⟨hsign.resolve_right (by omega), rfl⟩
    · rintro ⟨hsign, hmag⟩
      exact ⟨hmag, .inl hsign⟩

/-- Settles O9: each command is one write of `c[cd]`. -/
theorem addSubtractCommands : Obligations.AddSubtractCommands :=
  ⟨fun cd cs1 cs2 => ⟨decodeInvertsEncode (.cadd cd cs1 cs2) rfl, writesC_of_exec fun _ => rfl⟩,
    illegalWhen_of_row rfl rfl rfl,
    fun cd cs1 cs2 => ⟨decodeInvertsEncode (.csub cd cs1 cs2) rfl, writesC_of_exec fun _ => rfl⟩,
    illegalWhen_of_row rfl rfl rfl⟩

/-- Settles O10: each command is one write of `c[cd]`; CDIV has no guard on its divisor. -/
theorem multiplyDivideCommands : Obligations.MultiplyDivideCommands :=
  ⟨fun cd cs1 cs2 => ⟨decodeInvertsEncode (.cmul cd cs1 cs2) rfl, writesC_of_exec fun _ => rfl⟩,
    illegalWhen_of_row rfl rfl rfl,
    fun cd cs1 cs2 => ⟨decodeInvertsEncode (.cdiv cd cs1 cs2) rfl, writesC_cdiv cd cs1 cs2⟩,
    illegalWhen_of_row rfl rfl rfl⟩

/-- Settles O11: each command is one write of `x[xd]`. -/
theorem modulusArgumentCommands : Obligations.ModulusArgumentCommands :=
  ⟨fun xd cs1 => ⟨decodeInvertsEncode (.cmod xd cs1) rfl, writesX_of_exec fun _ => rfl⟩,
    illegalWhen_of_row rfl rfl rfl,
    fun xd cs1 => ⟨decodeInvertsEncode (.carg xd cs1) rfl, writesX_of_exec fun _ => rfl⟩,
    illegalWhen_of_row rfl rfl rfl⟩

/-- Settles O12: each command is one write of `c[cd]`. -/
theorem expConjugateReciprocalCommands : Obligations.ExpConjugateReciprocalCommands :=
  ⟨fun cd cs1 => ⟨decodeInvertsEncode (.cexp cd cs1) rfl, writesC_of_exec fun _ => rfl⟩,
    illegalWhen_of_row rfl rfl rfl,
    fun cd cs1 => ⟨decodeInvertsEncode (.cconj cd cs1) rfl, writesC_of_exec fun _ => rfl⟩,
    illegalWhen_of_row rfl rfl rfl,
    fun cd cs1 => ⟨decodeInvertsEncode (.crecip cd cs1) rfl, writesC_crecip cd cs1⟩,
    illegalWhen_of_row rfl rfl rfl⟩

/-- Settles O13: one write of `c[cd]` after two draws, and `unitDraw` is the identity on U. -/
theorem randomCommand : Obligations.RandomCommand := by
  refine ⟨fun cd => ⟨decodeInvertsEncode (.crand cd) rfl, fun s => ?_⟩, illegalWhen_of_row rfl rfl rfl,
    fun b => ?_, fun v hv => ⟨v, ?_⟩⟩
  · exact ⟨_, writesC_eq (s.drawn 2) cd _, onlyC_of_drawn (onlyC_complete_setC (s.drawn 2) cd _)⟩
  · rw [unitDraw_toNat]
    exact Nat.le_of_lt_succ (Nat.mod_lt _ (Nat.succ_pos _))
  · apply BitVec.eq_of_toNat_eq
    rw [unitDraw_toNat, Nat.mod_eq_of_lt (Nat.lt_succ_of_le hv)]

/-- Settles O15: `fmul` and `fadd` are commutative. -/
theorem productCommutes : Obligations.ProductCommutes := fun z w => ⟨rfl, cmul_comm z w⟩

/-- Settles O16: `cdiv_zero` for the value, and CDIV and CRECIP write what `cdiv` gives. -/
theorem zeroDivisorGivesNaN : Obligations.ZeroDivisorGivesNaN := by
  intro z p q hre him
  refine ⟨cdiv_zero hre him, fun cd cs1 cs2 s hz => ?_, fun cd cs1 s hz => ?_⟩
  · obtain ⟨t, ht, hc, herr⟩ := exists_next_of_writesC (writesC_cdiv cd cs1 cs2) s
    exact ⟨t, ht, by rw [hc, hz, cdiv_zero hre him, cnan], herr⟩
  · obtain ⟨t, ht, hc, herr⟩ := exists_next_of_writesC (writesC_crecip cd cs1) s
    exact ⟨t, ht, by rw [hc, hz, cdiv_zero hre him, cnan], herr⟩

/-- Settles O17: a square and a sum of squares have sign bit 0, and `fsqrt` keeps it. -/
theorem modulusNeverNegative : Obligations.ModulusNeverNegative := fun z => ⟨fsign_cmod z, cmod_nan⟩

end Sys2Proof.Machine
end

section
/-!
PROOFS of the statements on 41_bitrev.md. The bits of a reversal (`bitReverse_two_pow_testBit`) give its range and its
involution. BUILDTBL is its output place and one commit (`exec_buildtbl_ok`, `exec_buildtbl_error`), and what the
commit of a buffer command changes is said once (`bufferResult_commitPlace`).
-/

namespace Sys2Proof.Machine

open Sys2Proof.Claims

/-! ### Powers of two (R26) -/

theorem isPow2_iff_pow2 {n : Nat} : isPow2 n = true ↔ Pow2 n :=
  ⟨fun h => ⟨Nat.log2 n, (isPow2_iff.1 h).2.symm⟩, isPow2_of_pow2⟩

/-! ### LOG2F (R190, R192) -/

theorem ofInt_log2Floor_zero : BitVec.ofInt 64 (log2Floor 0) = 0xFFFFFFFFFFFFFFFF := by
  rw [log2Floor_eq (Nat.two_pow_pos 64), if_pos rfl]
  rfl

theorem ofInt_log2Floor_toNat {n : Nat} (hn : n < 2 ^ 64) (h0 : n ≠ 0) :
    (BitVec.ofInt 64 (log2Floor n)).toNat = Nat.log2 n := by
  have hlog : Nat.log2 n < 64 := (Nat.log2_lt h0).2 hn
  rw [log2Floor_eq hn, if_neg h0, BitVec.ofInt_natCast, BitVec.toNat_ofNat, Nat.mod_eq_of_lt (by omega)]

/-- Settles O25: the command is one write of `x[xd]`, and `log2_floor` is the bit length minus one. -/
theorem log2Command : Obligations.Log2Command := by
  refine ⟨fun xd xs1 => ⟨decodeInvertsEncode (.log2f xd xs1) rfl, fun s => ?_⟩, illegalWhen_of_row rfl rfl rfl⟩
  refine ⟨_, _, writesX_eq s xd _, onlyX_complete_setX s xd _, fun h0 => ?_, fun h0 => ?_⟩
  · rw [opNat, h0, ofInt_log2Floor_zero]
  · rw [opNat, ofInt_log2Floor_toNat (s.x xs1).isLt h0]
    exact ⟨Nat.log2_self_le h0, Nat.lt_log2_self⟩

/-! ### The reversal (R191, R195) -/

section Reversal

variable {L : Nat} (hL : L < 64)
include hL

theorem log2Bits_two_pow : log2Bits (2 ^ L) = L := by
  rw [log2Bits_eq (Nat.pow_lt_pow_right (by decide) hL), Nat.log2_two_pow]

theorem bitReverse_two_pow_testBit (n j : Nat) :
    (bitReverse (2 ^ L) n).testBit j = (decide (j < L) && n.testBit (L - 1 - j)) := by
  rw [bitReverse_testBit, log2Bits_two_pow hL]

theorem bitReverse_two_pow_lt (n : Nat) : bitReverse (2 ^ L) n < 2 ^ L := by
  refine Nat.lt_pow_two_of_testBit _ fun j hj => ?_
  rw [bitReverse_two_pow_testBit hL, decide_eq_false (by omega), Bool.false_and]

theorem bitReverse_bitReverse {k : Nat} (hk : k < 2 ^ L) : bitReverse (2 ^ L) (bitReverse (2 ^ L) k) = k := by
  refine Nat.eq_of_testBit_eq fun j => ?_
  rw [bitReverse_two_pow_testBit hL, bitReverse_two_pow_testBit hL]
  by_cases hj : j < L
  · rw [show L - 1 - (L - 1 - j) = j by omega, decide_eq_true hj, decide_eq_true (by omega : L - 1 - j < L),
      Bool.true_and, Bool.true_and]
  · have hhigh : k.testBit j = false :=
      Nat.testBit_lt_two_pow (hk.trans_le (Nat.pow_le_pow_right (by decide) (not_lt.1 hj)))
    rw [decide_eq_false hj, Bool.false_and, hhigh]

/-- Two slots with one entry are equal: reversing the entry gives back the slot. -/
theorem tableOf_two_pow_nodup : (tableOf (2 ^ L)).Nodup := by
  refine List.Nodup.map_on (fun j hj k hk hentry => ?_) List.nodup_range
  rw [← bitReverse_bitReverse hL (List.mem_range.1 hj), hentry, bitReverse_bitReverse hL (List.mem_range.1 hk)]

end Reversal

theorem tableOf_getElem? {n k : Nat} (hk : k < n) : (tableOf n)[k]? = some (bitReverse n k) := by
  rw [tableOf, List.getElem?_map, List.getElem?_range hk, Option.map_some]

/-- Settles O27: bit `j` goes to bit `L - 1 - j` and back, so no two slots hold one entry. -/
theorem reversalIsInvolution : Obligations.ReversalIsInvolution := fun L hL =>
  ⟨fun k hk => ⟨bitReverse_two_pow_lt hL k, bitReverse_bitReverse hL hk⟩, tableOf_two_pow_nodup hL,
    tableOf_length (2 ^ L), fun _ hk => tableOf_getElem? hk⟩

/-! ### BREV (R193) -/

theorem exec_brev_of_pow2 {s : State} {xs1 : RegIdx} (xd xs2 : RegIdx) (h : Pow2 (s.x xs1).toNat) :
    exec (.brev xd xs1 xs2) s =
      writesX s xd (BitVec.ofNat 64 (bitReverse (s.x xs1).toNat (s.x xs2).toNat)) :=
  congrArg (finish s) (if_pos (isPow2_of_pow2 h))

theorem exec_brev_of_not_pow2 {s : State} {xs1 : RegIdx} (xd xs2 : RegIdx) (h : ¬ Pow2 (s.x xs1).toNat) :
    exec (.brev xd xs1 xs2) s = .next (raised s .invalidSize) :=
  congrArg (finish s) (if_neg (mt isPow2_iff_pow2.1 h))

/-- Settles O26: for a power of two one write of `x[xd]`, with the bits of `bit_reverse`; else INVALID_SIZE. -/
theorem bitReverseCommand : Obligations.BitReverseCommand := by
  refine ⟨fun xd xs1 xs2 => ⟨decodeInvertsEncode (.brev xd xs1 xs2) rfl, fun s => ⟨fun L hsize => ?_,
    exec_brev_of_not_pow2 xd xs2⟩⟩, illegalWhen_of_row rfl rfl rfl⟩
  have hL : L < 64 := (Nat.pow_lt_pow_iff_right (a := 2) (by decide)).1 (hsize ▸ (s.x xs1).isLt)
  refine ⟨_, _, (exec_brev_of_pow2 xd xs2 ⟨L, hsize⟩).trans (writesX_eq s xd _), onlyX_complete_setX s xd _,
    fun j => ?_⟩
  rw [BitVec.getLsbD_ofNat, hsize, bitReverse_two_pow_testBit hL, ← BitVec.getLsbD, ← Bool.and_assoc,
    ← Bool.decide_and]
  congr 2
  exact propext (and_iff_right_of_imp fun hj => hj.trans hL)

/-! ### The output place (R87, R92) -/

theorem outputPlace_caller {s : State} {align base len : Nat} (h : Placed s align base len) :
    outputPlace s true align base len = .ok ⟨base, none⟩ :=
  if_pos (rangeOk_iff.2 h)

theorem outputPlace_caller_error {s : State} {align base len : Nat} (h : ¬ Placed s align base len) :
    outputPlace s true align base len = .error (.raise .addressError) :=
  if_neg (mt rangeOk_iff.1 h)

theorem outputPlace_pool {s : State} {len : Nat} (align callerBase : Nat) (h : PoolRoom s len) :
    ∃ stop, outputPlace s false align callerBase len = .ok ⟨16 * s.allocPtr.toNat, some stop⟩ := by
  obtain ⟨stop, halloc⟩ := exists_alloc_of_poolRoom h
  exact ⟨stop, by simp [outputPlace, halloc]⟩

theorem alloc_eq_none_of_not_poolRoom {s : State} {len : Nat} (h : ¬ PoolRoom s len) : alloc s len = none := by
  rw [alloc_none]
  unfold PoolRoom at h
  unfold poolAddr roundup16
  omega

theorem outputPlace_pool_error {s : State} {len : Nat} (align callerBase : Nat) (h : ¬ PoolRoom s len) :
    outputPlace s false align callerBase len = .error (.raise .allocationFailure) := by
  simp [outputPlace, alloc_eq_none_of_not_poolRoom h]

/-! ### The commit of a buffer command (R51, R60, R62) -/

section Commit

variable {s : State} {o : Bool} {align callerBase len : Nat} {p : Place}
  (hp : outputPlace s o align callerBase len = .ok p)
include hp

theorem base_lt_of_outputPlace : p.base < 2 ^ 32 := by
  obtain ⟨hin, -⟩ := outputPlace_ok hp
  have hbytes := (bmemBytes_legal s).2.2
  omega

theorem newPtr_isSome_of_outputPlace : p.newPtr.isSome = !o := by
  obtain ⟨-, ⟨rfl, rfl, -⟩ | ⟨rfl, -, hnew⟩⟩ := outputPlace_ok hp
  · rfl
  · rw [hnew]; rfl

theorem commitPlace_allocPtr_of_caller (u : State) (ho : o = true) : (commitPlace u p).allocPtr = u.allocPtr := by
  obtain ⟨-, ⟨-, rfl, -⟩ | ⟨rfl, -⟩⟩ := outputPlace_ok hp
  · rfl
  · cases ho

/-- ALLOC_PTR has room for the block's end, which is aligned and inside BMEM. -/
theorem commitPlace_allocPtr_of_pool (u : State) (ho : o = false) :
    16 * (commitPlace u p).allocPtr.toNat = p.base + roundup16 len := by
  obtain ⟨-, ⟨rfl, -⟩ | ⟨-, halloc, hnew⟩⟩ := outputPlace_ok hp
  · cases ho
  · obtain ⟨hbase, -, -, -, hstop⟩ := alloc_some halloc
    obtain ⟨-, -, hbytes⟩ := bmemBytes_legal s
    obtain ⟨-, -, hround⟩ := le_roundup16 len
    have haligned := poolAddr_aligned s.allocPtr
    rw [commitPlace, hnew]
    show 16 * (BitVec.ofNat 28 ((p.base + roundup16 len) / 16)).toNat = _
    rw [BitVec.toNat_ofNat, Nat.mod_eq_of_lt (by omega)]
    omega

/-- A buffer command that writes only inside its output place, then commits the place and completes. -/
theorem bufferResult_commitPlace {m : Memory}
    (hm : ∀ a, a < p.base ∨ p.base + len ≤ a → m.byte a = s.mem.byte a) :
    BufferResult s (complete (commitPlace (s.setMem m) p) .none) o p.base len := by
  have hstatus : Completed s (complete (commitPlace (s.setMem m) p) .none) .none (!o) := by
    rw [← newPtr_isSome_of_outputPlace hp]; rfl
  refine ⟨?_, commitPlace_allocPtr_of_caller hp (s.setMem m), commitPlace_allocPtr_of_pool hp (s.setMem m), hm,
    ⟨fun _ => rfl, rfl⟩, ⟨fun _ => rfl, rfl⟩, ⟨rfl, rfl, rfl, rfl, rfl, rfl, rfl, rfl, rfl, rfl, rfl, rfl⟩, rfl,
    hstatus⟩
  show (BitVec.ofNat 32 p.base).toNat = p.base
  rw [BitVec.toNat_ofNat, Nat.mod_eq_of_lt (base_lt_of_outputPlace hp)]

end Commit

/-! ### BUILDTBL (R194) -/

section BuildTable

variable {s : State} {o : Bool}

/-- Past the size check, BUILDTBL's body is its output place, then the commit. -/
theorem buildTable_of_pow2 (o : Bool) (hsize : Pow2 (sizeN s)) :
    buildTable o s = (outputPlace s o 4 s.tblBase.toNat (4 * sizeN s)).map (commitTable s (sizeN s)) := by
  have hpow : isPow2 s.size.toNat = true := isPow2_of_pow2 hsize
  simp only [buildTable, require, hpow, if_true, sizeN]
  cases outputPlace s o 4 s.tblBase.toNat (4 * s.size.toNat) <;> rfl

theorem exec_buildtbl_ok {p : Place} (hsize : Pow2 (sizeN s))
    (hp : outputPlace s o 4 s.tblBase.toNat (4 * sizeN s) = .ok p) :
    exec (.buildtbl o) s = .next (complete (commitTable s (sizeN s) p) .none) :=
  congrArg (finish s) ((buildTable_of_pow2 o hsize).trans (congrArg _ hp))

theorem exec_buildtbl_error {c : ErrCode} (hsize : Pow2 (sizeN s))
    (hp : outputPlace s o 4 s.tblBase.toNat (4 * sizeN s) = .error (.raise c)) :
    exec (.buildtbl o) s = .next (raised s c) :=
  congrArg (finish s) ((buildTable_of_pow2 o hsize).trans (congrArg _ hp))

theorem exec_buildtbl_invalidSize (o : Bool) (hsize : ¬ Pow2 (sizeN s)) :
    exec (.buildtbl o) s = .next (raised s .invalidSize) := by
  have hpow : isPow2 s.size.toNat = false := Bool.eq_false_iff.2 (mt isPow2_iff_pow2.1 hsize)
  have hbody : buildTable o s = .error (.raise .invalidSize) := by simp [buildTable, require, hpow]
  exact congrArg (finish s) hbody

/-- An entry is below N, so its 32 bits in BMEM hold it whole. -/
theorem bitReverse_sizeN_lt (hsize : Pow2 (sizeN s)) (k : Nat) : bitReverse (sizeN s) k < 2 ^ 32 := by
  have hlt : sizeN s < 2 ^ 32 := s.size.isLt
  obtain ⟨L, hL⟩ := hsize
  rw [hL] at hlt ⊢
  have hL32 : L < 32 := (Nat.pow_lt_pow_iff_right (by decide)).1 hlt
  exact (bitReverse_two_pow_lt (hL32.trans (by decide)) k).trans hlt

theorem memRead_commitTable (hsize : Pow2 (sizeN s)) (p : Place) {k : Nat} (hk : k < sizeN s) :
    memRead (commitTable s (sizeN s) p).mem (p.base + 4 * k) 4 = .ok (bitReverse (sizeN s) k) := by
  have hlen : k < (tableOf (sizeN s)).length := by rwa [tableOf_length]
  have hentry : (tableOf (sizeN s))[k] = bitReverse (sizeN s) k :=
    Option.some.inj ((List.getElem?_eq_getElem hlen).symm.trans (tableOf_getElem? hk))
  rw [commitTable_mem, memRead_writeEntries _ _ _ _ hlen, hentry, Nat.mod_eq_of_lt (bitReverse_sizeN_lt hsize k)]

/-- TBL_LEN and TBL_BASE, all that a table's commit changes beyond its place, are not in `BufferResult`. -/
theorem bufferResult_commitTable {p : Place} (hp : outputPlace s o 4 s.tblBase.toNat (4 * sizeN s) = .ok p) :
    BufferResult s (complete (commitTable s (sizeN s) p) .none) o p.base (4 * sizeN s) :=
  bufferResult_commitPlace hp fun _ ha => byte_writeEntries_outside _ _ (by rwa [tableOf_length])

theorem commitTable_tblLen_sizeN (s : State) (p : Place) : (commitTable s (sizeN s) p).tblLen = s.size := by
  rw [commitTable_tblLen, sizeN, BitVec.ofNat_toNat, BitVec.setWidth_eq]

/-- All that BUILDTBL does once its size and destination are accepted (last lines of R194). -/
theorem exec_buildtbl_builds {p : Place} (hsize : Pow2 (sizeN s))
    (hp : outputPlace s o 4 s.tblBase.toNat (4 * sizeN s) = .ok p) :
    ∃ t, exec (.buildtbl o) s = .next t ∧
      (∀ k, k < sizeN s → memRead t.mem (p.base + 4 * k) 4 = .ok (bitReverse (sizeN s) k)) ∧
      BufferResult s t o p.base (4 * sizeN s) ∧ t.tblLen = s.size ∧
      t.tblBase = if p.newPtr.isSome then t.resBase else s.tblBase :=
  ⟨_, exec_buildtbl_ok hsize hp, fun _ hk => memRead_commitTable hsize p hk, bufferResult_commitTable hp,
    commitTable_tblLen_sizeN s p, rfl⟩

end BuildTable

/-- Settles O28: the place is the caller's buffer, and the commit leaves TBL_BASE. -/
theorem buildTableInPlace : Obligations.BuildTableInPlace := fun _ hsize hplaced =>
  exec_buildtbl_builds hsize (outputPlace_caller hplaced)

/-- Settles O29: the place is the pool's block, and the commit points TBL_BASE and RES_BASE at it. -/
theorem buildTableInPool : Obligations.BuildTableInPool := by
  intro s hsize hroom
  obtain ⟨stop, hp⟩ := outputPlace_pool 4 s.tblBase.toNat hroom
  exact exec_buildtbl_builds hsize hp

/-- Settles O30: the size check comes first, then the output place raises its own code. -/
theorem buildTableErrors : Obligations.BuildTableErrors := by
  refine fun s o => ⟨exec_buildtbl_invalidSize o, fun hsize ho hplaced => ?_, fun hsize ho hroom => ?_⟩
  · subst ho
    exact exec_buildtbl_error hsize (outputPlace_caller_error hplaced)
  · subst ho
    exact exec_buildtbl_error hsize (outputPlace_pool_error 4 s.tblBase.toNat hroom)

end Sys2Proof.Machine
end

section
/-!
PROOFS of the statements on 42_fft.md. A successful FFT is its place, its permutation, its input and one commit
(`exec_fft_ok`, `exists_of_exec_fft`), and its output slots are those of the two phases (`twoPhases_fftDone`). The
stage angle and the impulse response rest on one fact: rounding a magnitude that has a pattern gives that pattern
(`fround64_grid`).
-/

namespace Sys2Proof.Machine

open Sys2Proof.Claims

/-! ### BFLY (R210) -/

theorem exec_bfly_of_ne {cd cs1 : RegIdx} (h : cd ≠ cs1) (cs2 : RegIdx) (s : State) :
    exec (.bfly cd cs1 cs2) s = .next (complete ((s.setC cd (cadd (s.c cd) (cmul (s.c cs2) (s.c cs1)))).setC cs1
      (csub (s.c cd) (cmul (s.c cs2) (s.c cs1)))) .none) :=
  congrArg (finish s) (if_neg h)

theorem exec_bfly_same (cd cs2 : RegIdx) (s : State) :
    exec (.bfly cd cd cs2) s = .next (raised s .illegalCommand) :=
  congrArg (finish s) (if_pos rfl)

theorem decode_bfly_same (cd cs2 : RegIdx) : decode (encR 0x31 cd cd cs2) = .error .bflySameRegister := by
  obtain ⟨row, hrow, hmask⟩ := encode_matches_row (.bfly cd cd cs2)
  have hopc : (0x31 : Nat) < 256 := by decide
  rw [encode] at hrow hmask
  rw [decode_row hrow, if_neg (not_not_intro hmask), fieldOpc_encR hopc]
  exact buildInstr_bfly_same (by rw [fieldRd_encR hopc, fieldRs1_encR hopc])

theorem setC_setC_crWritten (s : State) (i j : RegIdx) (z w : Cplx) (r : RegIdx) :
    ((s.setC i z).setC j w).crWritten[r.val] = if r = i ∨ r = j then ⟨true, true⟩ else s.crWritten[r.val] := by
  simp only [setC_crWritten, Vector.getElem_set, Fin.ext_iff, eq_comm (a := r.val)]
  split_ifs <;> tauto

/-- Settles O31: with distinct destinations two register writes from the old values, else the code of the word. -/
theorem butterflyCommand : Obligations.ButterflyCommand := by
  refine ⟨fun cd cs1 cs2 hne => ⟨decodeInvertsEncode (.bfly cd cs1 cs2) (bne_iff_ne.2 hne), fun s => ?_⟩,
    fun cd cs2 => ⟨decode_bfly_same cd cs2, exec_bfly_same cd cs2⟩, illegalWhen_of_row rfl rfl rfl⟩
  refine ⟨_, exec_bfly_of_ne hne cs2 s, ?_, ?_, fun r hcd hcs1 => ?_, fun r => ?_, ⟨fun _ => rfl, rfl⟩, fun _ => rfl,
    ⟨rfl, rfl, rfl, rfl, rfl, rfl, rfl, rfl, rfl, rfl, rfl, rfl⟩, ⟨rfl, rfl, rfl, rfl⟩, rfl, rfl⟩
  · rw [complete_c, setC_c_other _ _ _ _ hne, setC_c_same]
  · rw [complete_c, setC_c_same]
  · rw [complete_c, setC_c_other _ _ _ _ hcs1, setC_c_other _ _ _ _ hcd]
  · simp only [complete_crWritten, setC_setC_crWritten]

/-! ### The stage twiddle factor (R211) -/

theorem log2_grid {n k : Nat} (hn : n < 2 ^ 53) (hk : k = 0 ∨ 2 ^ 52 ≤ n) : Nat.log2 (n * 2 ^ k) - 52 = k := by
  rcases Nat.eq_zero_or_pos n with rfl | hpos
  · obtain rfl : k = 0 := by omega
    decide
  · have hne : n * 2 ^ k ≠ 0 := by positivity
    have hhigh : Nat.log2 (n * 2 ^ k) < 53 + k := (Nat.log2_lt hne).2 (significand_mul_pow_lt hn le_rfl)
    have hlow : k = 0 ∨ 52 + k ≤ Nat.log2 (n * 2 ^ k) := hk.imp_right fun h =>
      (Nat.le_log2 hne).2 (pow_add 2 52 k ▸ Nat.mul_le_mul_right _ h)
    omega

/-- A magnitude that has a pattern is rounded to that pattern. -/
theorem fround64_grid (neg : Bool) {n k den : Nat} (hn : n < 2 ^ 53) (hk : k = 0 ∨ 2 ^ 52 ≤ n) (hmax : k ≤ 2045)
    (hden : 0 < den) : fround64 neg (n * 2 ^ k * den) den = fpack neg (k * 2 ^ 52 + n) := by
  have hb : k * 2 ^ 52 + n ≤ infBits := by unfold infBits; omega
  rw [fround64, roundMag, Nat.mul_div_cancel _ hden, log2_grid hn hk, mul_assoc, mul_comm (2 ^ k),
    divRne_exact _ (by positivity), min_eq_left hb]

theorem fround64_of_fview {a : F64} {p : Bool} {m den : Nat} (ha : fview a = .fin p m) (hden : 0 < den) :
    fround64 p (m * den) den = a := by
  obtain ⟨k, n, hn, hk, hmax, rfl, rfl⟩ := fview_fin_grid ha
  exact fround64_grid p hn hk hmax hden

/-- A normal magnitude divided by a power of two is exact: only its exponent field drops. -/
theorem fround64_div_two_pow (neg : Bool) {n k j : Nat} (e : Nat) (hlow : 2 ^ 52 ≤ n) (hn : n < 2 ^ 53)
    (hk : k ≤ 2045) (hj : j ≤ k) :
    fround64 neg (n * 2 ^ k * 2 ^ e) (2 ^ (j + e)) = fpack neg ((k - j) * 2 ^ 52 + n) := by
  have hsplit : n * 2 ^ k * 2 ^ e = n * 2 ^ (k - j) * 2 ^ (j + e) := by
    rw [mul_assoc, mul_assoc, ← pow_add, ← pow_add, show k + e = k - j + (j + e) by omega]
  rw [hsplit, fround64_grid neg hn (.inr hlow) (by omega) (by positivity)]

theorem fview_f64OfNat_two_pow {j : Nat} (hj : j ≤ 971) : fview (f64OfNat (2 ^ j)) = .fin false (2 ^ (j + 1074)) := by
  have hunits : 2 ^ j * 2 ^ 1074 = 1 * 2 ^ (j + 1074) := by rw [one_mul, pow_add]
  rw [f64OfNat, hunits, fview_fround64_exact false (by decide) (by omega), one_mul]

/-- The numerator of every stage angle, -2 pi: 0x1921FB54442D18 units of the last place 2^1024. -/
theorem fview_neg_two_pi :
    fview (fneg (fmul (f64OfNat 2) pi64)) = .fin true (0x1921FB54442D18 * 2 ^ 1024) := by
  decide +kernel

theorem theta_eq {stage : Nat} (h : stage ≤ 971) :
    theta stage = fpack true ((1024 - stage) * 2 ^ 52 + 0x1921FB54442D18) :=
  (fdiv_fin fview_neg_two_pi (fview_f64OfNat_two_pow h) (Nat.two_pow_pos _).ne').trans
    (fround64_div_two_pow true 1074 (by decide) (by decide) (by decide) (by omega))

/-- Settles O34: each stage divides -2 pi by a power of two, which only lowers the exponent field. -/
theorem stageTwiddleFactor : Obligations.StageTwiddleFactor := by
  refine fun stage hlow hhigh => ⟨?_, by simp only [stageTwiddle, cexp, fexp, fcos, fsin]⟩
  rw [theta_eq (by omega), fpack_toNat (by omega), Bool.toNat_true]
  omega

/-! ### The two phases (R212, R213) -/

theorem twiddleAt_stageTwiddle (stage j : Nat) : twiddleAt (stageTwiddle stage) j = runningTwiddle stage j := by
  induction j with
  | zero => rfl
  | succ j ih => rw [twiddleAt_succ, ih]; rfl

/-- Slot `i` after stage `stage` of the transform. -/
def slotAfter (perm : List Nat) (input : List Cplx) (stage i : Nat) : Cplx :=
  (slotsAfter perm input stage).getD i default

/-- `n` distinct slots below `n` are all the slots. -/
theorem perm_range {perm : List Nat} {n : Nat} (hlen : perm.length = n) (hnodup : perm.Nodup)
    (hlt : ∀ v ∈ perm, v < n) : perm.Perm (List.range n) :=
  (List.subperm_of_subset hnodup fun v hv => List.mem_range.2 (hlt v hv)).perm_of_length_le
    (by rw [List.length_range, hlen])

theorem tableOf_two_pow_perm {L : Nat} (hL : L < 64) : (tableOf (2 ^ L)).Perm (List.range (2 ^ L)) := by
  refine perm_range (tableOf_length _) (tableOf_two_pow_nodup hL) fun v hv => ?_
  obtain ⟨k, -, rfl⟩ := List.mem_map.1 hv
  exact bitReverse_two_pow_lt hL k

theorem twoPhases_slotAfter {L : Nat} {perm : List Nat} {input : List Cplx} (hperm : perm.Perm (List.range (2 ^ L)))
    (hinput : input.length = 2 ^ L) : TwoPhases L perm input (slotAfter perm input) := by
  have hlen : perm.length = input.length := by rw [hinput, hperm.length_eq, List.length_range]
  have hlt : ∀ v ∈ perm, v < input.length := fun v hv => by
    rw [hinput]
    exact List.mem_range.1 (hperm.mem_iff.1 hv)
  refine ⟨permute_slot perm input hlen (hperm.nodup_iff.2 List.nodup_range) hlt, fun stage b j hlow hL hj hb => ?_⟩
  obtain ⟨s, rfl⟩ := Nat.exists_eq_add_of_le' hlow
  have hblocks : 2 ^ L = 2 ^ (L - (s + 1)) * 2 ^ (s + 1) := by rw [← pow_add, Nat.sub_add_cancel hL]
  have hslots := butterflyStage_slots (slotsAfter perm input s) s _ (by rw [slotsAfter_length, hinput, hblocks]) b j
    (Nat.le_of_mul_le_mul_right (hblocks ▸ hb) (by positivity)) hj
  rw [twiddleAt_stageTwiddle, ← slotsAfter_succ] at hslots
  exact hslots

theorem transform_slot {L : Nat} {input : List Cplx} (perm : List Nat) (hinput : input.length = 2 ^ L) (hL : L < 64)
    {i : Nat} (hi : i < 2 ^ L) : (transform perm input)[i]? = some (slotAfter perm input L i) := by
  rw [transform_eq_slotsAfter perm input L hL hinput, slotAfter, List.getD_eq_getElem?_getD,
    List.getElem?_eq_getElem (by rwa [slotsAfter_length, hinput]), Option.getD_some]

/-! ### What a successful FFT has done (R214, R215) -/

/-- The state FFT ends in, with the output elements `zs` at `p`. -/
def fftDone (s : State) (p : Place) (zs : List Cplx) : State :=
  complete (commitPlace (s.setMem (writeElements s.mem p.base zs)) p) .none

section Success

variable {s : State} {o t : Bool} {p : Place} {perm : List Nat} {input zs : List Cplx}

theorem exec_fft_ok (hplace : fftPlace o t s = .ok p) (hperm : fftPermutation t s = .ok perm)
    (hread : readElements s.mem s.inBase.toNat (sizeN s) = .ok input) :
    exec (.fft o t) s = .next (fftDone s p (transform perm input)) := by
  unfold sizeN at hread
  simp [exec, execFft, fftCommand, hplace, hperm, hread, fftDone]

theorem exists_of_exec_fft {u : State} (h : exec (.fft o t) s = .next u) (herr : u.status.err = .none) :
    ∃ p perm input, fftPlace o t s = .ok p ∧ fftPermutation t s = .ok perm ∧
      readElements s.mem s.inBase.toNat (sizeN s) = .ok input ∧ u = fftDone s p (transform perm input) := by
  obtain ⟨_, hok, rfl⟩ := ok_of_finish_err_none h herr (fftCommand_ne_raise_none _ _ _)
  obtain ⟨p, perm, input, hplace, hperm, hread, rfl⟩ := fftCommand_ok hok
  exact ⟨p, perm, input, hplace, hperm, hread, rfl⟩

theorem outputPlace_of_fftPlace (hplace : fftPlace o t s = .ok p) :
    outputPlace s o 8 s.outBase.toNat (16 * sizeN s) = .ok p := by
  obtain ⟨-, -, -, -, hp, -⟩ := fftPlace_ok hplace
  exact hp

theorem base_of_fftPlace (hplace : fftPlace o t s = .ok p) : p.base = outBaseOf s o := by
  obtain ⟨-, ⟨rfl, rfl, -⟩ | ⟨rfl, halloc, -⟩⟩ := outputPlace_ok (outputPlace_of_fftPlace hplace)
  · rfl
  · obtain ⟨hbase, -⟩ := alloc_some halloc
    exact hbase

theorem lt_64_of_sizeN_eq {L : Nat} (hL : sizeN s = 2 ^ L) : L < 64 :=
  (Nat.pow_lt_pow_iff_right (a := 2) (by decide)).1 (hL ▸ s.size.isLt.trans (by decide))

/-- The table is checked (R256), and the reversal of a power of two is a permutation (R195). -/
theorem perm_of_fftPermutation {L : Nat} (hL : sizeN s = 2 ^ L) (hperm : fftPermutation t s = .ok perm) :
    perm.Perm (List.range (2 ^ L)) := by
  rw [← hL]
  obtain ⟨hlen, ⟨-, -, hcheck⟩ | ⟨rfl, -⟩⟩ := fftPermutation_ok hperm
  · obtain ⟨hlt, hnodup⟩ : (∀ v ∈ perm, v < sizeN s) ∧ perm.Nodup := by
      simpa [isPermutation, sizeN] using hcheck
    exact perm_range hlen hnodup hlt
  · obtain rfl : tableOf (sizeN s) = perm := Except.ok.inj hperm
    rw [hL]
    exact tableOf_two_pow_perm (lt_64_of_sizeN_eq hL)

theorem bufferResult_fftDone (hplace : fftPlace o t s = .ok p) (hlen : zs.length = sizeN s) :
    BufferResult s (fftDone s p zs) o p.base (16 * sizeN s) :=
  bufferResult_commitPlace (outputPlace_of_fftPlace hplace) fun _ ha =>
    byte_writeElements_outside _ _ (by rwa [hlen])

theorem resBase_fftDone (hplace : fftPlace o t s = .ok p) : (fftDone s p zs).resBase.toNat = p.base :=
  (BitVec.toNat_ofNat _ _).trans (Nat.mod_eq_of_lt (base_lt_of_outputPlace (outputPlace_of_fftPlace hplace)))

theorem readC_fftDone (s : State) (p : Place) {i : Nat} {z : Cplx} (hz : zs[i]? = some z) :
    readC (fftDone s p zs).mem (p.base + 16 * i) = .ok z := by
  obtain ⟨hi, rfl⟩ := List.getElem?_eq_some_iff.1 hz
  exact readC_writeElements s.mem p.base zs i hi

/-- The output elements are the slots after the last of the two phases' stages. -/
theorem twoPhases_fftDone {L : Nat} (p : Place) (hL : sizeN s = 2 ^ L) (hperm : fftPermutation t s = .ok perm)
    (hinput : input.length = 2 ^ L) :
    TwoPhases L perm input (slotAfter perm input) ∧
      ∀ i, i < 2 ^ L →
        readC (fftDone s p (transform perm input)).mem (p.base + 16 * i) = .ok (slotAfter perm input L i) :=
  ⟨twoPhases_slotAfter (perm_of_fftPermutation hL hperm) hinput, fun _ hi =>
    readC_fftDone s p (transform_slot perm hinput (lt_64_of_sizeN_eq hL) hi)⟩

theorem exists_slots_of_exec_fft {u : State} {L : Nat} (h : exec (.fft o t) s = .next u)
    (herr : u.status.err = .none) (hL : sizeN s = 2 ^ L) :
    ∃ perm input out, fftPermutation t s = .ok perm ∧ readElements s.mem s.inBase.toNat (2 ^ L) = .ok input ∧
      TwoPhases L perm input out ∧ ∀ i, i < 2 ^ L → readC u.mem (u.resBase.toNat + 16 * i) = .ok (out L i) := by
  obtain ⟨p, perm, input, hplace, hperm, hread, rfl⟩ := exists_of_exec_fft h herr
  rw [hL] at hread
  rw [resBase_fftDone hplace]
  exact ⟨perm, input, _, hperm, hread, twoPhases_fftDone p hL hperm (readElements_length hread)⟩

end Success

/-- Settles O32: past the checks FFT writes the transform and commits its place, and the slots are the two phases'. -/
theorem transformCompletes : Obligations.TransformCompletes := by
  intro s o t perm input hplaced hpermutes hread
  obtain ⟨p, hplace⟩ := exists_fftPlace hplaced
  have hperm := fftPermutation_of_fftPermutes hpermutes
  have hinput := readElements_length hread
  have hlen : (transform perm input).length = sizeN s := (transform_length perm input).trans hinput
  rw [← base_of_fftPlace hplace]
  exact ⟨_, exec_fft_ok hplace hperm hread, hinput, hlen, fun i z hz => readC_fftDone s p hz,
    fun L hL => ⟨_, twoPhases_fftDone p hL hperm (hinput.trans hL)⟩, bufferResult_fftDone hplace hlen, rfl, rfl⟩

/-! ### What the reads of a range answer (R82, R85, R86) -/

/-- A sequential read succeeds only with its head read and its tail read. -/
theorem exists_of_bind_map_cons {α : Type} {r : Except Fault α} {tail : α → Except Fault (List α)} {l : List α}
    (h : (r.bind fun x => (tail x).map (x :: ·)) = .ok l) : ∃ x xs, r = .ok x ∧ tail x = .ok xs ∧ l = x :: xs := by
  cases r with
  | error f => cases h
  | ok x =>
    change (tail x).map (x :: ·) = .ok l at h
    cases hx : tail x with
    | error f => rw [hx] at h; cases h
    | ok xs => rw [hx] at h; cases h; exact ⟨x, xs, rfl, hx, rfl⟩

theorem memRead_of_readEntries {m : Memory} {b n : Nat} {es : List Nat} (h : readEntries m b n = .ok es) {i e : Nat}
    (hi : es[i]? = some e) : memRead m (b + 4 * i) 4 = .ok e := by
  induction n generalizing b es i with
  | zero => cases h; cases hi
  | succ n ih =>
    rw [readEntries_succ] at h
    obtain ⟨x, xs, hx, hxs, rfl⟩ := exists_of_bind_map_cons h
    cases i with
    | zero => cases hi; exact hx
    | succ i => rw [Nat.mul_succ, Nat.add_comm (4 * i), ← Nat.add_assoc]; exact ih hxs hi

theorem readC_of_readElements {m : Memory} {b n : Nat} {zs : List Cplx} (h : readElements m b n = .ok zs) {i : Nat}
    {z : Cplx} (hi : zs[i]? = some z) : readC m (b + 16 * i) = .ok z := by
  induction n generalizing b zs i with
  | zero => cases h; cases hi
  | succ n ih =>
    rw [readElements_succ] at h
    obtain ⟨x, xs, hx, hxs, rfl⟩ := exists_of_bind_map_cons h
    cases i with
    | zero => cases hi; exact hx
    | succ i => rw [Nat.mul_succ, Nat.add_comm (16 * i), ← Nat.add_assoc]; exact ih hxs hi

theorem readEntries_of_fftPermutation {s : State} {perm : List Nat} (h : fftPermutation true s = .ok perm) :
    readEntries s.mem s.tblBase.toNat (sizeN s) = .ok perm := by
  obtain ⟨-, ⟨-, hread, -⟩ | ⟨h, -⟩⟩ := fftPermutation_ok h
  · exact hread
  · cases h

/-! ### The impulse response (R219) -/

/-- Both components are zeros, of either sign. -/
def IsZero (z : Cplx) : Prop := (∃ p, fview z.re = .fin p 0) ∧ ∃ p, fview z.im = .fin p 0

/-- Both components are finite with sign bit 0. -/
def IsUnsigned (z : Cplx) : Prop := (∃ m, fview z.re = .fin false m) ∧ ∃ m, fview z.im = .fin false m

theorem isUnsigned_cone : IsUnsigned cone := ⟨⟨2 ^ 1074, by decide +kernel⟩, 0, by decide⟩

theorem isUnsigned_zero : IsUnsigned ⟨0, 0⟩ := ⟨⟨0, by decide⟩, 0, by decide⟩

theorem fadd_zero_right {a b : F64} {m : Nat} {q : Bool} (ha : fview a = .fin false m) (hb : fview b = .fin q 0) :
    fadd a b = a := by
  by_cases hm : m = 0
  · subst hm
    rw [fadd_zeros ha hb, eq_fzero_of_fview ha, Bool.false_and]
  · have hsum : signedMag false m + signedMag q 0 = m := by cases q <;> simp [signedMag]
    have hpos : ¬ (m : Int) < 0 := not_lt.2 (Int.natCast_nonneg m)
    rw [fadd_fin ha hb, hsum, if_neg (Int.natCast_ne_zero.2 hm), decide_eq_false hpos, Int.natAbs_natCast]
    exact Nat.mul_one m ▸ fround64_of_fview ha one_pos

theorem fsub_zero_right {a b : F64} {m : Nat} {q : Bool} (ha : fview a = .fin false m) (hb : fview b = .fin q 0) :
    fsub a b = a :=
  fadd_zero_right ha (fview_fneg_fin hb)

/-- A zero of either sign changes no bit of a sum or difference. -/
theorem cadd_csub_isZero {u z : Cplx} (hu : IsUnsigned u) (hz : IsZero z) : cadd u z = u ∧ csub u z = u := by
  obtain ⟨⟨_, hre⟩, _, him⟩ := hu
  obtain ⟨⟨_, hzre⟩, _, hzim⟩ := hz
  rw [cadd, csub, fadd_zero_right hre hzre, fadd_zero_right him hzim, fsub_zero_right hre hzre,
    fsub_zero_right him hzim]
  exact ⟨rfl, rfl⟩

theorem fmul_finite_zero {a b : F64} {q : Bool} (ha : Finite a) (hb : fview b = .fin q 0) :
    ∃ p, fview (fmul a b) = .fin p 0 := by
  obtain ⟨p, m, ha⟩ := ha
  exact ⟨p ^^ q, by rw [fmul_fin ha hb, Nat.mul_zero, fround64_zero, fview_fzero]⟩

/-- A finite twiddle times zero is a zero. -/
theorem isZero_cmul {w z : Cplx} (hre : Finite w.re) (him : Finite w.im) (hz : IsZero z) : IsZero (cmul w z) := by
  obtain ⟨⟨_, hzre⟩, _, hzim⟩ := hz
  obtain ⟨_, hrr⟩ := fmul_finite_zero hre hzre
  obtain ⟨_, hii⟩ := fmul_finite_zero him hzim
  obtain ⟨_, hri⟩ := fmul_finite_zero hre hzim
  obtain ⟨_, hir⟩ := fmul_finite_zero him hzre
  exact ⟨⟨_, (congrArg fview (fadd_zeros hrr (fview_fneg_fin hii))).trans (fview_fzero _)⟩,
    _, (congrArg fview (fadd_zeros hri hir)).trans (fview_fzero _)⟩

/-- Slot `i` after stage `stage` of an impulse: the first block holds ONE everywhere, the others zero. -/
def impulseSlot (stage i : Nat) : Cplx := if i < 2 ^ stage then cone else ⟨0, 0⟩

theorem isUnsigned_impulseSlot (stage i : Nat) : IsUnsigned (impulseSlot stage i) := by
  rw [impulseSlot]
  split
  · exact isUnsigned_cone
  · exact isUnsigned_zero

theorem isZero_impulseSlot {stage i : Nat} (h : 2 ^ stage ≤ i) : IsZero (impulseSlot stage i) := by
  rw [impulseSlot, if_neg (not_lt.2 h)]
  exact ⟨⟨false, by decide⟩, false, by decide⟩

/-- Every slot lies in the lower or the upper half of one block of a stage. -/
theorem exists_block {L s i : Nat} (hs : s + 1 ≤ L) (hi : i < 2 ^ L) :
    ∃ b j, j < 2 ^ s ∧ (b + 1) * 2 ^ (s + 1) ≤ 2 ^ L ∧
      (i = b * 2 ^ (s + 1) + j ∨ i = b * 2 ^ (s + 1) + j + 2 ^ s) := by
  have hblocks : 2 ^ L = 2 ^ (L - (s + 1)) * 2 ^ (s + 1) := by rw [← pow_add, Nat.sub_add_cancel hs]
  have hb : i / 2 ^ (s + 1) < 2 ^ (L - (s + 1)) := Nat.div_lt_of_lt_mul (by rwa [mul_comm, ← hblocks])
  have hi' := Nat.div_add_mod' i (2 ^ (s + 1))
  have hj : i % 2 ^ (s + 1) < 2 ^ (s + 1) := Nat.mod_lt _ (by positivity)
  have hhalf : 2 ^ (s + 1) = 2 ^ s + 2 ^ s := by rw [pow_succ, mul_two]
  rcases Nat.lt_or_ge (i % 2 ^ (s + 1)) (2 ^ s) with h | h
  · exact ⟨_, _, h, hblocks ▸ Nat.mul_le_mul_right _ hb, .inl hi'.symm⟩
  · exact ⟨_, i % 2 ^ (s + 1) - 2 ^ s, by omega, hblocks ▸ Nat.mul_le_mul_right _ hb, .inr (by omega)⟩

/-- A slot of an impulse is that of the lower half of its block one stage before. -/
theorem impulseSlot_lower_half {s b j i : Nat} (hj : j < 2 ^ s)
    (hij : i = b * 2 ^ (s + 1) + j ∨ i = b * 2 ^ (s + 1) + j + 2 ^ s) :
    impulseSlot s (b * 2 ^ (s + 1) + j) = impulseSlot (s + 1) i := by
  have hhalf : 2 ^ (s + 1) = 2 ^ s + 2 ^ s := by rw [pow_succ, mul_two]
  have hiff : b * 2 ^ (s + 1) + j < 2 ^ s ↔ i < 2 ^ (s + 1) := by
    rcases Nat.eq_zero_or_pos b with rfl | hpos
    · omega
    · have := Nat.le_mul_of_pos_left (2 ^ (s + 1)) hpos
      omega
  simp only [impulseSlot, hiff]

/-- The upper half of every block is zero, so each butterfly copies the lower half into both. -/
theorem twoPhases_impulse {L : Nat} {perm : List Nat} {input : List Cplx} {out : Nat → Nat → Cplx}
    (h : TwoPhases L perm input out) (htwiddles : TwiddlesFinite L)
    (hcopy : ∀ i, i < 2 ^ L → out 0 i = impulseSlot 0 i) {stage : Nat} (hstage : stage ≤ L) {i : Nat} (hi : i < 2 ^ L) :
    out stage i = impulseSlot stage i := by
  induction stage generalizing i with
  | zero => exact hcopy i hi
  | succ s ih =>
    obtain ⟨b, j, hj, hb, hij⟩ := exists_block hstage hi
    obtain ⟨hlow, hhigh⟩ := h.2 (s + 1) b j (by omega) hstage hj hb
    obtain ⟨hre, him⟩ := htwiddles (s + 1) j (by omega) hstage hj
    rw [Nat.add_sub_cancel] at hlow hhigh
    have hhalf : 2 ^ (s + 1) = 2 ^ s + 2 ^ s := by rw [pow_succ, mul_two]
    rw [Nat.succ_mul] at hb
    rw [ih (by omega) (by omega), ih (by omega) (by omega)] at hlow hhigh
    have hzero := isZero_cmul hre him (isZero_impulseSlot (stage := s) (i := b * 2 ^ (s + 1) + j + 2 ^ s) (by omega))
    obtain ⟨hadd, hsub⟩ := cadd_csub_isZero (isUnsigned_impulseSlot s (b * 2 ^ (s + 1) + j)) hzero
    have hfirst := impulseSlot_lower_half hj hij
    rcases hij with rfl | rfl
    · rw [hlow, hadd, hfirst]
    · rw [hhigh, hsub, hfirst]

/-- The copy of an impulse by a permutation that keeps slot 0. -/
theorem twoPhases_impulse_copy {L : Nat} {perm : List Nat} {input : List Cplx} {out : Nat → Nat → Cplx}
    (h : TwoPhases L perm input out) (hperm : perm.Perm (List.range (2 ^ L))) (hzero : perm[0]? = some 0)
    (hinput : ∀ k, k < 2 ^ L → input[k]? = some (impulseSlot 0 k)) {i : Nat} (hi : i < 2 ^ L) :
    out 0 i = impulseSlot 0 i := by
  obtain ⟨k, hk⟩ := List.mem_iff_getElem?.1 (hperm.mem_iff.2 (List.mem_range.2 hi))
  have hlt : k < 2 ^ L := by
    obtain ⟨hlt, -⟩ := List.getElem?_eq_some_iff.1 hk
    rwa [hperm.length_eq, List.length_range] at hlt
  rw [h.1 k i _ hk (hinput k hlt)]
  have hiff : k = 0 ↔ i = 0 := by
    refine ⟨fun h0 => ?_, fun h0 => ?_⟩
    · rw [h0, hzero] at hk
      exact (Option.some.inj hk).symm
    · have hnodup : perm.Nodup := hperm.nodup_iff.2 List.nodup_range
      exact (List.getElem?_inj (by rwa [hperm.length_eq, List.length_range]) hnodup).1 (by rw [hk, hzero, h0])
  simp only [impulseSlot, pow_zero, Nat.lt_one_iff, hiff]

theorem bitReverse_zero (n : Nat) : bitReverse n 0 = 0 :=
  Nat.eq_of_testBit_eq fun j => by rw [bitReverse_testBit, Nat.zero_testBit, Nat.zero_testBit, Bool.and_false]

theorem fftPermutation_head {s : State} {t : Bool} {perm : List Nat} (hperm : fftPermutation t s = .ok perm)
    (hpos : 0 < sizeN s) (htable : t = true → memRead s.mem s.tblBase.toNat 4 = .ok 0) : perm[0]? = some 0 := by
  cases t with
  | true =>
    have hread := readEntries_of_fftPermutation hperm
    have hhead := List.getElem?_eq_getElem (readEntries_length hread ▸ hpos : 0 < perm.length)
    have hentry := memRead_of_readEntries hread hhead
    rw [Nat.mul_zero, Nat.add_zero, htable rfl] at hentry
    rw [hhead, ← Except.ok.inj hentry]
  | false =>
    rw [← Except.ok.inj hperm]
    exact (tableOf_getElem? hpos).trans (congrArg some (bitReverse_zero (sizeN s)))

theorem cmod_cone : cmod cone = fone := by decide +kernel

/-- Settles O35: the slots of an impulse are ONE in a first block that doubles at each stage, and zero beyond it. -/
theorem impulseResponse : Obligations.ImpulseResponse := by
  intro s u o t L hL htwiddles hhead htail htable hexec herr i hi
  obtain ⟨perm, input, out, hpermutation, hread, hphases, hout⟩ := exists_slots_of_exec_fft hexec herr hL
  have hperm := perm_of_fftPermutation hL hpermutation
  have hinput (k : Nat) (hk : k < 2 ^ L) : input[k]? = some (impulseSlot 0 k) := by
    have hget := List.getElem?_eq_getElem (readElements_length hread ▸ hk : k < input.length)
    have hz := readC_of_readElements hread hget
    rw [hget]
    rcases Nat.eq_zero_or_pos k with rfl | hpos
    · exact congrArg _ (Except.ok.inj (hz.symm.trans hhead))
    · rw [htail k hpos hk] at hz
      rw [← Except.ok.inj hz, impulseSlot, if_neg (by omega)]
  have hzero := fftPermutation_head hpermutation (by rw [hL]; positivity) htable
  have hslot : out L i = cone := by
    rw [twoPhases_impulse hphases htwiddles (fun _ => twoPhases_impulse_copy hphases hperm hzero hinput) le_rfl hi,
      impulseSlot, if_pos hi]
  exact ⟨0, false, by rw [hout i hi, hslot]; rfl, by decide, cmod_cone⟩

/-! ### Small transforms (R220) -/

/-- Settles O36: one element is only copied, and two meet in the one butterfly of stage 1, with w = ONE. -/
theorem smallTransforms : Obligations.SmallTransforms := by
  refine fun s u o t hexec herr => ⟨fun hone => ?_, fun htwo ht => ?_⟩
  · obtain ⟨perm, input, out, hpermutation, hread, hphases, hout⟩ :=
      exists_slots_of_exec_fft (L := 0) hexec herr hone
    obtain rfl : perm = [0] := List.perm_singleton.1 (perm_of_fftPermutation (L := 0) hone hpermutation)
    obtain ⟨z, rfl⟩ := List.length_eq_one_iff.1 (readElements_length hread)
    refine ⟨z, readC_of_readElements (i := 0) hread rfl, ?_⟩
    rw [← hphases.1 0 0 z rfl rfl]
    exact hout 0 one_pos
  · subst ht
    obtain ⟨perm, input, out, hpermutation, hread, hphases, hout⟩ :=
      exists_slots_of_exec_fft (L := 1) hexec herr htwo
    have htable : tableOf (sizeN s) = [0, 1] := by rw [htwo]; decide
    obtain rfl : [0, 1] = perm := htable.symm.trans (Except.ok.inj hpermutation)
    obtain ⟨x0, x1, rfl⟩ := List.length_eq_two.1 (readElements_length hread)
    obtain ⟨hadd, hsub⟩ := hphases.2 1 0 0 le_rfl le_rfl one_pos le_rfl
    obtain rfl : out 0 0 = x0 := hphases.1 0 0 x0 rfl rfl
    obtain rfl : out 0 1 = x1 := hphases.1 1 1 x1 rfl rfl
    exact ⟨out 0 0, out 0 1, readC_of_readElements (i := 0) hread rfl, readC_of_readElements (i := 1) hread rfl,
      (hout 0 two_pos).trans (congrArg _ hadd), (hout 1 one_lt_two).trans (congrArg _ hsub)⟩

/-! ### A built table (R216) -/

/-- BUILDTBL leaves the reversal of its size at TBL_BASE. -/
theorem memRead_of_exec_buildtbl {s s1 : State} {o : Bool} (h : exec (.buildtbl o) s = .next s1)
    (herr : s1.status.err = .none) {k : Nat} (hk : k < sizeN s1) :
    memRead s1.mem (s1.tblBase.toNat + 4 * k) 4 = .ok (bitReverse (sizeN s1) k) := by
  obtain ⟨_, hok, rfl⟩ := ok_of_finish_err_none h herr (buildTable_ne_raise_none _ _)
  obtain ⟨hpow, p, hp, rfl⟩ := buildTable_ok hok
  have hbase : (commitTable s (sizeN s) p).tblBase.toNat = p.base := by
    obtain ⟨-, ⟨-, rfl, -⟩ | ⟨-, -, hnew⟩⟩ := outputPlace_ok hp
    · rfl
    · rw [commitTable, hnew]
      exact (BitVec.toNat_ofNat _ _).trans (Nat.mod_eq_of_lt (base_lt_of_outputPlace hp))
  have hentry := memRead_commitTable (isPow2_iff_pow2.1 hpow) p hk
  rw [← hbase] at hentry
  exact hentry

theorem eq_tableOf_of_readEntries {m : Memory} {b n : Nat} {es : List Nat} (h : readEntries m b n = .ok es)
    (hentry : ∀ k, k < n → memRead m (b + 4 * k) 4 = .ok (bitReverse n k)) : es = tableOf n := by
  have hlen := readEntries_length h
  refine List.ext_getElem (hlen.trans (tableOf_length n).symm) fun k hk hk' => ?_
  have hread := memRead_of_readEntries h (List.getElem?_eq_getElem hk)
  rw [hentry k (hlen ▸ hk)] at hread
  simpa [tableOf] using (Except.ok.inj hread).symm

theorem fftPlace_without_table {s : State} {o : Bool} {p : Place} (h : fftPlace o true s = .ok p) :
    fftPlace o false s = .ok p := by
  obtain ⟨hpow, -, hinput, -, hp, hapart, -⟩ := fftPlace_ok h
  simp [fftPlace, hpow, hinput, hp, hapart]

/-- Settles O37: the table FFT.T read is the reversal FFT computes, and FFT makes fewer checks. -/
theorem tableAndNoTableAgree : Obligations.TableAndNoTableAgree := by
  intro s s1 s2 u o o' hbuild hbuilt hsize hbase _ hbytes hexec herr
  obtain ⟨p, perm, input, hplace, hperm, hread, rfl⟩ := exists_of_exec_fft hexec herr
  have hN : sizeN s2 = sizeN s1 := congrArg BitVec.toNat hsize
  have hentries : perm = tableOf (sizeN s2) := by
    refine eq_tableOf_of_readEntries (readEntries_of_fftPermutation hperm) fun k hk => ?_
    rw [hN] at hk ⊢
    rw [hbase, ← memRead_of_exec_buildtbl hbuild hbuilt hk]
    refine memRead_congr fun c hlo hhi => ?_
    have hbyte := hbytes (c - s1.tblBase.toNat) (by omega)
    rwa [Nat.add_sub_cancel' (by omega)] at hbyte
  rw [hentries]
  exact exec_fft_ok (fftPlace_without_table hplace) rfl hread

/-! ### Determinism (R217) -/

/-- Two reads give one value where both succeed. -/
def AgreeOnSuccess {α : Type} (r r' : Except Fault α) : Prop := ∀ x y, r = .ok x → r' = .ok y → x = y

namespace AgreeOnSuccess

variable {α β : Type} {r r' : Except Fault α}

theorem refl (r : Except Fault α) : AgreeOnSuccess r r := fun _ _ hx hy => Except.ok.inj (hx.symm.trans hy)

theorem bind (h : AgreeOnSuccess r r') {f g : α → Except Fault β} (hfg : ∀ x, AgreeOnSuccess (f x) (g x)) :
    AgreeOnSuccess (r.bind f) (r'.bind g) := by
  intro x y hx hy
  cases r with
  | error e => cases hx
  | ok a =>
    cases r' with
    | error e => cases hy
    | ok a' =>
      obtain rfl := h a a' rfl rfl
      exact hfg a x y hx hy

theorem map (h : AgreeOnSuccess r r') (f : α → β) : AgreeOnSuccess (r.map f) (r'.map f) := by
  have hbind := h.bind (f := fun x => .ok (f x)) (g := fun x => .ok (f x)) fun _ => refl _
  cases r <;> cases r' <;> exact hbind

end AgreeOnSuccess

/-- The bytes from `a` on in `m` and from `a'` on in `m'` are the same, `n` of them. -/
def SameRange (m m' : Memory) (a a' n : Nat) : Prop := ∀ k, k < n → m.byte (a + k) = m'.byte (a' + k)

section Ranges

variable {m m' : Memory} {a a' : Nat}

theorem SameRange.part {n : Nat} (h : SameRange m m' a a' n) (i k : Nat) (hik : i + k ≤ n) :
    SameRange m m' (a + i) (a' + i) k := fun j hj => by
  rw [Nat.add_assoc, Nat.add_assoc]
  exact h (i + j) (by omega)

theorem agree_readBytes {n : Nat} (h : SameRange m m' a a' n) :
    AgreeOnSuccess (readBytes m a n) (readBytes m' a' n) := by
  intro bs bs' hbs hbs'
  obtain ⟨hlen, hbyte⟩ := written_of_readBytes hbs
  obtain ⟨hlen', hbyte'⟩ := written_of_readBytes hbs'
  refine List.ext_getElem (hlen.trans hlen'.symm) fun k hk hk' => ?_
  exact Option.some.inj ((hbyte k hk).symm.trans ((h k (hlen ▸ hk)).trans (hbyte' k hk')))

theorem agree_memRead {n : Nat} (h : SameRange m m' a a' n) : AgreeOnSuccess (memRead m a n) (memRead m' a' n) :=
  (agree_readBytes h).map leValue

theorem agree_readC (h : SameRange m m' a a' 16) : AgreeOnSuccess (readC m a) (readC m' a') := by
  rw [readC_eq_bind, readC_eq_bind]
  exact (agree_memRead (h.part 0 8 (by decide))).bind fun _ => (agree_memRead (h.part 8 8 (by decide))).map _

theorem agree_readElements {n : Nat} (h : SameRange m m' a a' (16 * n)) :
    AgreeOnSuccess (readElements m a n) (readElements m' a' n) := by
  induction n generalizing a a' with
  | zero => exact .refl _
  | succ n ih =>
    rw [readElements_succ, readElements_succ]
    exact (agree_readC (h.part 0 16 (by omega))).bind fun _ => (ih (h.part 16 (16 * n) (by omega))).map _

theorem agree_readEntries {n : Nat} (h : SameRange m m' a a' (4 * n)) :
    AgreeOnSuccess (readEntries m a n) (readEntries m' a' n) := by
  induction n generalizing a a' with
  | zero => exact .refl _
  | succ n ih =>
    rw [readEntries_succ, readEntries_succ]
    exact (agree_memRead (h.part 0 4 (by omega))).bind fun _ => (ih (h.part 4 (4 * n) (by omega))).map _

theorem sameRange_writeC (z : Cplx) : SameRange (writeC m a z) (writeC m' a' z) a a' 16 := by
  intro k hk
  simp only [writeC, byte_memWrite, Nat.add_sub_cancel_left]
  rcases Nat.lt_or_ge k 8 with h8 | h8
  · rw [if_neg (by omega), if_pos (by omega), if_neg (by omega), if_pos (by omega)]
  · rw [if_pos (by omega), if_pos (by omega), show a + k - (a + 8) = a' + k - (a' + 8) by omega]

theorem sameRange_writeElements (zs : List Cplx) :
    SameRange (writeElements m a zs) (writeElements m' a' zs) a a' (16 * zs.length) := by
  induction zs generalizing m m' a a' with
  | nil => exact fun k hk => absurd hk (Nat.not_lt_zero k)
  | cons z zs ih =>
    intro k hk
    rw [List.length_cons] at hk
    rw [writeElements, writeElements]
    rcases Nat.lt_or_ge k 16 with h16 | h16
    · rw [byte_writeElements_outside _ _ (by omega), byte_writeElements_outside _ _ (by omega)]
      exact sameRange_writeC z k h16
    · have htail := ih (m := writeC m a z) (m' := writeC m' a' z) (a := a + 16) (a' := a' + 16) (k - 16) (by omega)
      rwa [show a + 16 + (k - 16) = a + k by omega, show a' + 16 + (k - 16) = a' + k by omega] at htail

end Ranges

/-- The permutation depends on N and, with T = 1, on the table's bytes. -/
theorem fftPermutation_unique {s s' : State} {t : Bool} {perm perm' : List Nat} (hsize : s.size = s'.size)
    (htable : t = true → SameRange s.mem s'.mem s.tblBase.toNat s'.tblBase.toNat (4 * sizeN s))
    (h : fftPermutation t s = .ok perm) (h' : fftPermutation t s' = .ok perm') : perm = perm' := by
  have hN : sizeN s' = sizeN s := congrArg BitVec.toNat hsize.symm
  cases t with
  | true =>
    have hread' := readEntries_of_fftPermutation h'
    rw [hN] at hread'
    exact agree_readEntries (htable rfl) _ _ (readEntries_of_fftPermutation h) hread'
  | false => exact (Except.ok.inj h).symm.trans ((congrArg tableOf hN.symm).trans (Except.ok.inj h'))

/-- Settles O38: both transforms read one permutation and one input, and write one list of elements. -/
theorem transformIsDeterministic : Obligations.TransformIsDeterministic := by
  intro s1 s2 u1 u2 o1 o2 t hsize hinput htable hexec1 herr1 hexec2 herr2
  obtain ⟨p1, perm1, input1, hplace1, hperm1, hread1, rfl⟩ := exists_of_exec_fft hexec1 herr1
  obtain ⟨p2, perm2, input2, hplace2, hperm2, hread2, rfl⟩ := exists_of_exec_fft hexec2 herr2
  obtain rfl := fftPermutation_unique hsize htable hperm1 hperm2
  obtain rfl : input1 = input2 :=
    agree_readElements hinput _ _ hread1 (by rw [sizeN, hsize]; exact hread2)
  rw [resBase_fftDone hplace1, resBase_fftDone hplace2, ← readElements_length hread1, ← transform_length perm1 input1]
  exact sameRange_writeElements (transform perm1 input1)

end Sys2Proof.Machine
end

section
/-!
PROOFS of the statements on 43_transfer.md. Both commands check one element's range (`elementAddr`), then move a word
at a time: `HoldsWord` is what a read of eight bytes needs (`memRead_of_holdsWord`) and what a write of them leaves
(`holdsWord_memWrite_same`).
-/

namespace Sys2Proof.Machine

open Sys2Proof.Claims

/-! ### Words in BMEM (R82) -/

theorem memRead_of_holdsWord {m : Memory} {a : Nat} {v : Word64} (h : HoldsWord m a v) :
    memRead m a 8 = .ok v.toNat := by
  have hbytes : ∀ k < 8, m.byte (a + k) = some (BitVec.ofNat 8 (v.toNat / 256 ^ k)) := fun k hk => by
    rw [← extractLsb'_byte]
    exact h k hk
  rw [memRead, readBytes_of_written _ hbytes, Except.map, leValue_bytes, Nat.mod_eq_of_lt (by exact v.isLt)]

theorem holdsWord_memWrite_same (m : Memory) (a : Nat) (v : Word64) : HoldsWord (memWrite m a 8 v.toNat) a v :=
  fun k hk => by rw [byte_memWrite, if_pos (by omega), extractLsb'_byte, Nat.add_sub_cancel_left]

theorem holdsWord_memWrite_other {m : Memory} {a b n v : Nat} {w : Word64} (hapart : b + 8 ≤ a ∨ a + n ≤ b)
    (h : HoldsWord m b w) : HoldsWord (memWrite m a n v) b w :=
  fun k hk => (byte_memWrite_outside m (by omega)).trans (h k hk)

theorem readC_of_holdsWord {m : Memory} {a : Nat} {re im : Word64} (hre : HoldsWord m a re)
    (him : HoldsWord m (a + 8) im) : readC m a = .ok ⟨re, im⟩ := by
  simp [readC, memRead_of_holdsWord hre, memRead_of_holdsWord him]

theorem holdsWord_writeC (m : Memory) (a : Nat) (z : Cplx) :
    HoldsWord (writeC m a z) a z.re ∧ HoldsWord (writeC m a z) (a + 8) z.im :=
  ⟨holdsWord_memWrite_other (.inl le_rfl) (holdsWord_memWrite_same m a z.re),
    holdsWord_memWrite_same (memWrite m a 8 z.re.toNat) (a + 8) z.im⟩

/-! ### LDC and STC (R240, R241) -/

section Transfer

variable {s : State} {xs1 : RegIdx}

theorem elementAddr_of_placed (h : Placed s 8 (s.x xs1).toNat 16) : elementAddr s xs1 = .ok (s.x xs1).toNat :=
  if_pos (rangeOk_iff.2 h)

theorem elementAddr_of_not_placed (h : ¬ Placed s 8 (s.x xs1).toNat 16) :
    elementAddr s xs1 = .error (.raise .addressError) :=
  if_neg (mt rangeOk_iff.1 h)

theorem exec_ldc_ok (cd : RegIdx) {z : Cplx} (h : Placed s 8 (s.x xs1).toNat 16)
    (hread : readC s.mem (s.x xs1).toNat = .ok z) :
    exec (.ldc cd xs1) s = .next (complete (s.setC cd z) .none) := by
  simp [exec, execLdc, elementAddr_of_placed h, hread]

theorem exec_ldc_addressError (cd : RegIdx) (h : ¬ Placed s 8 (s.x xs1).toNat 16) :
    exec (.ldc cd xs1) s = .next (raised s .addressError) := by
  rw [exec, execLdc, elementAddr_of_not_placed h]
  rfl

theorem exec_stc_ok (cs2 : RegIdx) (h : Placed s 8 (s.x xs1).toNat 16) :
    exec (.stc cs2 xs1) s = .next (complete (s.setMem (writeC s.mem (s.x xs1).toNat (s.c cs2))) .none) := by
  simp [exec, execStc, elementAddr_of_placed h]

theorem exec_stc_addressError (cs2 : RegIdx) (h : ¬ Placed s 8 (s.x xs1).toNat 16) :
    exec (.stc cs2 xs1) s = .next (raised s .addressError) := by
  rw [exec, execStc, elementAddr_of_not_placed h]
  rfl

end Transfer

/-- Settles O40: the two words read are one element, and the command is one write of `c[cd]`. -/
theorem loadElement : Obligations.LoadElement := by
  refine ⟨fun cd xs1 => ⟨decodeInvertsEncode (.ldc cd xs1) rfl, fun s => ⟨fun re im hplaced hre him => ?_,
    exec_ldc_addressError cd⟩⟩, illegalWhen_of_row rfl rfl rfl⟩
  exact ⟨_, exec_ldc_ok cd hplaced (readC_of_holdsWord hre him), onlyC_complete_setC s cd ⟨re, im⟩⟩

/-- A command that ends in a write of the memory: `t.mem` is what it wrote, and of the rest only STATUS changes. -/
theorem exists_next_of_setMem {i : Instr} {s : State} {m : Memory}
    (h : exec i s = .next (complete (s.setMem m) .none)) :
    ∃ t, exec i s = .next t ∧ t.mem = m ∧ SameX s t ∧ SameC s t ∧ SameSetup s t ∧ SameResults s t ∧
      t.draws = s.draws ∧ Completed s t .none s.status.alloc :=
  ⟨_, h, rfl, ⟨fun _ => rfl, rfl⟩, ⟨fun _ => rfl, rfl⟩, ⟨rfl, rfl, rfl, rfl, rfl, rfl, rfl, rfl, rfl, rfl, rfl, rfl⟩,
    ⟨rfl, rfl, rfl, rfl⟩, rfl, rfl⟩

/-- Settles O41: the command is one `writeC` at the address, which leaves every byte outside its sixteen. -/
theorem storeElement : Obligations.StoreElement := by
  refine ⟨fun cs2 xs1 => ⟨decodeInvertsEncode (.stc cs2 xs1) rfl, fun s => ⟨fun hplaced => ?_,
    exec_stc_addressError cs2⟩⟩, illegalWhen_of_row rfl rfl rfl⟩
  obtain ⟨hre, him⟩ := holdsWord_writeC s.mem (s.x xs1).toNat (s.c cs2)
  obtain ⟨t, hexec, hmem, hframe⟩ := exists_next_of_setMem (exec_stc_ok cs2 hplaced)
  rw [← hmem] at hre him
  exact ⟨t, hexec, hre, him, fun c hc => by rw [hmem, byte_writeC_outside s.mem (s.c cs2) hc], hframe⟩

end Sys2Proof.Machine
end

section
/-!
PROOFS of the statements on 60_exceptions.md. Every command ends as `finish` of one body (`exists_commandBody`): a body
that succeeds changes the result registers only in FFT and BUILDTBL, and a body that stops either raises a code of its
row in R250 or faults at a byte never written. The order of R258 is that of the checks in `fftPlace`.
-/

namespace Sys2Proof.Machine

open Sys2Proof.Claims

/-! ### How a command can end (R250, R259) -/

/-- The commands that write the result registers (R51, R60). -/
def WritesResults (i : Instr) : Prop := (∃ o, i = .buildtbl o) ∨ ∃ o t, i = .fft o t

/-- STATUS.ALLOC and the registers only FFT and BUILDTBL write are as they were. -/
def KeepsResults (s u : State) : Prop := u.status.alloc = s.status.alloc ∧ SameResults s u

/-- The table of R250: the commands that can raise a code. -/
def CanRaise (i : Instr) : ErrCode → Prop
  | .none => False
  | .invalidSize => (∃ xd xs1 xs2, i = .brev xd xs1 xs2) ∨ (∃ o, i = .buildtbl o) ∨ ∃ o t, i = .fft o t
  | .allocationFailure => i = .buildtbl false ∨ ∃ t, i = .fft false t
  | .illegalCommand => ∃ cd cs2, i = .bfly cd cd cs2
  | .addressError =>
    (∃ o t, i = .fft o t) ∨ i = .buildtbl true ∨ (∃ cd xs1, i = .ldc cd xs1) ∨ ∃ cs2 xs1, i = .stc cs2 xs1
  | .overlap => ∃ o t, i = .fft o t
  | .tableInvalid => ∃ o, i = .fft o true

/-- How `i` can stop: with a code of its own, or at a byte never written (R91). -/
def CanStop (i : Instr) (s : State) : Stop → Prop
  | .raise c => CanRaise i c
  | .fault f => ∃ a, f = .unwrittenByte a ∧ s.mem.byte a = none

/-- `r` is what `i` does in `s` before its completion. -/
structure CommandBody (i : Instr) (s : State) (r : Except Stop State) : Prop where
  exec_eq : exec i s = finish s r
  results : ∀ u, r = .ok u → WritesResults i ∨ KeepsResults s u
  stops : ∀ e, r = .error e → CanStop i s e

theorem commandBody_ok {i : Instr} {s u : State} (h : exec i s = .next (complete u .none)) (hu : KeepsResults s u) :
    CommandBody i s (.ok u) where
  exec_eq := h
  results _ hok := .inr (Except.ok.inj hok ▸ hu)
  stops _ he := by cases he

theorem commandBody_raise {i : Instr} {s : State} {c : ErrCode} (h : exec i s = .next (raised s c))
    (hc : CanRaise i c) : CommandBody i s (.error (.raise c)) where
  exec_eq := h
  results _ hok := by cases hok
  stops _ he := Except.error.inj he ▸ hc

theorem keepsResults_setMem (s : State) (m : Memory) : KeepsResults s (s.setMem m) := ⟨rfl, rfl, rfl, rfl, rfl⟩

theorem exists_commandBody_of_writesC {i : Instr} {s u : State} {rd : RegIdx} {z : Cplx}
    (h : exec i s = writesC u rd z) (hu : KeepsResults s u) : ∃ r, CommandBody i s r :=
  ⟨_, commandBody_ok (h.trans (writesC_eq u rd z)) hu⟩

theorem exists_commandBody_of_writesX {i : Instr} {s : State} {rd : RegIdx} {v : Word64}
    (h : exec i s = writesX s rd v) : ∃ r, CommandBody i s r :=
  ⟨_, commandBody_ok (h.trans (writesX_eq s rd v)) ⟨rfl, rfl, rfl, rfl, rfl⟩⟩

theorem ReadsRange.unwritten {α : Type} {m : Memory} {a n : Nat} {r : Except Fault α} {f : Fault}
    (h : ReadsRange m a n r) (hr : r = .error f) : ∃ c, f = .unwrittenByte c ∧ m.byte c = none := by
  subst hr
  obtain ⟨c, hf, -, -, hnone⟩ := h
  exact ⟨c, hf, hnone⟩

theorem commandBody_buildtbl (o : Bool) (s : State) : CommandBody (.buildtbl o) s (buildTable o s) where
  exec_eq := rfl
  results _ _ := .inl (.inl ⟨o, rfl⟩)
  stops e he := by
    rcases buildTable_error he with ⟨-, rfl⟩ | ⟨-, hplace⟩
    · exact .inr (.inl ⟨o, rfl⟩)
    · rcases outputPlace_error hplace with ⟨rfl, rfl⟩ | ⟨rfl, rfl⟩
      · exact .inr (.inl rfl)
      · exact .inl rfl

theorem canStop_of_fftPlace {o t : Bool} {s : State} {e : Stop} (h : fftPlace o t s = .error e) :
    CanStop (.fft o t) s e := by
  rcases fftPlace_error h with hcode | hplace
  · simp only [List.mem_cons, List.not_mem_nil, or_false] at hcode
    rcases hcode with rfl | rfl | rfl
    · exact .inr (.inr ⟨o, t, rfl⟩)
    · exact .inl ⟨o, t, rfl⟩
    · exact ⟨o, t, rfl⟩
  · rcases outputPlace_error hplace with ⟨-, rfl⟩ | ⟨rfl, rfl⟩
    · exact .inl ⟨o, t, rfl⟩
    · exact .inr ⟨t, rfl⟩

/-- The ways FFT's permutation can stop it: the table cannot be read, or is no permutation (R256). -/
theorem fftPermutation_error {t : Bool} {s : State} {e : Stop} (h : fftPermutation t s = .error e) :
    t = true ∧ ((∃ f, readEntries s.mem s.tblBase.toNat s.size.toNat = .error f ∧ e = .fault f) ∨
      e = .raise .tableInvalid) := by
  cases t with
  | false => cases h
  | true =>
    refine ⟨rfl, ?_⟩
    rw [fftPermutation, if_pos rfl] at h
    split at h
    · next d hd => cases h; exact .inl (orFault_eq_error hd)
    · split at h
      · cases h
      · cases h; exact .inr rfl

theorem commandBody_fft (o t : Bool) (s : State) : CommandBody (.fft o t) s (fftCommand o t s) where
  exec_eq := rfl
  results _ _ := .inl (.inr ⟨o, t, rfl⟩)
  stops e he := by
    rcases fftCommand_error he with hplace | ⟨_, -, hperm | ⟨_, f, -, hread, rfl⟩⟩
    · exact canStop_of_fftPlace hplace
    · obtain ⟨rfl, ⟨f, hread, rfl⟩ | rfl⟩ := fftPermutation_error hperm
      · exact (readsRange_readEntries _ _ _).unwritten hread
      · exact ⟨o, rfl⟩
    · exact (readsRange_readElements _ _ _).unwritten hread

theorem exists_commandBody_ldc (cd xs1 : RegIdx) (s : State) : ∃ r, CommandBody (.ldc cd xs1) s r := by
  by_cases hplaced : Placed s 8 (s.x xs1).toNat 16
  · cases hread : readC s.mem (s.x xs1).toNat with
    | ok z => exact ⟨_, commandBody_ok (exec_ldc_ok cd hplaced hread) ⟨rfl, rfl, rfl, rfl, rfl⟩⟩
    | error f =>
      refine ⟨.error (.fault f), exec_ldc_fault hplaced hread, fun _ hok => (by cases hok), fun e he => ?_⟩
      cases he
      exact (readsRange_readC _ _).unwritten hread
  · exact ⟨_, commandBody_raise (exec_ldc_addressError cd hplaced) (.inr (.inr (.inl ⟨cd, xs1, rfl⟩)))⟩

/-- Every command ends as `finish` of its body. -/
theorem exists_commandBody (i : Instr) (s : State) : ∃ r, CommandBody i s r := by
  cases i with
  | cmk | cmkre | cmkim | cadd | csub | cmul | cdiv | cexp | cconj | crecip =>
    exact exists_commandBody_of_writesC (u := s) rfl ⟨rfl, rfl, rfl, rfl, rfl⟩
  | crand => exact exists_commandBody_of_writesC (u := s.drawn 2) rfl ⟨rfl, rfl, rfl, rfl, rfl⟩
  | ceq | ceqr | cmod | carg | log2f => exact exists_commandBody_of_writesX rfl
  | brev xd xs1 xs2 =>
    by_cases hsize : Pow2 (s.x xs1).toNat
    · exact exists_commandBody_of_writesX (exec_brev_of_pow2 xd xs2 hsize)
    · exact ⟨_, commandBody_raise (exec_brev_of_not_pow2 xd xs2 hsize) (.inl ⟨xd, xs1, xs2, rfl⟩)⟩
  | buildtbl o => exact ⟨_, commandBody_buildtbl o s⟩
  | fft o t => exact ⟨_, commandBody_fft o t s⟩
  | bfly cd cs1 cs2 =>
    by_cases hne : cd = cs1
    · subst hne
      exact ⟨_, commandBody_raise (exec_bfly_same cd cs2 s) ⟨cd, cs2, rfl⟩⟩
    · exact ⟨_, commandBody_ok (exec_bfly_of_ne hne cs2 s) ⟨rfl, rfl, rfl, rfl, rfl⟩⟩
  | ldc cd xs1 => exact exists_commandBody_ldc cd xs1 s
  | stc cs2 xs1 =>
    by_cases hplaced : Placed s 8 (s.x xs1).toNat 16
    · exact ⟨_, commandBody_ok (exec_stc_ok cs2 hplaced) (keepsResults_setMem s _)⟩
    · exact ⟨_, commandBody_raise (exec_stc_addressError cs2 hplaced) (.inr (.inr (.inr ⟨cs2, xs1, rfl⟩)))⟩

/-- A command that ends succeeded, keeping the result registers unless it is one that writes them, or raised a code of
its row in R250. -/
theorem exec_next_body {i : Instr} {s t : State} (h : exec i s = .next t) :
    (∃ u, t = complete u .none ∧ (WritesResults i ∨ KeepsResults s u)) ∨ ∃ c, t = complete s c ∧ CanRaise i c := by
  obtain ⟨r, hbody⟩ := exists_commandBody i s
  rcases finish_next (hbody.exec_eq ▸ h) with ⟨u, hok, ht⟩ | ⟨c, hc, ht⟩
  · exact .inl ⟨u, ht, hbody.results u hok⟩
  · exact .inr ⟨c, ht, hbody.stops _ hc⟩

/-- Settles O45: a code other than 0 was raised by the command's body. -/
theorem codesByCommand : Obligations.CodesByCommand := by
  intro i s t h
  have hraised (c : ErrCode) (hc : c ≠ .none) (herr : t.status.err = c) : CanRaise i c := by
    subst herr
    rcases exec_next_body h with ⟨u, rfl, -⟩ | ⟨c, rfl, hcan⟩
    · exact absurd rfl hc
    · exact hcan
  exact ⟨hraised .invalidSize nofun, hraised .allocationFailure nofun, hraised .illegalCommand nofun,
    hraised .addressError nofun, hraised .overlap nofun, hraised .tableInvalid nofun⟩

/-! ### Completion (R259) -/

theorem CmdEffect.hz_eq {s u : State} (h : CmdEffect s u) : u.status.hz = s.status.hz := by
  cases h <;> rfl

theorem sameSetup_setMem (s : State) (m : Memory) : SameSetup s (s.setMem m) :=
  ⟨rfl, rfl, rfl, rfl, rfl, rfl, rfl, rfl, rfl, rfl, rfl, rfl⟩

theorem CmdEffect.sameSetup {s u : State} (h : CmdEffect s u) : SameSetup s u := by
  cases h with
  | complexResult | drawnResult | integerResult | butterfly | table | spectrum =>
    exact ⟨rfl, rfl, rfl, rfl, rfl, rfl, rfl, rfl, rfl, rfl, rfl, rfl⟩
  | element => exact sameSetup_setMem s _

/-- A command that ends has completed, and kept HZ and the operand registers. -/
theorem completed_of_exec {i : Instr} {s t : State} (h : exec i s = .next t) :
    t.status.busy = false ∧ t.status.done = true ∧ t.status.hz = s.status.hz ∧ SameSetup s t := by
  rcases exec_next h with ⟨u, hu, rfl⟩ | ⟨c, rfl⟩
  · exact ⟨rfl, rfl, hu.hz_eq, hu.sameSetup⟩
  · exact ⟨rfl, rfl, rfl, rfl, rfl, rfl, rfl, rfl, rfl, rfl, rfl, rfl, rfl, rfl, rfl⟩

/-- Settles O44: a raised code changes ERR, BUSY and DONE only, and of the bodies only two write the results. -/
theorem completionOfEveryCommand : Obligations.CompletionOfEveryCommand := by
  intro i s t h
  obtain ⟨hbusy, hdone, hhz, hsetup⟩ := completed_of_exec h
  refine ⟨hbusy, hdone, hhz, hsetup, fun hchanged => ?_⟩
  have hnot : ¬ KeepsResults s t := fun ⟨halloc, hsame⟩ => hchanged.elim (· halloc) (· hsame)
  rcases exec_next_body h with ⟨u, rfl, hwrites | hkeeps⟩ | ⟨c, rfl, -⟩
  · exact ⟨rfl, hwrites⟩
  · exact absurd hkeeps hnot
  · exact absurd ⟨rfl, rfl, rfl, rfl, rfl⟩ hnot

/-- A command completes, or faults at a byte never written. -/
theorem exec_completes_or_faults (i : Instr) (s : State) :
    (∃ t, exec i s = .next t ∧ t.status.busy = false ∧ t.status.done = true) ∨
      ∃ a, exec i s = .fault (.unwrittenByte a) ∧ s.mem.byte a = none := by
  obtain ⟨r, hbody⟩ := exists_commandBody i s
  have hexec := hbody.exec_eq
  match r with
  | .ok u => exact .inl ⟨_, hexec, rfl, rfl⟩
  | .error (.raise c) => exact .inl ⟨_, hexec, rfl, rfl⟩
  | .error (.fault f) =>
    obtain ⟨a, rfl, hnone⟩ := hbody.stops _ rfl
    exact .inr ⟨a, hexec, hnone⟩

/-- Settles O6: an illegal word and a raced command complete at once, and any other ends as its body does. -/
theorem pendingCommandCompletes : Obligations.PendingCommandCompletes := by
  intro s hready
  rw [step_of_engineReady hready]
  obtain ⟨hreset, hbusy, -⟩ := hready
  rcases engineTurn_cases (turned s) with ⟨hidle, -⟩ | ⟨-, -, ⟨e, -, he⟩ | ⟨i, -, -, he⟩ | ⟨i, -, -, he⟩⟩
  · change s.resetAsserted = true ∨ s.status.busy = false at hidle
    simp [hreset, hbusy] at hidle
  · exact .inl ⟨_, he, rfl, rfl⟩
  · rw [he]
    exact exec_completes_or_faults i (turned s)
  · exact .inl ⟨_, he, rfl, rfl⟩

/-! ### The order of FFT's checks (R258) -/

theorem isPow2_eq_false {n : Nat} (h : ¬ Pow2 n) : isPow2 n = false := Bool.eq_false_iff.2 (mt isPow2_iff_pow2.1 h)

theorem rangeOk_eq_false {s : State} {align base len : Nat} (h : ¬ Placed s align base len) :
    rangeOk s align base len = false :=
  Bool.eq_false_iff.2 (mt rangeOk_iff.1 h)

theorem overlap_eq_true {a la b lb : Nat} (h : ¬ Apart a la b lb) : overlap a la b lb = true :=
  Bool.eq_true_of_not_eq_false (mt overlap_eq_false_iff.1 h)

section Checks

variable {s : State} {o t : Bool}

theorem fftPlace_invalidSize (h : ¬ Pow2 (sizeN s) ∨ (t = true ∧ s.tblLen ≠ s.size)) :
    fftPlace o t s = .error (.raise .invalidSize) := by
  rcases h with hpow | ⟨rfl, hlen⟩
  · have hpow' : isPow2 s.size.toNat = false := isPow2_eq_false hpow
    simp [fftPlace, hpow']
  · simp [fftPlace, hlen]

variable (hpow : Pow2 (sizeN s)) (hlen : t = true → s.tblLen = s.size)
include hpow hlen

/-- Past the checks of size and input, the output place is next. -/
theorem fftPlace_of_outputPlace_error {e : Stop} (hinput : Placed s 8 s.inBase.toNat (16 * sizeN s))
    (htable : t = true → Placed s 4 s.tblBase.toNat (4 * sizeN s))
    (he : outputPlace s o 8 s.outBase.toNat (16 * sizeN s) = .error e) : fftPlace o t s = .error e := by
  have hpow' : isPow2 s.size.toNat = true := isPow2_of_pow2 hpow
  have hinput' := rangeOk_iff.2 hinput
  unfold sizeN at *
  cases t with
  | false => simp [fftPlace, hpow', hinput', he]
  | true => simp [fftPlace, hpow', hlen, hinput', rangeOk_iff.2 (htable rfl), he]

/-- Past the size checks, the places of the input, the table and the caller's buffer are next. -/
theorem fftPlace_addressError
    (h : ¬ Placed s 8 s.inBase.toNat (16 * sizeN s) ∨ (t = true ∧ ¬ Placed s 4 s.tblBase.toNat (4 * sizeN s)) ∨
      (o = true ∧ ¬ Placed s 8 s.outBase.toNat (16 * sizeN s))) :
    fftPlace o t s = .error (.raise .addressError) := by
  have hpow' : isPow2 s.size.toNat = true := isPow2_of_pow2 hpow
  by_cases hinput : Placed s 8 s.inBase.toNat (16 * sizeN s)
  · by_cases htable : t = true → Placed s 4 s.tblBase.toNat (4 * sizeN s)
    · obtain ⟨rfl, hout⟩ := (h.resolve_left (not_not_intro hinput)).resolve_left fun ⟨ht, hn⟩ => hn (htable ht)
      exact fftPlace_of_outputPlace_error hpow hlen hinput htable (outputPlace_caller_error hout)
    · obtain ⟨rfl, hfar⟩ := Classical.not_imp.1 htable
      have htable' : rangeOk s 4 s.tblBase.toNat (4 * s.size.toNat) = false := rangeOk_eq_false hfar
      simp [fftPlace, hpow', hlen, htable']
  · have hinput' : rangeOk s 8 s.inBase.toNat (16 * s.size.toNat) = false := rangeOk_eq_false hinput
    simpa [fftPlace, hpow', hinput'] using hlen

/-- An output place that is found must keep apart from the input and the table. -/
theorem fftPlace_overlap {p : Place} (hinput : Placed s 8 s.inBase.toNat (16 * sizeN s))
    (htable : t = true → Placed s 4 s.tblBase.toNat (4 * sizeN s))
    (hp : outputPlace s o 8 s.outBase.toNat (16 * sizeN s) = .ok p)
    (h : ¬ Apart p.base (16 * sizeN s) s.inBase.toNat (16 * sizeN s) ∨
      (t = true ∧ ¬ Apart p.base (16 * sizeN s) s.tblBase.toNat (4 * sizeN s))) :
    fftPlace o t s = .error (.raise .overlap) := by
  have hpow' : isPow2 s.size.toNat = true := isPow2_of_pow2 hpow
  have hinput' := rangeOk_iff.2 hinput
  unfold sizeN at *
  cases t with
  | false =>
    have hover := overlap_eq_true (h.resolve_right (by simp))
    simp [fftPlace, hpow', hinput', hp, hover]
  | true =>
    simp only [fftPlace, hpow', hlen, hinput', rangeOk_iff.2 (htable rfl), hp]
    rcases h with hover | ⟨-, hover⟩
    · simp [overlap_eq_true hover]
    · simp [overlap_eq_true hover]

end Checks

theorem exec_fft_place_raise {s : State} {o t : Bool} {c : ErrCode} (h : fftPlace o t s = .error (.raise c)) :
    exec (.fft o t) s = .next (raised s c) := by
  rw [exec, execFft, fftCommand, h]
  rfl

/-- Past every check of R214, a table that is no permutation is the last error. -/
theorem exec_fft_tableInvalid {s : State} {o : Bool} {es : List Nat} (hplaced : FftPlaced s o true)
    (hread : readEntries s.mem s.tblBase.toNat (sizeN s) = .ok es) (hes : ¬ ((∀ v ∈ es, v < sizeN s) ∧ es.Nodup)) :
    exec (.fft o true) s = .next (raised s .tableInvalid) := by
  obtain ⟨p, hplace⟩ := exists_fftPlace hplaced
  have hcheck : isPermutation es (sizeN s) = false := by simpa [isPermutation] using hes
  unfold sizeN at *
  have hperm : fftPermutation true s = .error (.raise .tableInvalid) := by simp [fftPermutation, hread, hcheck]
  rw [exec, execFft, fftCommand, hplace, hperm]
  rfl

/-- Settles O33: each link of the chain is the next check of `fftPlace`, and the table is judged last. -/
theorem transformRaisesFirstError : Obligations.TransformRaisesFirstError := by
  intro s o t es c hfirst htable
  rw [fftFirstError] at hfirst
  split at hfirst
  · next hsize => cases hfirst; exact exec_fft_place_raise (fftPlace_invalidSize hsize)
  next hsize =>
  obtain ⟨hpow, hlen⟩ : Pow2 (sizeN s) ∧ (t = true → s.tblLen = s.size) := by simpa using hsize
  split at hfirst
  · next haddr => cases hfirst; exact exec_fft_place_raise (fftPlace_addressError hpow hlen haddr)
  next haddr =>
  simp only [not_or, not_and, not_not] at haddr
  obtain ⟨hinput, htbl, hcaller⟩ := haddr
  split at hfirst
  · next hpool =>
    cases hfirst
    obtain ⟨rfl, hroom⟩ := hpool
    exact exec_fft_place_raise
      (fftPlace_of_outputPlace_error hpow hlen hinput htbl (outputPlace_pool_error 8 s.outBase.toNat hroom))
  next hpool =>
  simp only [not_and, not_not] at hpool
  split at hfirst
  · next hover =>
    cases hfirst
    obtain ⟨p, hp, hbase⟩ := exists_outputPlace hcaller hpool
    rw [← hbase] at hover
    exact exec_fft_place_raise (fftPlace_overlap hpow hlen hinput htbl hp hover)
  next hover =>
  simp only [not_or, not_and, not_not] at hover
  obtain ⟨hapart, htapart⟩ := hover
  split at hfirst
  · next hperm =>
    cases hfirst
    obtain ⟨rfl, hes⟩ := hperm
    exact exec_fft_tableInvalid ⟨hpow, hlen, hinput, htbl, hcaller, hpool, hapart, htapart⟩ (htable rfl) hes
  · cases hfirst

end Sys2Proof.Machine
end

section
/-!
PROOFS of the statements on 70_reset_and_hazards.md, first part: R282 in this model. Two states that differ only in
unwritten registers (`SameWritten`) are carried move by move to two such states: every update either leaves the
registers alone (`SameWritten.map`) or writes the same value to the same register in both, because what it reads is
written in both (`SameWritten.operands_eq`, `regValue_eq`, `pendingFootprint_eq`).
-/

namespace Sys2Proof.Machine

open Sys2Proof.Claims

/-- The port looks at BMEM, its size and the count of draws only. -/
theorem portBytes_congr {s t : State} (hmem : t.mem = s.mem) (hblocks : t.bmemBlocks = s.bmemBlocks)
    (hdraws : t.draws = s.draws) (ranges : List (Nat × Nat)) (k a n : Nat) :
    portBytes t ranges k a n = portBytes s ranges k a n := by
  have hranges (a : Nat) : inRanges t ranges a = inRanges s ranges a := by
    rw [inRanges, inRanges, State.bmemBytes, State.bmemBytes, hblocks]
  have hfree (k : Nat) : t.freeBits k = s.freeBits k := by simp only [State.freeBits, hdraws]
  induction n generalizing k a with
  | zero => rfl
  | succ n ih => rw [portBytes, portBytes, ih, hmem, hranges, hfree]

theorem windowWritten_of_readableBusy (s : State) {r : HostReg} (h : readableBusy r = true) :
    windowWritten s r = true := by
  cases r with
  | x | cRe | cIm => cases h
  | _ => rfl

/-! ### States that differ in unwritten registers (R282; log 1) -/

namespace SameWritten

section Updates

variable {s t : State} (h : SameWritten s t)
include h

theorem status_eq : t.status = s.status := by rw [← h.rest]

theorem lastCmd_eq : t.lastCmd = s.lastCmd := by rw [← h.rest]

theorem resetAsserted_eq : t.resetAsserted = s.resetAsserted := by rw [← h.rest]

theorem raced_eq : t.raced = s.raced := by rw [← h.rest]

theorem bmemBlocks_eq : t.bmemBlocks = s.bmemBlocks := by rw [← h.rest]

theorem draws_eq : t.draws = s.draws := by rw [← h.rest]

theorem freeBits_eq (k : Nat) : t.freeBits k = s.freeBits k := by rw [State.freeBits, State.freeBits, h.draws_eq]

theorem script_eq : t.script = s.script := by rw [← h.rest]

theorem mem_eq : t.mem = s.mem := by rw [← h.rest]

theorem exists_eq : ∃ a b, t = { s with xr := a, cr := b } := ⟨t.xr, t.cr, by rw [← h.rest]⟩

/-- The relation is kept by every update that neither reads nor writes a register or a mark. -/
theorem map (f : State → State)
    (hf : ∀ a b, f { s with xr := a, cr := b } = { f s with xr := a, cr := b } := by intros; rfl)
    (hx : (f s).xrWritten = s.xrWritten := by rfl) (hc : (f s).crWritten = s.crWritten := by rfl) :
    SameWritten (f s) (f t) := by
  obtain ⟨a, b, rfl⟩ := h.exists_eq
  have hs : f s = { f s with xr := s.xr, cr := s.cr } := hf s.xr s.cr
  have hxr : (f s).xr = s.xr := by rw [hs]
  have hcr : (f s).cr = s.cr := by rw [hs]
  rw [hf a b]
  refine ⟨fun i hi => ?_, fun i hi => ?_, fun i hi => ?_, rfl⟩
  · simp only [State.xIsWritten, hx] at hi
    simpa only [State.x, hxr] using h.x i hi
  · simp only [hc] at hi
    simpa only [State.c, hcr] using h.cRe i hi
  · simp only [hc] at hi
    simpa only [State.c, hcr] using h.cIm i hi

theorem setMem (m : Memory) : SameWritten (s.setMem m) (t.setMem m) := h.map (·.setMem m)

theorem setX (i : RegIdx) (v : Word64) : SameWritten (s.setX i v) (t.setX i v) := by
  refine ⟨fun j hj => ?_, h.cRe, h.cIm, ?_⟩
  · by_cases hji : j = i
    · subst hji
      simp
    · have hv : i.val ≠ j.val := fun e => hji (Fin.ext e.symm)
      simp only [State.xIsWritten, setX_xrWritten, Vector.getElem_set_ne _ _ hv] at hj
      simpa [hji] using h.x j hj
  · obtain ⟨a, b, rfl⟩ := h.exists_eq
    rfl

/-- Writing the same value to the same components of a complex register, and marking them. -/
theorem setComponents (i : RegIdx) (z w : Cplx) (m : CplxMark)
    (hre : m.re = true → w.re = z.re) (him : m.im = true → w.im = z.im) :
    SameWritten { s with cr := s.cr.set i.val z, crWritten := s.crWritten.set i.val m }
      { t with cr := t.cr.set i.val w, crWritten := t.crWritten.set i.val m } := by
  refine ⟨h.x, fun j hj => ?_, fun j hj => ?_, ?_⟩
  · by_cases hji : i.val = j.val
    · simp_all [State.c]
    · simp only [State.c, Vector.getElem_set_ne _ _ hji] at hj ⊢
      exact h.cRe j hj
  · by_cases hji : i.val = j.val
    · simp_all [State.c]
    · simp only [State.c, Vector.getElem_set_ne _ _ hji] at hj ⊢
      exact h.cIm j hj
  · obtain ⟨a, b, rfl⟩ := h.exists_eq
    rfl

theorem setC (i : RegIdx) (z : Cplx) : SameWritten (s.setC i z) (t.setC i z) :=
  h.setComponents i z z _ (fun _ => rfl) (fun _ => rfl)

theorem setCRe (i : RegIdx) (v : F64) : SameWritten (s.setCRe i v) (t.setCRe i v) := by
  have him := h.cIm i
  obtain ⟨a, b, rfl⟩ := h.exists_eq
  exact h.setComponents i _ _ _ (fun _ => rfl) him

theorem setCIm (i : RegIdx) (v : F64) : SameWritten (s.setCIm i v) (t.setCIm i v) := by
  have hre := h.cRe i
  obtain ⟨a, b, rfl⟩ := h.exists_eq
  exact h.setComponents i _ _ _ hre (fun _ => rfl)

/-! Drawing (R283, R289): the values drawn depend on the count of draws alone. -/

theorem havocC (i : RegIdx) : SameWritten (havocC s i) (havocC t i) := by
  rw [Machine.havocC, Machine.havocC, h.freeBits_eq, h.freeBits_eq]
  exact (h.setC i _).map (·.drawn 2)

theorem havocX (i : RegIdx) : SameWritten (havocX s i) (havocX t i) := by
  rw [Machine.havocX, Machine.havocX, h.freeBits_eq]
  exact (h.setX i _).map (·.drawn 1)

theorem havocResultRegs (i : Instr) : SameWritten (havocResultRegs i s) (havocResultRegs i t) := by
  cases i with
  | buildtbl o => exact h.map (Machine.havocResultRegs (.buildtbl o))
  | fft o tbl => exact h.map (Machine.havocResultRegs (.fft o tbl))
  | _ => exact h

end Updates

theorem foldl {f : State → RegIdx → State}
    (hf : ∀ {s t : State}, SameWritten s t → ∀ i, SameWritten (f s i) (f t i)) {s t : State} (h : SameWritten s t)
    (is : List RegIdx) : SameWritten (is.foldl f s) (is.foldl f t) := by
  induction is generalizing s t with
  | nil => exact h
  | cons i is ih => exact ih (hf h i)

theorem havocBytes {s t : State} (h : SameWritten s t) (as : List Nat) :
    SameWritten (havocBytes s as) (havocBytes t as) := by
  induction as generalizing s t with
  | nil => exact h
  | cons a as ih => exact ih (h.map fun u => (u.setMem (u.mem.setByte a ((u.freeBits 0).truncate 8))).drawn 1)

theorem havocWrites {s t : State} (h : SameWritten s t) (fp : Footprint) :
    SameWritten (havocWrites fp s) (havocWrites fp t) := by
  have hbytes : (fp.writes.map (rangeBytes t)).flatten ++ t.raced =
      (fp.writes.map (rangeBytes s)).flatten ++ s.raced := by
    obtain ⟨a, b, rfl⟩ := h.exists_eq
    rfl
  rw [Machine.havocWrites, Machine.havocWrites, hbytes]
  exact foldl havocX (foldl havocC (h.havocBytes _) _) _

/-! What reads written registers only sees the same values in both states. -/

section Reads

variable {s t : State} (h : SameWritten s t)
include h

theorem c_eq {i : RegIdx} (hi : s.cWritten i = true) : t.c i = s.c i := by
  obtain ⟨hre, him⟩ : s.crWritten[i.val].re = true ∧ s.crWritten[i.val].im = true := by
    simpa [State.cWritten] using hi
  exact congrArg₂ Cplx.mk (h.cRe i hre) (h.cIm i him)

theorem operands_eq {i : Instr} (hw : operandsWritten i s = true) :
    (∀ r ∈ readsC i, t.c r = s.c r) ∧ ∀ r ∈ readsX i, t.x r = s.x r := by
  obtain ⟨hc, hx⟩ : (∀ r ∈ readsC i, s.cWritten r = true) ∧ ∀ r ∈ readsX i, s.xIsWritten r = true := by
    simpa [operandsWritten] using hw
  exact ⟨fun r hr => h.c_eq (hc r hr), fun r hr => h.x r (hx r hr)⟩

theorem footprint_eq {i : Instr} (hw : operandsWritten i s = true) : footprint i t = footprint i s := by
  obtain ⟨-, hx⟩ := h.operands_eq hw
  obtain ⟨a, b, rfl⟩ := h.exists_eq
  cases i with
  | ldc cd xs1 | stc cs2 xs1 => rw [footprint, footprint, hx xs1 (by simp [readsX])]
  | _ => rfl

theorem pendingFootprint_eq (hw : pendingReadsWritten s = true) : pendingFootprint t = pendingFootprint s := by
  cases hb : s.status.busy with
  | false => rw [pendingFootprint_idle hb, pendingFootprint_idle (h.status_eq ▸ hb)]
  | true =>
    cases hd : decode s.lastCmd with
    | error e => rw [pendingFootprint_error hd, pendingFootprint_error (h.lastCmd_eq ▸ hd)]
    | ok i =>
      rw [pendingFootprint_ok hb hd, pendingFootprint_ok (h.status_eq ▸ hb) (h.lastCmd_eq ▸ hd)]
      exact h.footprint_eq (by simpa [pendingReadsWritten, hb, hd] using hw)

theorem regValue_eq {r : HostReg} (hw : windowWritten s r = true) : regValue t r = regValue s r := by
  cases r with
  | x i => exact h.x i hw
  | cRe i => exact h.cRe i hw
  | cIm i => exact h.cIm i hw
  | _ =>
    obtain ⟨a, b, rfl⟩ := h.exists_eq
    rfl

theorem elementAddr_eq {i : RegIdx} (hx : t.x i = s.x i) : elementAddr t i = elementAddr s i := by
  obtain ⟨a, b, rfl⟩ := h.exists_eq
  rw [elementAddr, elementAddr, opNat, opNat, hx]
  rfl

/-! The end of a command. -/

theorem sameOutcome_writesC (rd : RegIdx) {z w : Cplx} (hz : w = z) :
    SameOutcome SameWritten (writesC s rd z) (writesC t rd w) := by
  subst hz
  exact (h.setC rd w).map (complete · .none)

theorem sameOutcome_writesX (rd : RegIdx) {v w : Word64} (hv : w = v) :
    SameOutcome SameWritten (writesX s rd v) (writesX t rd w) := by
  subst hv
  exact (h.setX rd w).map (complete · .none)

theorem sameOutcome_raise (e : Stop) : SameOutcome SameWritten (finish s (.error e)) (finish t (.error e)) := by
  cases e with
  | raise c => exact h.map (complete · c)
  | fault f => rfl

end Reads

theorem sameOutcome_ok {s t u v : State} (hu : SameWritten u v) :
    SameOutcome SameWritten (finish s (.ok u)) (finish t (.ok v)) :=
  hu.map (complete · .none)

/-! The commands. -/

section Commands

variable {s t : State} (h : SameWritten s t)
include h

theorem sameOutcome_buildtbl (o : Bool) : SameOutcome SameWritten (execBuildtbl o s) (execBuildtbl o t) := by
  obtain ⟨a, b, rfl⟩ := h.exists_eq
  have hplace : outputPlace { s with xr := a, cr := b } o 4 s.tblBase.toNat (4 * s.size.toNat) =
      outputPlace s o 4 s.tblBase.toNat (4 * s.size.toNat) := rfl
  simp only [execBuildtbl, buildTable, hplace]
  cases require (isPow2 s.size.toNat) .invalidSize with
  | error e => exact h.sameOutcome_raise e
  | ok =>
    cases outputPlace s o 4 s.tblBase.toNat (4 * s.size.toNat) with
    | error e => exact h.sameOutcome_raise e
    | ok p => exact sameOutcome_ok (h.map (commitTable · s.size.toNat p))

theorem sameOutcome_fft (o tbl : Bool) : SameOutcome SameWritten (execFft o tbl s) (execFft o tbl t) := by
  obtain ⟨a, b, rfl⟩ := h.exists_eq
  have hplace : fftPlace o tbl { s with xr := a, cr := b } = fftPlace o tbl s := rfl
  have hperm : fftPermutation tbl { s with xr := a, cr := b } = fftPermutation tbl s := rfl
  rw [execFft, execFft, fftCommand, fftCommand, hplace, hperm]
  cases fftPlace o tbl s with
  | error e => exact h.sameOutcome_raise e
  | ok p =>
    cases fftPermutation tbl s with
    | error e => exact h.sameOutcome_raise e
    | ok perm =>
      dsimp only
      cases orFault (readElements s.mem s.inBase.toNat s.size.toNat) with
      | error e => exact h.sameOutcome_raise e
      | ok input => exact sameOutcome_ok ((h.setMem _).map (commitPlace · p))

theorem sameOutcome_exec {i : Instr} (hw : operandsWritten i s = true) :
    SameOutcome SameWritten (exec i s) (exec i t) := by
  obtain ⟨hc, hx⟩ := h.operands_eq hw
  cases i with
  | cmk | cmkre | cmkim | cadd | csub | cmul | cdiv | cexp | cconj | crecip =>
    refine h.sameOutcome_writesC _ ?_
    simp_all only [readsC, readsX, List.forall_mem_cons, opF64]
  | ceq | ceqr | cmod | carg =>
    refine h.sameOutcome_writesX _ ?_
    simp_all only [readsC, List.forall_mem_cons]
  | log2f xd xs1 =>
    refine h.sameOutcome_writesX _ ?_
    rw [opNat, opNat, hx xs1 (by simp [readsX])]
  | crand cd =>
    obtain ⟨a, b, rfl⟩ := h.exists_eq
    exact (h.map (·.drawn 2)).sameOutcome_writesC cd rfl
  | brev xd xs1 xs2 =>
    simp only [readsX, List.forall_mem_cons] at hx
    by_cases hsize : Pow2 (s.x xs1).toNat
    · rw [exec_brev_of_pow2 xd xs2 hsize, exec_brev_of_pow2 xd xs2 (by rwa [hx.1])]
      exact h.sameOutcome_writesX xd (by rw [hx.1, hx.2.1])
    · rw [exec_brev_of_not_pow2 xd xs2 hsize, exec_brev_of_not_pow2 xd xs2 (by rwa [hx.1])]
      exact h.sameOutcome_raise (.raise .invalidSize)
  | buildtbl o => exact h.sameOutcome_buildtbl o
  | fft o tbl => exact h.sameOutcome_fft o tbl
  | bfly cd cs1 cs2 =>
    simp only [readsC, List.forall_mem_cons] at hc
    simp only [exec, execBfly, hc]
    split
    · exact h.sameOutcome_raise _
    · exact sameOutcome_ok ((h.setC _ _).setC _ _)
  | ldc cd xs1 =>
    simp only [exec, execLdc, h.elementAddr_eq (hx xs1 (by simp [readsX])), h.mem_eq]
    cases elementAddr s xs1 with
    | error e => exact h.sameOutcome_raise e
    | ok ea =>
      dsimp only
      cases readC s.mem ea with
      | error f => exact h.sameOutcome_raise (.fault f)
      | ok z => exact sameOutcome_ok (h.setC cd z)
  | stc cs2 xs1 =>
    simp only [exec, execStc, h.elementAddr_eq (hx xs1 (by simp [readsX])), hc cs2 (by simp [readsC]), h.mem_eq]
    cases elementAddr s xs1 with
    | error e => exact h.sameOutcome_raise e
    | ok ea => exact sameOutcome_ok (h.setMem _)

end Commands

/-! The moves. -/

section Moves

variable {s t : State} (h : SameWritten s t)
include h

theorem raceOutcome {i : Instr} (hw : operandsWritten i s = true) :
    SameWritten (raceOutcome i s) (raceOutcome i t) := by
  have hhavoc := (h.havocWrites (footprint i s)).havocResultRegs i
  rw [Machine.raceOutcome, Machine.raceOutcome, h.footprint_eq hw]
  exact hhavoc.map fun u => { u with
    draws := u.draws + 2
    raced := []
    status := ⟨false, true, drawnCode (u.freeBits 0).toNat, (u.freeBits 1).getLsbD 0, u.status.hz⟩ }

theorem sameOutcome_engineTurn (hw : engineReadsWritten s = true) :
    SameOutcome SameWritten (engineTurn s) (engineTurn t) := by
  rw [engineTurn, engineTurn, h.resetAsserted_eq, h.status_eq, h.lastCmd_eq, h.raced_eq]
  split
  · exact h
  · next hrun =>
    obtain ⟨hreset, hbusy⟩ : s.resetAsserted = false ∧ s.status.busy = true := by simpa using hrun
    cases hd : decode s.lastCmd with
    | error e => exact h.map (complete · .illegalCommand)
    | ok i =>
      have hi : operandsWritten i s = true := by
        simpa [engineReadsWritten, pendingReadsWritten, hreset, hbusy, hd] using hw
      dsimp only
      split
      · exact h.sameOutcome_exec hi
      · exact h.raceOutcome hi

theorem unlessBusy {u v : State} (huv : SameWritten u v) : SameWritten (unlessBusy s u) (unlessBusy t v) := by
  rw [Machine.unlessBusy, Machine.unlessBusy, h.status_eq]
  split
  · exact h.map (·.setHz)
  · exact huv

theorem regStore (r : HostReg) (v : Word64) : SameWritten (regStore s r v) (regStore t r v) := by
  cases r with
  | x i => exact h.unlessBusy (h.setX i v)
  | cRe i => exact h.unlessBusy (h.setCRe i v)
  | cIm i => exact h.unlessBusy (h.setCIm i v)
  | id | resBase | reserved => exact h
  | status => exact h.map (Machine.regStore · .status v)
  | ctrl => exact h.map (Machine.regStore · .ctrl v)
  | cmd => exact h.unlessBusy (h.map (issue · (v.truncate 32)))
  | size => exact h.unlessBusy (h.map fun u => { u with size := v.truncate 32 })
  | inBase => exact h.unlessBusy (h.map fun u => { u with inBase := v.truncate 32 })
  | outBase => exact h.unlessBusy (h.map fun u => { u with outBase := v.truncate 32 })
  | tblBase => exact h.unlessBusy (h.map fun u => { u with tblBase := v.truncate 32 })
  | tblLen => exact h.unlessBusy (h.map fun u => { u with tblLen := v.truncate 32 })
  | poolBase => exact h.unlessBusy (h.map fun u => { u with poolBase := v.extractLsb' 4 28 })
  | poolLimit => exact h.unlessBusy (h.map fun u => { u with poolLimit := v.extractLsb' 4 28 })
  | allocPtr => exact h.unlessBusy (h.map fun u => { u with allocPtr := v.extractLsb' 4 28 })

theorem hostRegWrite (offset : BitVec 12) (width : Nat) (v : Word64) :
    SameWritten (hostRegWrite s offset width v) (hostRegWrite t offset width v) := by
  rw [Machine.hostRegWrite, Machine.hostRegWrite, h.resetAsserted_eq]
  split
  · exact h
  · exact h.regStore _ v

theorem returned {v w : Word64} (k : Nat) (hv : w = v) : SameWritten (s.returned v k) (t.returned w k) := by
  subst hv
  exact h.map (·.returned w k)

theorem hostRegRead {offset : BitVec 12} {width : Nat}
    (hw : (s.resetAsserted || !regAccessOk offset width || s.status.busy || windowWritten s (hostReg offset)) = true) :
    SameWritten (hostRegRead s offset width) (hostRegRead t offset width) := by
  rw [Machine.hostRegRead, Machine.hostRegRead, h.resetAsserted_eq, h.status_eq]
  split
  · exact h.returned 1 (h.freeBits_eq 0)
  · next hread =>
    refine h.returned 0 (h.regValue_eq ?_)
    cases hreadable : readableBusy (hostReg offset) with
    | true => exact windowWritten_of_readableBusy s hreadable
    | false => simp_all

theorem waitTurn (rest : List Turn) : SameWritten (waitTurn rest s) (waitTurn rest t) := by
  have hstatus : windowWritten s (hostReg 0x008) = true := rfl
  have hread : SameWritten (Machine.hostRegRead s 0x008 8) (Machine.hostRegRead t 0x008 8) :=
    h.hostRegRead (by rw [hstatus, Bool.or_true])
  exact hread.map fun u => { u with script := if u.readData.getLsbD 0 then .engine :: .wait :: rest else rest }

theorem hostMemWrite (hw : pendingReadsWritten s = true) (addr width : Nat) (v : Word64) :
    SameWritten (hostMemWrite s addr width v) (hostMemWrite t addr width v) := by
  have hfp := h.pendingFootprint_eq hw
  obtain ⟨a, b, rfl⟩ := h.exists_eq
  have hrace : racesPending { s with xr := a, cr := b } addr width = racesPending s addr width := by
    rw [racesPending, racesPending, hfp]
    rfl
  have hok : portAccessOk { s with xr := a, cr := b } addr width = portAccessOk s addr width := rfl
  simp only [Machine.hostMemWrite, hrace, hok]
  split
  · exact h
  · exact h.map fun u => { u with
      mem := memWrite u.mem addr width v.toNat
      raced := if racesPending s addr width then u.raced ++ accessBytes addr width else u.raced }

theorem sameOutcome_hostMemRead (hw : pendingReadsWritten s = true) (addr width : Nat) :
    SameOutcome SameWritten (hostMemRead s addr width) (hostMemRead t addr width) := by
  have hbytes := portBytes_congr h.mem_eq h.bmemBlocks_eq h.draws_eq (pendingFootprint s).writes 0 addr width
  have hfp := h.pendingFootprint_eq hw
  obtain ⟨a, b, rfl⟩ := h.exists_eq
  have hok : portAccessOk { s with xr := a, cr := b } addr width = portAccessOk s addr width := rfl
  simp only [hostMemRead, hfp, hbytes, hok]
  split
  · exact h.returned 1 rfl
  · cases portBytes s (pendingFootprint s).writes 0 addr width with
    | error f => rfl
    | ok bs => exact h.returned width rfl

theorem assertReset (hw : pendingReadsWritten s = true) : SameWritten (assertReset s) (assertReset t) := by
  have hhavoc := h.havocWrites (pendingFootprint s)
  rw [Machine.assertReset, Machine.assertReset, h.pendingFootprint_eq hw]
  exact hhavoc.map fun u => { resetControl u with resetAsserted := true }

theorem setScript (rest : List Turn) : SameWritten { s with script := rest } { t with script := rest } :=
  h.map ({ · with script := rest })

end Moves

end SameWritten

/-- Settles O59, by the next entry of the script: each move keeps `SameWritten`, since the values it reads are
written. -/
theorem unwrittenValuesUnobservable : Obligations.UnwrittenValuesUnobservable := by
  intro s t h hw
  match hs : s.script with
  | [] =>
    rw [readsOnlyWritten, hs] at hw
    rw [step_script_nil hs, step_script_nil (h.script_eq.trans hs)]
    exact h.sameOutcome_engineTurn hw
  | .engine :: rest =>
    rw [readsOnlyWritten, hs] at hw
    rw [step_script_engine hs, step_script_engine (h.script_eq.trans hs)]
    exact (h.setScript rest).sameOutcome_engineTurn hw
  | .wait :: rest =>
    rw [step_script_wait hs, step_script_wait (h.script_eq.trans hs)]
    exact h.waitTurn rest
  | .host act :: rest =>
    rw [readsOnlyWritten, hs] at hw
    rw [step_script_host hs, step_script_host (h.script_eq.trans hs)]
    have h' := h.setScript rest
    cases act with
    | regWrite offset width v => exact h'.hostRegWrite offset width v
    | regRead offset width => exact h'.hostRegRead hw
    | memWrite addr width v => exact h'.hostMemWrite hw addr width v
    | memRead addr width => exact h'.sameOutcome_hostMemRead hw addr width
    | assertReset => exact h'.assertReset hw
    | deassertReset => exact h'.map (deassertReset ·)

end Sys2Proof.Machine
end

section
/-!
PROOFS of the statements on 70_reset_and_hazards.md, second part: host accesses while a command is pending, races and
reset. The ranges of `footprint` are F_R and F_W of R289 (`inRanges_footprint_reads`, `inRanges_footprint_writes`), so
what `havocWrites` leaves alone is `Untouched`, and both a raced command and a reset are `havocWrites` followed by an
update of the control registers.
-/

namespace Sys2Proof.Machine

open Sys2Proof.Claims

/-! ### Register writes while a command is pending (R286, R287) -/

/-- A dropped write sets HZ and changes nothing else. -/
theorem unlessBusy_busy {s : State} (hb : s.status.busy = true) (t : State) :
    unlessBusy s t = { s with status := ⟨true, s.status.done, s.status.err, s.status.alloc, true⟩ } := by
  simp [unlessBusy, State.setHz, hb]

/-- A write to any operand register of R287 is dropped while BUSY. -/
theorem regStore_operand {offset : BitVec 12} (s : State) (v : Word64) (h8 : offset.toNat % 8 = 0)
    (h : (0x020 ≤ offset.toNat ∧ offset.toNat ≤ 0x040) ∨ (0x050 ≤ offset.toNat ∧ offset.toNat ≤ 0x060) ∨
      (0x080 ≤ offset.toNat ∧ offset.toNat ≤ 0x0B8) ∨ (0x100 ≤ offset.toNat ∧ offset.toNat ≤ 0x178)) :
    ∃ t, regStore s (hostReg offset) v = unlessBusy s t := by
  rcases h with h | h | h | h
  · have hreg := hostReg_word32 h8 h
    simp only [List.mem_cons, List.not_mem_nil, or_false] at hreg
    rcases hreg with hr | hr | hr | hr | hr <;> exact ⟨_, by rw [hr]; rfl⟩
  · have hreg := hostReg_pool h8 h
    simp only [List.mem_cons, List.not_mem_nil, or_false] at hreg
    rcases hreg with hr | hr | hr <;> exact ⟨_, by rw [hr]; rfl⟩
  · obtain ⟨n, hr⟩ := exists_hostReg_x h8 (by omega)
    exact ⟨_, by rw [hr]; rfl⟩
  · obtain ⟨n, hr | hr⟩ := exists_hostReg_c h8 (by omega) <;> exact ⟨_, by rw [hr]; rfl⟩

/-- Settles O48: a CMD write is `issue` while idle, and is dropped while BUSY. -/
theorem commandWriteIssuesOrDrops : Obligations.CommandWriteIssuesOrDrops := by
  intro s v rest hnext hr
  have hstep : step s =
      .next (unlessBusy { s with script := rest } (issue { s with script := rest } (v.truncate 32))) :=
    step_regWrite_supported hnext hr (by decide)
  refine ⟨fun hb => ?_, fun hb => ?_⟩
  · rw [unlessBusy_idle (s := { s with script := rest }) hb] at hstep
    exact ⟨_, hstep, BitVec.toNat_setWidth 32 v, rfl⟩
  · rwa [unlessBusy_busy (s := { s with script := rest }) hb] at hstep

/-- Settles O49: the offset names an operand register, whose write is dropped, or one that R287 leaves writable or
ignored. -/
theorem operandRegistersFrozen : Obligations.OperandRegistersFrozen := by
  intro s offset v rest hnext hr hb h8
  have hstep := step_regWrite_supported hnext hr h8
  refine ⟨fun h => ?operand, fun h => ?ctrl, fun h => ?status, fun h => ?ignored⟩
  case operand =>
    obtain ⟨t, ht⟩ := regStore_operand { s with script := rest } v h8 h
    rw [hstep, ht, unlessBusy_busy (s := { s with script := rest }) hb]
  case ctrl => subst h; exact hstep
  case status =>
    subst h
    rw [← hb]
    exact hstep
  case ignored =>
    rw [hstep]
    rcases h with rfl | rfl | h
    · rfl
    · rfl
    · rw [hostReg_reserved offset h8 (by omega)]
      rfl

/-! ### The write set and the read set of a command (R283, R289) -/

theorem inRanges_footprint_writes {s : State} {i : Instr} {a : Nat} :
    inRanges s (footprint i s).writes a = true ↔ InWriteSet s i a := by
  cases i with
  | buildtbl o | fft o t =>
    cases o <;> simp [inRanges, footprint, outputRange, InWriteSet, Within, sizeN, poolAddr, roundup16]
  | stc cs2 xs1 => simp [inRanges, footprint, InWriteSet, Within]
  | _ => simp [inRanges, footprint, onlyC, onlyX, InWriteSet]

theorem inRanges_footprint_reads {s : State} {i : Instr} {a : Nat} :
    inRanges s (footprint i s).reads a = true ↔ InReadSet s i a := by
  cases i with
  | fft o t => cases t <;> simp [inRanges, footprint, InReadSet, Within, sizeN]
  | ldc cd xs1 => simp [inRanges, footprint, InReadSet, Within]
  | _ => simp [inRanges, footprint, onlyC, onlyX, InReadSet]

theorem footprint_cDests (i : Instr) (s : State) : (footprint i s).cDests = complexDests i := by
  cases i <;> rfl

theorem footprint_xDests (i : Instr) (s : State) : (footprint i s).xDests = integerDests i := by
  cases i <;> rfl

theorem untouched_havocWrites (s : State) (i : Instr) : Untouched s (havocWrites (footprint i s) s) i := by
  obtain ⟨hmem, hc, hx⟩ := havocWrites_outside (footprint i s) s
  rw [footprint_cDests] at hc
  rw [footprint_xDests] at hx
  exact ⟨fun a ha => hmem a (Bool.eq_false_iff.2 (mt inRanges_footprint_writes.1 ha)), hc, hx⟩

section Pending

variable {s : State} (hb : s.status.busy = true)
include hb

theorem inRanges_pending_writes {a : Nat} : inRanges s (pendingFootprint s).writes a = true ↔ PendingWrites s a := by
  cases hd : decode s.lastCmd with
  | error e => simp [pendingFootprint_error hd, PendingWrites, hd]
  | ok i => simp [pendingFootprint_ok hb hd, PendingWrites, hd, inRanges_footprint_writes]

theorem inRanges_pending_writes_false {a : Nat} :
    inRanges s (pendingFootprint s).writes a = false ↔ ¬ PendingWrites s a := by
  rw [← inRanges_pending_writes hb, Bool.not_eq_true]

theorem inRanges_pending_reads {a : Nat} : inRanges s (pendingFootprint s).reads a = true ↔ PendingReads s a := by
  cases hd : decode s.lastCmd with
  | error e => simp [pendingFootprint_error hd, PendingReads, hd]
  | ok i => simp [pendingFootprint_ok hb hd, PendingReads, hd, inRanges_footprint_reads]

theorem racesPending_iff_pending {addr width : Nat} :
    racesPending s addr width = true ↔ ∃ k, k < width ∧ (PendingReads s (addr + k) ∨ PendingWrites s (addr + k)) := by
  simp only [racesPending_iff, inRanges_pending_reads hb, inRanges_pending_writes hb]

end Pending

/-! ### The BMEM port while a command is pending (R289) -/

theorem mem_accessBytes {addr width a : Nat} : a ∈ accessBytes addr width ↔ Within a addr width := by
  simp only [accessBytes, List.mem_map, List.mem_range, Within]
  constructor
  · rintro ⟨k, hk, rfl⟩
    omega
  · rintro ⟨hlo, hhi⟩
    exact ⟨a - addr, by omega, by omega⟩

/-- Byte `k` of a little-endian value. -/
theorem leValue_div_mod (bs : List Byte) {k : Nat} {b : Byte} (h : bs[k]? = some b) :
    leValue bs / 256 ^ k % 256 = b.toNat := by
  induction bs generalizing k with
  | nil => cases h
  | cons c bs ih =>
    have hc := c.isLt
    cases k with
    | zero =>
      obtain rfl : c = b := by simpa using h
      rw [leValue, pow_zero, Nat.div_one]
      omega
    | succ k =>
      rw [leValue, pow_succ', ← Nat.div_div_eq_div_mul, show (c.toNat + 256 * leValue bs) / 256 = leValue bs by omega]
      exact ih (by simpa using h)

theorem extractLsb'_leValue (bs : List Byte) {k : Nat} {b : Byte} (hk : k < 8) (h : bs[k]? = some b) :
    (BitVec.ofNat 64 (leValue bs)).extractLsb' (8 * k) 8 = b := by
  have hpow : 2 ^ 64 = 256 ^ k * 256 ^ (8 - k) := by rw [← pow_add, Nat.add_sub_cancel' hk.le]; rfl
  apply BitVec.eq_of_toNat_eq
  rw [extractLsb'_byte, BitVec.toNat_ofNat, BitVec.toNat_ofNat, hpow, Nat.mod_mul_right_div_self,
    show 2 ^ 8 = 256 from rfl, Nat.mod_mod_of_dvd _ (dvd_pow_self 256 (by omega)), leValue_div_mod bs h]

theorem portBytes_setScript (s : State) (rest : List Turn) (ranges : List (Nat × Nat)) (k a n : Nat) :
    portBytes { s with script := rest } ranges k a n = portBytes s ranges k a n :=
  portBytes_congr (s := s) (t := { s with script := rest }) rfl rfl rfl ranges k a n

theorem pendingFootprint_setScript (s : State) (rest : List Turn) :
    pendingFootprint { s with script := rest } = pendingFootprint s := rfl

section SupportedAccess

variable {s : State} {addr width : Nat} {rest : List Turn} (hr : s.resetAsserted = false)
  (hok : portAccessOk s addr width = true)
include hr hok

theorem step_memWrite_supported {v : Word64} (hnext : HostNext s (.memWrite addr width v) rest) :
    step s = .next { s with
      script := rest
      mem := memWrite s.mem addr width v.toNat
      raced := if racesPending s addr width then s.raced ++ accessBytes addr width else s.raced } :=
  (step_script_host hnext).trans (congrArg _ (hostMemWrite_supported (s := { s with script := rest }) v hr hok))

variable (hnext : HostNext s (.memRead addr width) rest)
include hnext

theorem step_memRead_supported_ok {bs : List Byte}
    (hbytes : portBytes s (pendingFootprint s).writes 0 addr width = .ok bs) :
    step s = .next ({ s with script := rest }.returned (BitVec.ofNat 64 (leValue bs)) width) := by
  have hport := (portBytes_setScript s rest (pendingFootprint s).writes 0 addr width).trans hbytes
  rw [step_script_host hnext, hostAct, hostMemRead_supported (s := { s with script := rest }) hr hok,
    pendingFootprint_setScript, hport]

theorem step_memRead_supported_error {f : Fault}
    (hbytes : portBytes s (pendingFootprint s).writes 0 addr width = .error f) : step s = .fault f := by
  have hport := (portBytes_setScript s rest (pendingFootprint s).writes 0 addr width).trans hbytes
  rw [step_script_host hnext, hostAct, hostMemRead_supported (s := { s with script := rest }) hr hok,
    pendingFootprint_setScript, hport]

end SupportedAccess

/-- Settles O60: a write taints what it races with, and a read sees the stored byte outside F_W and a draw inside. -/
theorem hostPortWhileBusy : Obligations.HostPortWhileBusy := by
  refine ⟨fun s addr width v rest hnext hr hb hwidth halign hin => ?write,
    fun s addr width rest hnext hr hb hwidth halign hin => ?read⟩
  case write =>
    have hok : portAccessOk s addr width = true := portAccessOk_iff.2 ⟨hwidth, halign, hin⟩
    refine ⟨_, step_memWrite_supported hr hok hnext, rfl, fun a ha => byte_memWrite_outside _ ha, fun k hk => ?_,
      fun h a => ?_, fun h => if_neg fun hrace => ?_⟩
    · dsimp only
      rw [byte_memWrite, if_pos (by omega), extractLsb'_byte, Nat.add_sub_cancel_left]
    · dsimp only
      rw [if_pos ((racesPending_iff_pending hb).2 h), List.mem_append, mem_accessBytes]
    · obtain ⟨k, hk, hp⟩ := (racesPending_iff_pending hb).1 hrace
      exact hp.elim (h k hk).1 (h k hk).2
  case read =>
    have hok : portAccessOk s addr width = true := portAccessOk_iff.2 ⟨hwidth, halign, hin⟩
    have hwidth8 : width ≤ 8 := by
      simp only [List.mem_cons, List.not_mem_nil, or_false] at hwidth
      omega
    cases hbytes : portBytes s (pendingFootprint s).writes 0 addr width with
    | ok bs =>
      obtain ⟨-, hsees⟩ := portBytes_ok hbytes
      have hstored (k : Nat) (hk : k < width) (hout : ¬ PendingWrites s (addr + k)) :=
        (hsees k hk).2 ((inRanges_pending_writes_false hb).2 hout)
      have hdrawn (k : Nat) (hk : k < width) (hinside : PendingWrites s (addr + k)) :=
        (hsees k hk).1 ((inRanges_pending_writes hb).2 hinside)
      refine ⟨fun _ => ⟨_, step_memRead_supported_ok hr hok hnext hbytes, rfl,
        fun k hk => ⟨fun hout => ?_, fun hinside => ?_⟩⟩, ?_⟩
      · obtain ⟨hwritten, hbyte⟩ := hstored k hk hout
        obtain ⟨b, hmem⟩ := Option.ne_none_iff_exists'.1 hwritten
        rw [returned_readData, extractLsb'_leValue bs (by omega) (hbyte.trans hmem), hmem]
      · rw [returned_readData, extractLsb'_leValue bs (by omega) (hdrawn k hk hinside), State.freeBits, Nat.zero_add]
        exact BitVec.setWidth_eq_extractLsb' (by decide)
      · rintro ⟨k, hk, hout, hnone⟩
        exact absurd hnone (hstored k hk hout).1
    | error f =>
      obtain ⟨j, hj, rfl, hrange, hnone⟩ := portBytes_error hbytes
      have hout : ¬ PendingWrites s (addr + j) := (inRanges_pending_writes_false hb).1 hrange
      exact ⟨fun h => absurd hnone ((h j hj).resolve_left hout),
        fun _ => ⟨addr + j, step_memRead_supported_error hr hok hnext hbytes, ⟨by omega, by omega⟩, hout, hnone⟩⟩

/-! ### A raced command (R289) -/

theorem engineTurn_raced {s : State} {i : Instr} (hr : s.resetAsserted = false) (hb : s.status.busy = true)
    (hraced : s.raced ≠ []) (hd : decode s.lastCmd = .ok i) : engineTurn s = .next (raceOutcome i s) := by
  simp [engineTurn, hr, hb, hraced, hd]

/-- Drawing the result registers changes them and the count of draws only. -/
theorem havocResultRegs_frame (i : Instr) (s : State) :
    havocResultRegs i s = { s with
      tblBase := (havocResultRegs i s).tblBase
      tblLen := (havocResultRegs i s).tblLen
      resBase := (havocResultRegs i s).resBase
      allocPtr := (havocResultRegs i s).allocPtr
      draws := (havocResultRegs i s).draws } := by
  cases i <;> rfl

/-- Which commands draw which result register. -/
theorem havocResultRegs_keeps (i : Instr) (s : State) :
    ((∀ o, i ≠ .buildtbl o) → (havocResultRegs i s).tblLen = s.tblLen) ∧
    (i ≠ .buildtbl false → (havocResultRegs i s).tblBase = s.tblBase) ∧
    ((∀ o, i ≠ .buildtbl o) → (∀ o b, i ≠ .fft o b) → (havocResultRegs i s).resBase = s.resBase) ∧
    (i ≠ .buildtbl false → (∀ b, i ≠ .fft false b) → (havocResultRegs i s).allocPtr = s.allocPtr) := by
  cases i with
  | buildtbl o | fft o t => cases o <;> simp [havocResultRegs]
  | _ => exact ⟨fun _ => rfl, fun _ => rfl, fun _ _ => rfl, fun _ _ => rfl⟩

theorem havocWrites_results (fp : Footprint) (s : State) : SameResults s (havocWrites fp s) := by
  rw [havocWrites_frame]
  exact ⟨rfl, rfl, rfl, rfl⟩

/-- All that R289 leaves open in the outcome of a raced command. -/
theorem raceOutcome_frame (i : Instr) (s : State) :
    raceOutcome i s = { s with
      raced := [], draws := (raceOutcome i s).draws
      status := ⟨false, true, (raceOutcome i s).status.err, (raceOutcome i s).status.alloc, s.status.hz⟩
      xr := (raceOutcome i s).xr, cr := (raceOutcome i s).cr
      xrWritten := (raceOutcome i s).xrWritten, crWritten := (raceOutcome i s).crWritten
      mem := (raceOutcome i s).mem, tblBase := (raceOutcome i s).tblBase, tblLen := (raceOutcome i s).tblLen
      resBase := (raceOutcome i s).resBase, allocPtr := (raceOutcome i s).allocPtr } := by
  rw [raceOutcome, havocResultRegs_frame, havocWrites_frame]
  rfl

theorem untouched_raceOutcome (s : State) (i : Instr) : Untouched s (raceOutcome i s) i := by
  rw [raceOutcome, havocResultRegs_frame]
  exact untouched_havocWrites s i

/-- Settles O56: the outcome is drawn inside the write set, and in the result registers of the command. -/
theorem racedCommandOutcome : Obligations.RacedCommandOutcome := by
  intro s i hready hd hraced
  have hstep := step_of_engineReady hready
  obtain ⟨hr, hb, -⟩ := hready
  rw [engineTurn_raced (s := turned s) hr hb hraced hd] at hstep
  obtain ⟨hlen, htbl, hres, hptr⟩ := havocResultRegs_keeps i (havocWrites (footprint i (turned s)) (turned s))
  obtain ⟨stbl, slen, sres, sptr⟩ := havocWrites_results (footprint i (turned s)) (turned s)
  exact ⟨_, hstep, raceOutcome_frame i (turned s), untouched_raceOutcome (turned s) i, fun h => (hlen h).trans slen,
    fun h => (htbl h).trans stbl, fun h h' => (hres h h').trans sres, fun h h' => (hptr h h').trans sptr⟩

/-! ### Reset (R280 to R283) -/

theorem step_assertReset {s : State} {rest : List Turn} (hnext : HostNext s .assertReset rest) :
    step s = .next (assertReset { s with script := rest }) := step_script_host hnext

theorem step_deassertReset {s : State} {rest : List Turn} (hnext : HostNext s .deassertReset rest) :
    step s = .next { s with script := rest, resetAsserted := false } := step_script_host hnext

theorem assertReset_frame (s : State) :
    assertReset s = { s with
      status := ⟨false, false, .none, false, false⟩
      ie := false, lastCmd := 0, size := 0, inBase := 0, outBase := 0, tblBase := 0, tblLen := 0, resBase := 0
      poolBase := 0, poolLimit := 0, allocPtr := 0, resetAsserted := true, raced := []
      xr := (assertReset s).xr, cr := (assertReset s).cr
      xrWritten := (assertReset s).xrWritten, crWritten := (assertReset s).crWritten
      mem := (assertReset s).mem, draws := (assertReset s).draws } := by
  rw [assertReset, havocWrites_frame]
  rfl

/-- With nothing pending, only what racing host writes hit is drawn. -/
theorem havocWrites_nothing (s : State) : havocWrites ⟨[], [], [], []⟩ s = havocBytes s s.raced := rfl

/-- Settles O55: reset is `havocWrites` of the pending footprint under control registers at their reset values. -/
theorem resetDiscardsPendingCommand : Obligations.ResetDiscardsPendingCommand := by
  intro s rest hnext hb
  have hframe := assertReset_frame { s with script := rest }
  have hscript : (assertReset { s with script := rest }).script = rest := by rw [hframe]
  refine ⟨_, step_assertReset hnext, rfl, hframe, fun i hd => ?_, fun e hd => ?_, fun rest' hrest => ?_⟩
  · rw [assertReset, pendingFootprint_ok (s := { s with script := rest }) hb hd]
    exact untouched_havocWrites { s with script := rest } i
  · rw [assertReset, pendingFootprint_error (s := { s with script := rest }) hd, havocWrites_nothing]
    obtain ⟨hc, hcw, hx, hxw⟩ := havocBytes_registers { s with script := rest } s.raced
    refine ⟨fun a ha => byte_havocBytes_outside ha, ⟨fun r => ?_, hxw⟩, fun r => ?_, hcw⟩
    · exact congrArg (·[r.val]) hx
    · exact congrArg (·[r.val]) hc
  · exact step_deassertReset (hscript.trans hrest)

theorem assertReset_idle {s : State} (hb : s.status.busy = false) (hraced : s.raced = []) :
    assertReset s = { resetControl s with resetAsserted := true } := by
  rw [assertReset, pendingFootprint_idle hb, havocWrites_nothing, hraced]
  rfl

/-- Settles O54: with nothing pending and no taint, asserting reset draws nothing. -/
theorem resetValues : Obligations.ResetValues := by
  refine ⟨fun s rest hscript hb hraced => ⟨_, step_assertReset hscript, ?_⟩, rfl, rfl, rfl, rfl, rfl, rfl, rfl, rfl,
    rfl, rfl, rfl, rfl, rfl, fun _ => rfl, by decide⟩
  rw [assertReset_idle (s := { s with script := .host .deassertReset :: rest }) hb hraced]
  refine Eq.trans (step_deassertReset (rest := rest) rfl) ?_
  rw [hraced]
  rfl

/-- Settles O57: the power-on memory is empty, nothing is pending, and nothing raced. -/
theorem resetMeetsInvariant : Obligations.ResetMeetsInvariant :=
  .of_untainted ⟨List.Pairwise.nil, nofun⟩ (by decide) rfl

end Sys2Proof.Machine
end
